-- ==== Sys2Proof/Word.lean ====
section
/-! DEFINITION. The machine's words: 32-bit words, bytes, 64-bit pair values, and register numbers
(spec 00_scope.md R9, R11; 10_state.md R32). -/

namespace Sys2Proof

/-- One byte of the memory buffer (20_memory.md R67) and the flags register (10_state.md R42). -/
abbrev Byte := BitVec 8

/-- "the machine's fixed 32-bit unit of memory and instruction encoding" (R17). -/
abbrev Word := BitVec 32

/-- The 64-bit pattern a register pair holds (R13, R37). -/
abbrev DWord := BitVec 64

/-- A register number, 0 to 15: every 4-bit field value is one (R95). -/
abbrev Reg := Fin 16

end Sys2Proof
end

