-- ==== Sys2Proof/Config.lean ====
section
/-! DEFINITION. What a machine is built with: the fixed parameters of 00_scope.md R9, the open parameters of R10 as
types (the values the spec names, or any opcode map), and the free values (constants with no body) that stand
for the spec's draws. -/

namespace Sys2Proof

/-- `SHR_KIND` (43_shift_logic.md R191): which right shift SHR and SHRI perform. -/
inductive ShrKind where
  | arithmetic
  | logical
  deriving DecidableEq, Repr

/-- `DIV_DIVIDEND` (41_integer_arith.md R157): how the two dividend words are combined. -/
inductive DivDividend where
  | sextOr
  | concat
  deriving DecidableEq, Repr

/-- `JL_MODE` (48_jumps.md R285): the condition of JL. -/
inductive JlMode where
  | referenceNoop
  | intended
  deriving DecidableEq, Repr

/-- `DIV_IMM16` (41_integer_arith.md R159): whether DIV adds its imm16 to the divisor. -/
inductive DivImm16 where
  | ignored
  | added
  deriving DecidableEq, Repr

/-- `ADDRESSING_MODE` (20_memory.md R77): only `modular` is specified; `checked` is refused. -/
inductive AddressingMode where
  | modular
  | checked
  deriving DecidableEq, Repr

/-- The 51 mnemonics of 30_encoding.md R96, R97: the operation an opcode number selects (R90). -/
inductive Op where
  | halt | syscall | add | addi | sub | subi | mul | muli | div | divi | lc | shl | shli | shr | shri | and
  | andi | or | ori | xor | xori | not | mov | addd | subd | muld | divd | itod | dtoi | push | pop | call
  | calli | ret | cmp | cmpi | jmp | jne | jeq | jle | jl | jge | jg | load | store | load2 | store2 | loadr
  | storer | loadr2 | storer2
  deriving DecidableEq, Repr

/-- `OPCODE_MAP` (30_encoding.md R97, D1): the 8-bit opcode number of each mnemonic. -/
structure OpcodeMap where
  halt : Byte
  syscall : Byte
  add : Byte
  addi : Byte
  sub : Byte
  subi : Byte
  mul : Byte
  muli : Byte
  div : Byte
  divi : Byte
  lc : Byte
  shl : Byte
  shli : Byte
  shr : Byte
  shri : Byte
  and : Byte
  andi : Byte
  or : Byte
  ori : Byte
  xor : Byte
  xori : Byte
  not : Byte
  mov : Byte
  addd : Byte
  subd : Byte
  muld : Byte
  divd : Byte
  itod : Byte
  dtoi : Byte
  push : Byte
  pop : Byte
  call : Byte
  calli : Byte
  ret : Byte
  cmp : Byte
  cmpi : Byte
  jmp : Byte
  jne : Byte
  jeq : Byte
  jle : Byte
  jl : Byte
  jge : Byte
  jg : Byte
  load : Byte
  store : Byte
  load2 : Byte
  store2 : Byte
  loadr : Byte
  storer : Byte
  loadr2 : Byte
  storer2 : Byte
  deriving DecidableEq, Repr

/-- The parameters of R10 that are data, fixed for a machine. -/
structure Params where
  opcodeMap : OpcodeMap
  shrKind : ShrKind
  divDividend : DivDividend
  jlMode : JlMode
  divImm16 : DivImm16
  addressing : AddressingMode
  deriving DecidableEq, Repr

/-- The shift instruction that `SHIFT_OOB` is told of (R191). -/
inductive ShiftOp where
  | shl
  | shli
  | shr
  | shri
  deriving DecidableEq, Repr

/-- The double operation that `FP_NAN` is told of (44_float.md R223). -/
inductive FpOp where
  | addd
  | subd
  | muld
  | divd
  deriving DecidableEq, Repr

namespace Config

/-- `MEM_WORDS` = 2^20 (R9). -/
def memWords : Nat := 1048576

/-- `MEM_BYTES` = 2^22 (R9). -/
def memBytes : Nat := 4194304

/-- `SHIFT_OOB(op, value, count)` (R191): a free value. The first argument numbers the draw, so that nothing relates
two draws, not even of equal operands. -/
opaque shiftOob : Nat → ShiftOp → Word → Word → Word

/-- `FP_NAN(op, a, b)` (R223) before it is made a NaN pattern (`Fp.asNan`): a free value. -/
opaque fpNan : Nat → FpOp → DWord → DWord → DWord

/-- `DTOI_NAN(a)` (R229): a free value. -/
opaque dtoiNan : Nat → DWord → Word

end Config

end Sys2Proof
end

