-- ==== Sys2Proof/Syntax.lean ====
section
/-! DEFINITION. The instructions: one constructor for each row of spec/opcode_table.json. An immediate or address
operand is the 32-bit word that the spec's `imm16`, `imm20` or `addr20` names (00_scope.md R15), already extended
(30_encoding.md R95); WellFormed.lean says which words a field can hold. A field an instruction does not use is no
operand (R99). -/

namespace Sys2Proof

/-- The 51 instructions (30_encoding.md R96, R97). -/
inductive Instr where
  /-- HALT: 40_system.md R130. -/
  | halt
  /-- SYSCALL: 40_system.md R131. -/
  | syscall (rd : Reg) (imm20 : Word)
  /-- ADD: 41_integer_arith.md R150. -/
  | add (rd rs : Reg) (imm16 : Word)
  /-- ADDI: 41_integer_arith.md R151. -/
  | addi (rd : Reg) (imm20 : Word)
  /-- SUB: 41_integer_arith.md R152. -/
  | sub (rd rs : Reg) (imm16 : Word)
  /-- SUBI: 41_integer_arith.md R153. -/
  | subi (rd : Reg) (imm20 : Word)
  /-- MUL: 41_integer_arith.md R155. -/
  | mul (rd rs : Reg) (imm16 : Word)
  /-- MULI: 41_integer_arith.md R156. -/
  | muli (rd : Reg) (imm20 : Word)
  /-- DIV: 41_integer_arith.md R159. -/
  | div (rd rs : Reg) (imm16 : Word)
  /-- DIVI: 41_integer_arith.md R160. -/
  | divi (rd : Reg) (imm20 : Word)
  /-- LC: 42_register_load.md R180. -/
  | lc (rd : Reg) (imm20 : Word)
  /-- SHL: 43_shift_logic.md R192. -/
  | shl (rd rs : Reg) (imm16 : Word)
  /-- SHLI: 43_shift_logic.md R193. -/
  | shli (rd : Reg) (imm20 : Word)
  /-- SHR: 43_shift_logic.md R194. -/
  | shr (rd rs : Reg) (imm16 : Word)
  /-- SHRI: 43_shift_logic.md R195. -/
  | shri (rd : Reg) (imm20 : Word)
  /-- AND: 43_shift_logic.md R197. -/
  | and (rd rs : Reg) (imm16 : Word)
  /-- ANDI: 43_shift_logic.md R198. -/
  | andi (rd : Reg) (imm20 : Word)
  /-- OR: 43_shift_logic.md R199. -/
  | or (rd rs : Reg) (imm16 : Word)
  /-- ORI: 43_shift_logic.md R200. -/
  | ori (rd : Reg) (imm20 : Word)
  /-- XOR: 43_shift_logic.md R201. -/
  | xor (rd rs : Reg) (imm16 : Word)
  /-- XORI: 43_shift_logic.md R202. -/
  | xori (rd : Reg) (imm20 : Word)
  /-- NOT: 43_shift_logic.md R203. -/
  | not (rd : Reg)
  /-- MOV: 42_register_load.md R181. -/
  | mov (rd rs : Reg) (imm16 : Word)
  /-- ADDD: 44_float.md R224. -/
  | addd (rd rs : Reg)
  /-- SUBD: 44_float.md R225. -/
  | subd (rd rs : Reg)
  /-- MULD: 44_float.md R226. -/
  | muld (rd rs : Reg)
  /-- DIVD: 44_float.md R227. -/
  | divd (rd rs : Reg)
  /-- ITOD: 44_float.md R228. -/
  | itod (rd rs : Reg)
  /-- DTOI: 44_float.md R229. -/
  | dtoi (rd rs : Reg)
  /-- PUSH: 46_stack.md R260. -/
  | push (rd : Reg) (imm20 : Word)
  /-- POP: 46_stack.md R261. -/
  | pop (rd : Reg) (imm20 : Word)
  /-- CALL: 47_calls.md R271. -/
  | call (rd : Reg) (addr20 : Word)
  /-- CALLI: 47_calls.md R272. -/
  | calli (addr20 : Word)
  /-- RET: 47_calls.md R273. -/
  | ret (addr20 : Word)
  /-- CMP: 45_compare.md R251. -/
  | cmp (rd rs : Reg)
  /-- CMPI: 45_compare.md R252. -/
  | cmpi (rd : Reg) (imm20 : Word)
  /-- JMP: 48_jumps.md R281. -/
  | jmp (addr20 : Word)
  /-- JNE: 48_jumps.md R282. -/
  | jne (addr20 : Word)
  /-- JEQ: 48_jumps.md R283. -/
  | jeq (addr20 : Word)
  /-- JLE: 48_jumps.md R284. -/
  | jle (addr20 : Word)
  /-- JL: 48_jumps.md R285. -/
  | jl (addr20 : Word)
  /-- JGE: 48_jumps.md R286. -/
  | jge (addr20 : Word)
  /-- JG: 48_jumps.md R287. -/
  | jg (addr20 : Word)
  /-- LOAD: 49_memory_ops.md R300. -/
  | load (rd : Reg) (addr20 : Word)
  /-- STORE: 49_memory_ops.md R301. -/
  | store (rd : Reg) (addr20 : Word)
  /-- LOAD2: 49_memory_ops.md R302. -/
  | load2 (rd : Reg) (addr20 : Word)
  /-- STORE2: 49_memory_ops.md R303. -/
  | store2 (rd : Reg) (addr20 : Word)
  /-- LOADR: 49_memory_ops.md R304. -/
  | loadr (rd rs : Reg) (imm16 : Word)
  /-- STORER: 49_memory_ops.md R305. -/
  | storer (rd rs : Reg) (imm16 : Word)
  /-- LOADR2: 49_memory_ops.md R306. -/
  | loadr2 (rd rs : Reg) (imm16 : Word)
  /-- STORER2: 49_memory_ops.md R307. -/
  | storer2 (rd rs : Reg) (imm16 : Word)
  deriving DecidableEq, Repr

end Sys2Proof
end

