-- ==== Sys2Proof/WellFormed.lean ====
section
/-! DEFINITION. Which operand words an encoding can hold (30_encoding.md R95): the range of each immediate and address
field. A register operand needs no check, since every 4-bit value is a register number. -/

namespace Sys2Proof

/-- RI `imm20`: range -524288 to 524287 (R95). -/
abbrev FitsImm20 (v : Word) : Prop := -524288 ≤ v.toInt ∧ v.toInt ≤ 524287

/-- RR `imm16`: range -32768 to 32767 (R95). -/
abbrev FitsImm16 (v : Word) : Prop := -32768 ≤ v.toInt ∧ v.toInt ≤ 32767

/-- RM and Me/Im `addr20`: range 0 to 1048575 (R95). -/
abbrev FitsAddr20 (v : Word) : Prop := v.toNat ≤ 1048575

/-- The instruction's operands are words its encoding can hold. -/
def Instr.wf : Instr → Bool
  | .halt => true
  | .syscall _ imm20 => decide (FitsImm20 imm20)
  | .add _ _ imm16 => decide (FitsImm16 imm16)
  | .addi _ imm20 => decide (FitsImm20 imm20)
  | .sub _ _ imm16 => decide (FitsImm16 imm16)
  | .subi _ imm20 => decide (FitsImm20 imm20)
  | .mul _ _ imm16 => decide (FitsImm16 imm16)
  | .muli _ imm20 => decide (FitsImm20 imm20)
  | .div _ _ imm16 => decide (FitsImm16 imm16)
  | .divi _ imm20 => decide (FitsImm20 imm20)
  | .lc _ imm20 => decide (FitsImm20 imm20)
  | .shl _ _ imm16 => decide (FitsImm16 imm16)
  | .shli _ imm20 => decide (FitsImm20 imm20)
  | .shr _ _ imm16 => decide (FitsImm16 imm16)
  | .shri _ imm20 => decide (FitsImm20 imm20)
  | .and _ _ imm16 => decide (FitsImm16 imm16)
  | .andi _ imm20 => decide (FitsImm20 imm20)
  | .or _ _ imm16 => decide (FitsImm16 imm16)
  | .ori _ imm20 => decide (FitsImm20 imm20)
  | .xor _ _ imm16 => decide (FitsImm16 imm16)
  | .xori _ imm20 => decide (FitsImm20 imm20)
  | .not _ => true
  | .mov _ _ imm16 => decide (FitsImm16 imm16)
  | .addd _ _ => true
  | .subd _ _ => true
  | .muld _ _ => true
  | .divd _ _ => true
  | .itod _ _ => true
  | .dtoi _ _ => true
  | .push _ imm20 => decide (FitsImm20 imm20)
  | .pop _ imm20 => decide (FitsImm20 imm20)
  | .call _ addr20 => decide (FitsAddr20 addr20)
  | .calli addr20 => decide (FitsAddr20 addr20)
  | .ret addr20 => decide (FitsAddr20 addr20)
  | .cmp _ _ => true
  | .cmpi _ imm20 => decide (FitsImm20 imm20)
  | .jmp addr20 => decide (FitsAddr20 addr20)
  | .jne addr20 => decide (FitsAddr20 addr20)
  | .jeq addr20 => decide (FitsAddr20 addr20)
  | .jle addr20 => decide (FitsAddr20 addr20)
  | .jl addr20 => decide (FitsAddr20 addr20)
  | .jge addr20 => decide (FitsAddr20 addr20)
  | .jg addr20 => decide (FitsAddr20 addr20)
  | .load _ addr20 => decide (FitsAddr20 addr20)
  | .store _ addr20 => decide (FitsAddr20 addr20)
  | .load2 _ addr20 => decide (FitsAddr20 addr20)
  | .store2 _ addr20 => decide (FitsAddr20 addr20)
  | .loadr _ _ imm16 => decide (FitsImm16 imm16)
  | .storer _ _ imm16 => decide (FitsImm16 imm16)
  | .loadr2 _ _ imm16 => decide (FitsImm16 imm16)
  | .storer2 _ _ imm16 => decide (FitsImm16 imm16)

/-- `Instr.wf` as a proposition, for statements. -/
abbrev Instr.WellFormed (i : Instr) : Prop := i.wf = true

end Sys2Proof
end

