-- ==== Sys2Proof/Decode.lean ====
section
/-! DEFINITION. The decoder (30_encoding.md R90 to R102), total on any bytes, and after it the encoder, written from
the same tables R91 to R97. Both take `OPCODE_MAP` as an argument (00_scope.md R10, D1); `decode` and `encode` are at its
default, the table of R97 (log entry 7). -/

namespace Sys2Proof

/-- Why bytes or a word decode to no instruction. -/
inductive DecodeError where
  /-- The opcode is not in the map (R98, R100). -/
  | undefinedOpcode (opcode : Byte)
  /-- Fewer than the four bytes of one instruction word were given (R90: every instruction is one 32-bit word). -/
  | truncated (given : Nat)
  deriving DecidableEq, Repr

/-- The operand fields of a word, cut and extended as R91 to R95 say; a format uses some of them. -/
structure Fields where
  rd : Reg
  rs : Reg
  imm16 : Word
  imm20 : Word
  addr20 : Word
  deriving DecidableEq, Repr

/-- Bits 31:24 (R90). -/
def opcodeOf (w : Word) : Byte := w.extractLsb' 24 8

/-- A 4-bit field read as a register number: `d = uint(w[23:20])`, `s = uint(w[19:16])` (R95). -/
def regField (w : Word) (lo : Nat) : Reg := (w.extractLsb' lo 4).toFin

/-- The operand assembly of R95. -/
def fieldsOf (w : Word) : Fields where
  rd := regField w 20
  rs := regField w 16
  imm16 := (w.extractLsb' 0 16).signExtend 32
  imm20 := (w.extractLsb' 0 20).signExtend 32
  addr20 := (w.extractLsb' 0 20).setWidth 32

/-! `OPCODE_MAP`. -/

/-- The number of an operation. -/
def OpcodeMap.number (m : OpcodeMap) : Op → Byte
  | .halt => m.halt
  | .syscall => m.syscall
  | .add => m.add
  | .addi => m.addi
  | .sub => m.sub
  | .subi => m.subi
  | .mul => m.mul
  | .muli => m.muli
  | .div => m.div
  | .divi => m.divi
  | .lc => m.lc
  | .shl => m.shl
  | .shli => m.shli
  | .shr => m.shr
  | .shri => m.shri
  | .and => m.and
  | .andi => m.andi
  | .or => m.or
  | .ori => m.ori
  | .xor => m.xor
  | .xori => m.xori
  | .not => m.not
  | .mov => m.mov
  | .addd => m.addd
  | .subd => m.subd
  | .muld => m.muld
  | .divd => m.divd
  | .itod => m.itod
  | .dtoi => m.dtoi
  | .push => m.push
  | .pop => m.pop
  | .call => m.call
  | .calli => m.calli
  | .ret => m.ret
  | .cmp => m.cmp
  | .cmpi => m.cmpi
  | .jmp => m.jmp
  | .jne => m.jne
  | .jeq => m.jeq
  | .jle => m.jle
  | .jl => m.jl
  | .jge => m.jge
  | .jg => m.jg
  | .load => m.load
  | .store => m.store
  | .load2 => m.load2
  | .store2 => m.store2
  | .loadr => m.loadr
  | .storer => m.storer
  | .loadr2 => m.loadr2
  | .storer2 => m.storer2

/-- Every operation. -/
def Op.all : List Op :=
  [.halt, .syscall, .add, .addi, .sub, .subi, .mul, .muli, .div, .divi, .lc, .shl, .shli, .shr, .shri, .and,
  .andi, .or, .ori, .xor, .xori, .not, .mov, .addd, .subd, .muld, .divd, .itod, .dtoi, .push, .pop, .call,
  .calli, .ret, .cmp, .cmpi, .jmp, .jne, .jeq, .jle, .jl, .jge, .jg, .load, .store, .load2, .store2, .loadr,
  .storer, .loadr2, .storer2]

/-- The operation of an opcode number, where the map has one. -/
def OpcodeMap.opOf (m : OpcodeMap) (n : Byte) : Option Op := Op.all.find? (fun o => m.number o == n)

/-- No number stands for two operations, as "mnemonic ↔ 8-bit opcode number" says (00_scope.md R10). -/
abbrev OpcodeMap.wf (m : OpcodeMap) : Prop := (Op.all.map m.number).Nodup

/-- The table of R97, the default of `OPCODE_MAP`. -/
def defaultOpcodeMap : OpcodeMap where
  halt := 0x00
  syscall := 0x01
  add := 0x02
  addi := 0x03
  sub := 0x04
  subi := 0x05
  mul := 0x06
  muli := 0x07
  div := 0x08
  divi := 0x09
  lc := 0x0C
  shl := 0x0D
  shli := 0x0E
  shr := 0x0F
  shri := 0x10
  and := 0x11
  andi := 0x12
  or := 0x13
  ori := 0x14
  xor := 0x15
  xori := 0x16
  not := 0x17
  mov := 0x18
  addd := 0x20
  subd := 0x21
  muld := 0x22
  divd := 0x23
  itod := 0x24
  dtoi := 0x25
  push := 0x26
  pop := 0x27
  call := 0x28
  calli := 0x29
  ret := 0x2A
  cmp := 0x2B
  cmpi := 0x2C
  jmp := 0x2E
  jne := 0x2F
  jeq := 0x30
  jle := 0x31
  jl := 0x32
  jge := 0x33
  jg := 0x34
  load := 0x40
  store := 0x41
  load2 := 0x42
  store2 := 0x43
  loadr := 0x44
  storer := 0x45
  loadr2 := 0x46
  storer2 := 0x47

/-! The decoder. -/

/-- The instruction an operation makes of the fields, by its format (R96). -/
def Op.instr (o : Op) (f : Fields) : Instr :=
  match o with
  | .halt => .halt
  | .syscall => .syscall f.rd f.imm20
  | .add => .add f.rd f.rs f.imm16
  | .addi => .addi f.rd f.imm20
  | .sub => .sub f.rd f.rs f.imm16
  | .subi => .subi f.rd f.imm20
  | .mul => .mul f.rd f.rs f.imm16
  | .muli => .muli f.rd f.imm20
  | .div => .div f.rd f.rs f.imm16
  | .divi => .divi f.rd f.imm20
  | .lc => .lc f.rd f.imm20
  | .shl => .shl f.rd f.rs f.imm16
  | .shli => .shli f.rd f.imm20
  | .shr => .shr f.rd f.rs f.imm16
  | .shri => .shri f.rd f.imm20
  | .and => .and f.rd f.rs f.imm16
  | .andi => .andi f.rd f.imm20
  | .or => .or f.rd f.rs f.imm16
  | .ori => .ori f.rd f.imm20
  | .xor => .xor f.rd f.rs f.imm16
  | .xori => .xori f.rd f.imm20
  | .not => .not f.rd
  | .mov => .mov f.rd f.rs f.imm16
  | .addd => .addd f.rd f.rs
  | .subd => .subd f.rd f.rs
  | .muld => .muld f.rd f.rs
  | .divd => .divd f.rd f.rs
  | .itod => .itod f.rd f.rs
  | .dtoi => .dtoi f.rd f.rs
  | .push => .push f.rd f.imm20
  | .pop => .pop f.rd f.imm20
  | .call => .call f.rd f.addr20
  | .calli => .calli f.addr20
  | .ret => .ret f.addr20
  | .cmp => .cmp f.rd f.rs
  | .cmpi => .cmpi f.rd f.imm20
  | .jmp => .jmp f.addr20
  | .jne => .jne f.addr20
  | .jeq => .jeq f.addr20
  | .jle => .jle f.addr20
  | .jl => .jl f.addr20
  | .jge => .jge f.addr20
  | .jg => .jg f.addr20
  | .load => .load f.rd f.addr20
  | .store => .store f.rd f.addr20
  | .load2 => .load2 f.rd f.addr20
  | .store2 => .store2 f.rd f.addr20
  | .loadr => .loadr f.rd f.rs f.imm16
  | .storer => .storer f.rd f.rs f.imm16
  | .loadr2 => .loadr2 f.rd f.rs f.imm16
  | .storer2 => .storer2 f.rd f.rs f.imm16

/-- Decoding a word (R98): total; an opcode outside the map is rejected by name. -/
def decodeWith (m : OpcodeMap) (w : Word) : Except DecodeError Instr :=
  match m.opOf (opcodeOf w) with
  | some o => .ok (o.instr (fieldsOf w))
  | none => .error (.undefinedOpcode (opcodeOf w))

/-- Decoding under the default map. -/
def decode (w : Word) : Except DecodeError Instr := decodeWith defaultOpcodeMap w

/-- A word from its four bytes, most significant first (20_memory.md R67). -/
def wordOfBytes (b0 b1 b2 b3 : Byte) : Word := b0 ++ b1 ++ b2 ++ b3

/-- Byte `k` of a word, counting from the most significant (R67): `k = 0` is bits 31:24. -/
def byteOfWord (w : Word) (k : Nat) : Byte := w.extractLsb' (24 - 8 * k) 8

/-- A word's four bytes in the order memory holds them (R67). -/
def bytesOfWord (w : Word) : List Byte := [byteOfWord w 0, byteOfWord w 1, byteOfWord w 2, byteOfWord w 3]

/-- Decoding a byte sequence: one instruction and the bytes after it. -/
def decodeBytesWith (m : OpcodeMap) : List Byte → Except DecodeError (Instr × List Byte)
  | b0 :: b1 :: b2 :: b3 :: rest =>
    match decodeWith m (wordOfBytes b0 b1 b2 b3) with
    | .ok i => .ok (i, rest)
    | .error e => .error e
  | bytes => .error (.truncated bytes.length)

/-- The word that a table row of `nbits` bits with value `w` stands for: every bit above them is 0. -/
def tableWord (nbits w : Nat) : Word := BitVec.ofNat 32 (w % 2 ^ nbits)

/-- The host's reading of one row of the opcode table: the decoder's answer on its bytes. -/
def decodeTableWord (nbits w : Nat) : Option Instr :=
  match decodeBytesWith defaultOpcodeMap (bytesOfWord (tableWord nbits w)) with
  | .ok (i, _) => some i
  | .error _ => none

/-! The encoder. -/

/-- The operation of an instruction. -/
def Instr.op : Instr → Op
  | .halt => .halt
  | .syscall _ _ => .syscall
  | .add _ _ _ => .add
  | .addi _ _ => .addi
  | .sub _ _ _ => .sub
  | .subi _ _ => .subi
  | .mul _ _ _ => .mul
  | .muli _ _ => .muli
  | .div _ _ _ => .div
  | .divi _ _ => .divi
  | .lc _ _ => .lc
  | .shl _ _ _ => .shl
  | .shli _ _ => .shli
  | .shr _ _ _ => .shr
  | .shri _ _ => .shri
  | .and _ _ _ => .and
  | .andi _ _ => .andi
  | .or _ _ _ => .or
  | .ori _ _ => .ori
  | .xor _ _ _ => .xor
  | .xori _ _ => .xori
  | .not _ => .not
  | .mov _ _ _ => .mov
  | .addd _ _ => .addd
  | .subd _ _ => .subd
  | .muld _ _ => .muld
  | .divd _ _ => .divd
  | .itod _ _ => .itod
  | .dtoi _ _ => .dtoi
  | .push _ _ => .push
  | .pop _ _ => .pop
  | .call _ _ => .call
  | .calli _ => .calli
  | .ret _ => .ret
  | .cmp _ _ => .cmp
  | .cmpi _ _ => .cmpi
  | .jmp _ => .jmp
  | .jne _ => .jne
  | .jeq _ => .jeq
  | .jle _ => .jle
  | .jl _ => .jl
  | .jge _ => .jge
  | .jg _ => .jg
  | .load _ _ => .load
  | .store _ _ => .store
  | .load2 _ _ => .load2
  | .store2 _ _ => .store2
  | .loadr _ _ _ => .loadr
  | .storer _ _ _ => .storer
  | .loadr2 _ _ _ => .loadr2
  | .storer2 _ _ _ => .storer2

/-- Format RI (R91): opcode, register, 20 bits. RM (R93) has the same places. -/
def packRI (op : Byte) (rd : Reg) (imm : Word) : Word :=
  op ++ BitVec.ofNat 4 rd.val ++ imm.extractLsb' 0 20

/-- Format RR (R92): opcode, register, register, 16 bits. -/
def packRR (op : Byte) (rd rs : Reg) (imm : Word) : Word :=
  op ++ BitVec.ofNat 4 rd.val ++ BitVec.ofNat 4 rs.val ++ imm.extractLsb' 0 16

/-- Format Me/Im (R94): opcode, four zero bits, 20 bits. -/
def packMe (op : Byte) (addr : Word) : Word :=
  op ++ (0 : BitVec 4) ++ addr.extractLsb' 0 20

/-- The word of an instruction; a field it does not use is written 0 (R94, R99). -/
def encodeWith (m : OpcodeMap) (i : Instr) : Word :=
  match i with
  | .halt => packRI (m.number i.op) 0 0
  | .syscall rd imm => packRI (m.number i.op) rd imm
  | .add rd rs imm => packRR (m.number i.op) rd rs imm
  | .addi rd imm => packRI (m.number i.op) rd imm
  | .sub rd rs imm => packRR (m.number i.op) rd rs imm
  | .subi rd imm => packRI (m.number i.op) rd imm
  | .mul rd rs imm => packRR (m.number i.op) rd rs imm
  | .muli rd imm => packRI (m.number i.op) rd imm
  | .div rd rs imm => packRR (m.number i.op) rd rs imm
  | .divi rd imm => packRI (m.number i.op) rd imm
  | .lc rd imm => packRI (m.number i.op) rd imm
  | .shl rd rs imm => packRR (m.number i.op) rd rs imm
  | .shli rd imm => packRI (m.number i.op) rd imm
  | .shr rd rs imm => packRR (m.number i.op) rd rs imm
  | .shri rd imm => packRI (m.number i.op) rd imm
  | .and rd rs imm => packRR (m.number i.op) rd rs imm
  | .andi rd imm => packRI (m.number i.op) rd imm
  | .or rd rs imm => packRR (m.number i.op) rd rs imm
  | .ori rd imm => packRI (m.number i.op) rd imm
  | .xor rd rs imm => packRR (m.number i.op) rd rs imm
  | .xori rd imm => packRI (m.number i.op) rd imm
  | .not rd => packRI (m.number i.op) rd 0
  | .mov rd rs imm => packRR (m.number i.op) rd rs imm
  | .addd rd rs => packRR (m.number i.op) rd rs 0
  | .subd rd rs => packRR (m.number i.op) rd rs 0
  | .muld rd rs => packRR (m.number i.op) rd rs 0
  | .divd rd rs => packRR (m.number i.op) rd rs 0
  | .itod rd rs => packRR (m.number i.op) rd rs 0
  | .dtoi rd rs => packRR (m.number i.op) rd rs 0
  | .push rd imm => packRI (m.number i.op) rd imm
  | .pop rd imm => packRI (m.number i.op) rd imm
  | .call rd addr => packRI (m.number i.op) rd addr
  | .calli addr => packMe (m.number i.op) addr
  | .ret addr => packMe (m.number i.op) addr
  | .cmp rd rs => packRR (m.number i.op) rd rs 0
  | .cmpi rd imm => packRI (m.number i.op) rd imm
  | .jmp addr => packMe (m.number i.op) addr
  | .jne addr => packMe (m.number i.op) addr
  | .jeq addr => packMe (m.number i.op) addr
  | .jle addr => packMe (m.number i.op) addr
  | .jl addr => packMe (m.number i.op) addr
  | .jge addr => packMe (m.number i.op) addr
  | .jg addr => packMe (m.number i.op) addr
  | .load rd addr => packRI (m.number i.op) rd addr
  | .store rd addr => packRI (m.number i.op) rd addr
  | .load2 rd addr => packRI (m.number i.op) rd addr
  | .store2 rd addr => packRI (m.number i.op) rd addr
  | .loadr rd rs imm => packRR (m.number i.op) rd rs imm
  | .storer rd rs imm => packRR (m.number i.op) rd rs imm
  | .loadr2 rd rs imm => packRR (m.number i.op) rd rs imm
  | .storer2 rd rs imm => packRR (m.number i.op) rd rs imm

/-- The word under the default map. -/
def encode (i : Instr) : Word := encodeWith defaultOpcodeMap i

end Sys2Proof
end

