-- ==== Sys2Proof/Machine/Defaults.lean ====
section
/-! DEFINITION. The default values of the open parameters, as 00_scope.md R10 lists them. -/

namespace Sys2Proof.Machine

/-- R10's defaults: `OPCODE_MAP` the table of R97 (D1), `SHR_KIND` arithmetic (D7), `DIV_DIVIDEND` sext_or (D9), `JL_MODE` reference_noop (D15),
`DIV_IMM16` ignored (D33), `ADDRESSING_MODE` modular (D22). -/
def defaultParams : Params where
  opcodeMap := defaultOpcodeMap
  shrKind := .arithmetic
  divDividend := .sextOr
  jlMode := .referenceNoop
  divImm16 := .ignored
  addressing := .modular

end Sys2Proof.Machine
end

