-- ==== Sys2Proof/Machine/State.lean ====
section
/-! DEFINITION. The machine's state as plain data, the outcomes of a step, the reasons a step can stop, and the state
after reset (10_state.md R30, R31, R47; 60_exceptions.md R333 to R335; 70_reset_and_hazards.md R370). -/

namespace Sys2Proof.Machine

/-- The operation exceptions (60_exceptions.md R334). -/
inductive OpException where
  /-- "pair spills past register 15". -/
  | invalidReg
  /-- "reserved for bounds-checked addressing mode": nothing raises it under the modular mode (R334). -/
  | invalidMem
  /-- Divisor 0, or a quotient outside the signed 32-bit range (41_integer_arith.md R158). -/
  | divByZero
  /-- A DTOI operand whose magnitude exceeds INT32_MAX (44_float.md R229). -/
  | regOverflow
  deriving DecidableEq, Repr

/-- What an engine fault records: the exception's name and the address and word of the faulting instruction (R335). -/
structure FaultRecord where
  exception : OpException
  address : Word
  word : Word
  deriving DecidableEq, Repr

/-- The outcome of the last step (R333, R335), or that the step is held in a blocking read (00_scope.md R8). -/
inductive StepResult where
  /-- `Continue`. -/
  | continued
  /-- A blocking read waits for input: the step is not complete (R8, R343). -/
  | held
  /-- `Terminate`: HALT and SYSCALL 0. -/
  | terminate
  /-- `Warning`: SYSCALL with an unknown code. -/
  | warning
  /-- `Error`: an undefined opcode. -/
  | error
  /-- The engine fault of an arithmetic condition. -/
  | machineFault (r : FaultRecord)
  /-- The engine fault of a structural condition. -/
  | invalidStateFault (r : FaultRecord)
  deriving DecidableEq, Repr

/-- What SYSCALL appended to the output stream: the value passed, not its text (R343). -/
inductive HostOutput where
  /-- Code 102: the signed value of the register. -/
  | printInt (value : Int)
  /-- Code 103: the 64-bit binary64 pattern of the pair. -/
  | printDouble (bits : DWord)
  /-- Code 105: the low byte of the register. -/
  | putChar (byte : Byte)
  deriving DecidableEq, Repr

/-- Memory as bytes at byte addresses: word `i` is bytes `4i` to `4i+3` (20_memory.md R67). Addresses rise strictly and
no entry is 0, which is what an unlisted byte reads as (R47); `Memory.wf` in Ops.lean says so. -/
abbrev Memory := List Host.Cell

/-- Why a step does not answer a next state. -/
inductive Fault where
  /-- Raised by `step` alone, of a state whose run has ended (R340: the run loop stops at the first outcome other than
  Continue; R339: no resumption): there is no further step. Safe. -/
  | runEnded (result : StepResult)
  deriving DecidableEq, Repr

/-- What the model refuses. -/
inductive Refusal where
  /-- An instruction with no meaning yet, by its mnemonic; no arm of `exec` says it. Safe. -/
  | notModelled (mnemonic : String)
  /-- Raised by `step` alone: the machine is configured with the bounds-checked addressing mode, which the spec asks a
  model to refuse (20_memory.md R77, D22). Safe. -/
  | checkedAddressing
  deriving DecidableEq, Repr

/-- The spec's `State` (10_state.md R30, R31): "exactly three components". -/
structure CoreState where
  /-- r0 to r15; r14 is SP and r15 is IP (10_state.md R32 to R35). -/
  regs : Vector Word 16
  /-- Bit 0 EQUALITY, bit 1 MAJORITY, bits 7:2 unnamed (R42, R44). -/
  flags : Byte
  /-- The 2^20 words of memory (R30), as bytes. -/
  mem : Memory
  deriving DecidableEq, Repr

/-- The host's input and output streams: "not part of `State`; they are parameters of `step`" (R31, R49). -/
structure HostStreams where
  /-- What HostReadInt will return, in order; empty while nothing has arrived (60_exceptions.md R343). -/
  inInts : List Word
  /-- What HostReadDouble will return, in order. -/
  inDoubles : List DWord
  /-- What HostGetChar will return, in order. -/
  inChars : List Word
  /-- The output stream written so far, oldest first. -/
  output : List HostOutput
  deriving DecidableEq, Repr

/-- What the host's one-argument `step` runs on: the spec's `State`, and beside it, apart, the parameters of the spec's
`step(state, input, output)` and its answer (60_exceptions.md R330). `coreStep` of Step.lean has that signature. -/
structure State extends CoreState, HostStreams where
  /-- The outcome of the last step (log entry 2). -/
  result : StepResult
  /-- The model's own: which free value the next draw takes (log entry 8). -/
  draws : Nat
  /-- The parameters the machine is built with (log entry 5). -/
  cfg : Params
  deriving DecidableEq, Repr

/-- The three outcomes a meaning or a step answers. -/
abbrev Result := Host.Outcome State Fault Refusal

/-- "State is constructed zero-filled" (R47, R370). -/
def CoreState.zero : CoreState where
  regs := Vector.replicate 16 0
  flags := 0
  mem := []

/-- Streams on which nothing has been supplied or written. -/
def HostStreams.empty : HostStreams where
  inInts := []
  inDoubles := []
  inChars := []
  output := []

/-- The zero-filled machine with the given parameters; the streams, the outcome and the draw counter are the model's own
(log entries 2, 3, 8). -/
def State.construct (cfg : Params) : State where
  toCoreState := .zero
  toHostStreams := .empty
  result := .continued
  draws := 0
  cfg := cfg

/-- The machine right after construction at the defaults of R10 (log entry 5). -/
def State.reset : State := .construct defaultParams

end Sys2Proof.Machine
end

