-- ==== Sys2Proof/Machine/Ops.lean ====
section
/-! DEFINITION. The named operations over memory, registers, pairs and the step's outcome, taking an exception among
them (00_scope.md R13, R14; 20_memory.md R60 to R68; 60_exceptions.md R332 to R340). -/

namespace Sys2Proof.Machine

/-! Memory. -/

/-- What a byte that is not listed reads as: "every memory word is 0" after construction (10_state.md R47). -/
def Memory.unlisted : Byte := 0

/-- The byte at a byte address. -/
def Memory.readByte : Memory → Nat → Byte
  | [], _ => Memory.unlisted
  | (k, b) :: rest, a => if k = a then b else Memory.readByte rest a

/-- Put a cell before the first one with a higher address. -/
def Memory.insertCell (c : Host.Cell) : Memory → Memory
  | [] => [c]
  | k :: rest => if c.1 < k.1 then c :: k :: rest else k :: Memory.insertCell c rest

/-- Store a byte, keeping the canonical form. -/
def Memory.writeByte (m : Memory) (a : Nat) (b : Byte) : Memory :=
  let others := m.filter (fun c => decide (c.1 ≠ a))
  if b = Memory.unlisted then others else Memory.insertCell (a, b) others

/-- The canonical form: addresses strictly rising and inside the memory, no entry equal to what an unlisted byte reads
as. -/
abbrev Memory.wf (m : Memory) : Prop :=
  m.Pairwise (fun c d => c.1 < d.1) ∧ ∀ c ∈ m, c.2 ≠ Memory.unlisted ∧ c.1 < Config.memBytes

/-- Word `i` is bytes `4i` to `4i+3`, most significant first (20_memory.md R67). -/
def Memory.readWord (m : Memory) (i : Nat) : Word :=
  wordOfBytes (Memory.readByte m (4 * i)) (Memory.readByte m (4 * i + 1)) (Memory.readByte m (4 * i + 2))
    (Memory.readByte m (4 * i + 3))

/-- Store word `i` as its four bytes (R67). -/
def Memory.writeWord (m : Memory) (i : Nat) (v : Word) : Memory :=
  let m := Memory.writeByte m (4 * i) (byteOfWord v 0)
  let m := Memory.writeByte m (4 * i + 1) (byteOfWord v 1)
  let m := Memory.writeByte m (4 * i + 2) (byteOfWord v 2)
  Memory.writeByte m (4 * i + 3) (byteOfWord v 3)

/-- Address reduction (R62): a 32-bit address selects word `uint(a[19:0])`. -/
def wordIndex (a : Word) : Nat := (a.extractLsb' 0 20).toNat

/-- `MemRead(a, 1)` (R63). -/
def State.memRead (st : State) (a : Word) : Word := Memory.readWord st.mem (wordIndex a)

/-- `MemWrite(a, 1, v)` (R63). -/
def State.memWrite (st : State) (a v : Word) : State := { st with mem := Memory.writeWord st.mem (wordIndex a) v }

/-! Registers. -/

/-- `SP_INDEX` (00_scope.md R9). -/
def spIndex : Reg := 14

/-- `IP_INDEX` (R9). -/
def ipIndex : Reg := 15

/-- `x[i]` (R13). -/
def State.reg (st : State) (r : Reg) : Word := st.regs[r.val]

/-- `x[i] <- v` (R13); no register is hardwired (10_state.md R33). -/
def State.setReg (st : State) (r : Reg) (v : Word) : State := { st with regs := st.regs.set r.val v }

/-- `sp` (R13). -/
def State.sp (st : State) : Word := st.reg spIndex

/-- `ip` (R13). -/
def State.ip (st : State) : Word := st.reg ipIndex

def State.setSp (st : State) (v : Word) : State := st.setReg spIndex v

def State.setIp (st : State) (v : Word) : State := st.setReg ipIndex v

/-! Pairs. -/

/-- The second register of pair `r`, when the pair is valid: `R + 1 < 16` (10_state.md R37). -/
def pairHigh (r : Reg) : Option Reg := if h : r.val + 1 < 16 then some ⟨r.val + 1, h⟩ else none

/-- `pair(i)`: the first register in the low half, the second in the high half (R13, R37). -/
def State.pair (st : State) (lo hi : Reg) : DWord := st.reg hi ++ st.reg lo

/-- `pair(i) <- v` (R13). -/
def State.setPair (st : State) (lo hi : Reg) (v : DWord) : State :=
  (st.setReg lo (v.extractLsb' 0 32)).setReg hi (v.extractLsb' 32 32)

/-! Outcomes. -/

/-- `stop Terminate`, `stop Warning`, `stop Error` (00_scope.md R14). -/
def State.stop (st : State) (r : StepResult) : State := { st with result := r }

/-- Which engine fault an operation exception becomes (60_exceptions.md R334, R335). -/
def engineFault (e : OpException) (r : FaultRecord) : StepResult :=
  match e with
  | .invalidReg => .invalidStateFault r
  | .invalidMem => .invalidStateFault r
  | .divByZero => .machineFault r
  | .regOverflow => .machineFault r

/-- TAKING AN EXCEPTION (R335, R338): the instruction writes nothing; the engine fault records the exception's name and
the address and word of the instruction, which stands at IP. There is no handler, no saved register and no return. -/
def State.raise (st : State) (e : OpException) : State :=
  st.stop (engineFault e { exception := e, address := st.ip, word := st.memRead st.ip })

/-- `requirePair(i)` (R14): InvalidReg for an invalid pair, else go on with its second register. -/
def State.withPair (st : State) (r : Reg) (k : Reg → State) : State :=
  match pairHigh r with
  | some hi => k hi
  | none => st.raise .invalidReg

/-- A blocking read with no input: the step is held and nothing else changes (00_scope.md R8, log entry 4). -/
def State.hold (st : State) : State := st.stop .held

/-- Take a free value: advance the counter that numbers the draws (log entry 8). -/
def State.nextDraw (st : State) : State := { st with draws := st.draws + 1 }

/-! Host streams (60_exceptions.md R343). -/

/-- Append an event to the output stream. -/
def State.emit (st : State) (e : HostOutput) : State := { st with output := st.output ++ [e] }

/-- HostReadInt into a continuation; held while nothing has arrived. -/
def State.readInt (st : State) (k : Word → State → State) : State :=
  match st.inInts with
  | [] => st.hold
  | w :: rest => k w { st with inInts := rest }

/-- HostReadDouble. -/
def State.readDouble (st : State) (k : DWord → State → State) : State :=
  match st.inDoubles with
  | [] => st.hold
  | v :: rest => k v { st with inDoubles := rest }

/-- HostGetChar. -/
def State.getChar (st : State) (k : Word → State → State) : State :=
  match st.inChars with
  | [] => st.hold
  | w :: rest => k w { st with inChars := rest }

end Sys2Proof.Machine
end

