-- ==== Sys2Proof/Machine/Cycle.lean ====
section
/-! DEFINITION. What a step does around its instruction: the fetch, the outcome it starts from, the undefined opcode and
the step tail (60_exceptions.md R331, R332, R336). -/

namespace Sys2Proof.Machine

/-- Whether the run has ended with this outcome (R340: the run loop stops at the first outcome other than Continue).
A held step is not complete, so the run has not ended (R8, R341). -/
def StepResult.ended : StepResult → Bool
  | .continued => false
  | .held => false
  | .terminate => true
  | .warning => true
  | .error => true
  | .machineFault _ => true
  | .invalidStateFault _ => true

/-- "read the word at `registers[IP]`" (R331; 20_memory.md R66). -/
def State.fetch (st : State) : Word := st.memRead st.ip

/-- A step starts with the outcome Continue: "An instruction that does neither ends with `Continue`" (00_scope.md R14).
A held read starts over. -/
def State.begin (st : State) : State := st.stop .continued

/-- An undefined opcode ends the step with `Error` and changes nothing (R336). -/
def State.undefinedOpcode (st : State) : State := st.stop .error

/-- The step tail, `ip <- ip + 1` on every result (R332, D16). A step held in a read has no result yet and no tail. -/
def State.tail (st : State) : State :=
  match st.result with
  | .held => st
  | _ => st.setIp (st.ip + 1)

end Sys2Proof.Machine
end

