-- ==== Sys2Proof/Machine/Operands.lean ====
section
/-! DEFINITION. The operand forms: the right-hand operand of the register forms, addresses, the shift count, the
dividend and the divisor, and the write-back shapes the families share (41_integer_arith.md, 43_shift_logic.md,
44_float.md, 49_memory_ops.md). -/

namespace Sys2Proof.Machine

/-- "register forms combine `Rs+imm16` as the right-hand operand" (43_shift_logic.md R190), 32-bit wrap. -/
def State.rsPlus (st : State) (rs : Reg) (imm16 : Word) : Word := st.reg rs + imm16

/-- Register plus offset addressing, "use `Rs+imm16` as the address" (49_memory_ops.md R298). -/
def State.addrOf (st : State) (rs : Reg) (imm16 : Word) : Word := st.reg rs + imm16

/-- `x[d] <- f(x[d], b)`: the shape of the two-operand instructions. -/
def State.update (st : State) (rd : Reg) (f : Word → Word → Word) (b : Word) : State :=
  st.setReg rd (f (st.reg rd) b)

/-! Products and quotients. -/

/-- The exact signed product of R154 as its 64-bit pattern. -/
def product (a b : Word) : DWord := BitVec.ofInt 64 (a.toInt * b.toInt)

/-- MUL and MULI (R155, R156): the pair check, then the product of `x[d]` and `b` into the pair. -/
def State.multiply (st : State) (rd : Reg) (b : Word) : State :=
  st.withPair rd fun hi => st.setPair rd hi (product (st.reg rd) b)

/-- Dividend formation (R157) under `DIV_DIVIDEND`. -/
def dividend (kind : DivDividend) (lo hi : Word) : DWord :=
  match kind with
  | .sextOr => lo.signExtend 64 ||| (hi ++ (0 : Word))
  | .concat => hi ++ lo

/-- DIV's divisor (R159) under `DIV_IMM16`. -/
def State.divisor (st : State) (rs : Reg) (imm16 : Word) : Word :=
  match st.cfg.divImm16 with
  | .ignored => st.reg rs
  | .added => st.reg rs + imm16

/-- Whether a quotient fits the signed 32-bit range (R158). -/
abbrev FitsInt32 (q : Int) : Prop := -2147483648 ≤ q ∧ q ≤ 2147483647

/-- The division law (R158): quotient toward zero into `x[d]`, remainder with the dividend's sign into `x[d+1]`. -/
def State.divLaw (st : State) (rd hi : Reg) (v : Word) : State :=
  let n : Int := (dividend st.cfg.divDividend (st.reg rd) (st.reg hi)).toInt
  if v = 0 then st.raise .divByZero
  else if FitsInt32 (n.tdiv v.toInt) then
    (st.setReg rd (BitVec.ofInt 32 (n.tdiv v.toInt))).setReg hi (BitVec.ofInt 32 (n.tmod v.toInt))
  else st.raise .divByZero

/-- DIV and DIVI (R159, R160): the pair check, then the division law with divisor `v`. -/
def State.divide (st : State) (rd : Reg) (v : Word) : State :=
  st.withPair rd fun hi => st.divLaw rd hi v

/-! Shifts. -/

/-- The counts a shift is defined for: `0 ≤ sint(c) ≤ 31` (43_shift_logic.md R191). -/
abbrev ShiftInRange (c : Word) : Prop := 0 ≤ c.toInt ∧ c.toInt ≤ 31

/-- `(x << uint(c))[31:0]` (R192). -/
def shiftLeftWord (x c : Word) : Word := x <<< c.toNat

/-- The right shift of R194 under `SHR_KIND`. -/
def shiftRightWord (kind : ShrKind) (x c : Word) : Word :=
  match kind with
  | .arithmetic => x.sshiftRight c.toNat
  | .logical => x >>> c.toNat

/-- `x[d] <- f(x[d], c)` for a count in range, else a draw (R191). -/
def State.shift (st : State) (op : ShiftOp) (rd : Reg) (f : Word → Word → Word) (c : Word) : State :=
  if ShiftInRange c then st.setReg rd (f (st.reg rd) c)
  else st.nextDraw.setReg rd (Config.shiftOob st.draws op (st.reg rd) c)

/-! Pair moves. -/

/-- LOAD2 and LOADR2 (49_memory_ops.md R302, R306): the pair check, then words `a` and `a + 1` into the pair. -/
def State.loadPair (st : State) (rd : Reg) (a : Word) : State :=
  st.withPair rd fun hi => (st.setReg rd (st.memRead a)).setReg hi (st.memRead (a + 1))

/-- STORE2 and STORER2 (R303, R307): the pair check, then the pair to words `a` and `a + 1`. -/
def State.storePair (st : State) (rd : Reg) (a : Word) : State :=
  st.withPair rd fun hi => (st.memWrite a (st.reg rd)).memWrite (a + 1) (st.reg hi)

/-! Stack steps. -/

/-- The push of PUSH, CALL and CALLI: decrement SP, then store what `f` gives of the state so far (46_stack.md R260,
47_calls.md R271). -/
def State.push (st : State) (f : State → Word) : State :=
  let st1 := st.setSp (st.sp - 1)
  st1.memWrite st1.sp (f st1)

end Sys2Proof.Machine
end

