-- ==== Sys2Proof/Machine/Arith.lean ====
section
/-! DEFINITION. Integer arithmetic (41_integer_arith.md): no flag is read or written, arithmetic wraps modulo 2^32 (R148). -/

namespace Sys2Proof.Machine

/-- R150: `x[d] <- x[d] + (x[s] + imm16)`. -/
def execAdd (rd rs : Reg) (imm16 : Word) (st : State) : Result :=
  .next (st.update rd (· + ·) (st.rsPlus rs imm16))

/-- R151: `x[d] <- x[d] + imm20`. -/
def execAddi (rd : Reg) (imm20 : Word) (st : State) : Result :=
  .next (st.update rd (· + ·) imm20)

/-- R152: `x[d] <- x[d] - (x[s] + imm16)`. -/
def execSub (rd rs : Reg) (imm16 : Word) (st : State) : Result :=
  .next (st.update rd (· - ·) (st.rsPlus rs imm16))

/-- R153: `x[d] <- x[d] - imm20`. -/
def execSubi (rd : Reg) (imm20 : Word) (st : State) : Result :=
  .next (st.update rd (· - ·) imm20)

/-- R155: the product of `x[d]` and `x[s] + imm16`. -/
def execMul (rd rs : Reg) (imm16 : Word) (st : State) : Result :=
  .next (st.multiply rd (st.rsPlus rs imm16))

/-- R156: the product of `x[d]` and `imm20`. -/
def execMuli (rd : Reg) (imm20 : Word) (st : State) : Result :=
  .next (st.multiply rd imm20)

/-- R159: the division law with DIV's divisor. -/
def execDiv (rd rs : Reg) (imm16 : Word) (st : State) : Result :=
  .next (st.divide rd (st.divisor rs imm16))

/-- R160: the division law with divisor `imm20`. -/
def execDivi (rd : Reg) (imm20 : Word) (st : State) : Result :=
  .next (st.divide rd imm20)

end Sys2Proof.Machine
end

