-- ==== Sys2Proof/Machine/Flags.lean ====
section
/-! DEFINITION. The flags byte: its two named bits, the compare law that writes them and the jump conditions that read
them (10_state.md R42 to R44; 45_compare.md R250; 48_jumps.md R280 to R288). -/

namespace Sys2Proof.Machine

/-- `EQ = flags[0]` (00_scope.md R13). -/
def equality (flags : Byte) : Bool := flags.getLsbD 0

/-- `MAJ = flags[1]` (R13). -/
def majority (flags : Byte) : Bool := flags.getLsbD 1

/-- The compare law (45_compare.md R250): bits 0 and 1 written, bits 7:2 unchanged. -/
def compareFlags (flags : Byte) (a b : Word) : Byte :=
  flags.extractLsb' 2 6 ++ BitVec.ofBool (decide (a.toInt < b.toInt)) ++ BitVec.ofBool (decide (a.toInt = b.toInt))

/-- CMP and CMPI: compare `x[d]` with `b`; only the flags change (R250). -/
def State.compare (st : State) (rd : Reg) (b : Word) : State :=
  { st with flags := compareFlags st.flags (st.reg rd) b }

/-- The condition of JL (48_jumps.md R285) under `JL_MODE`; the reference writes `MAJORITY && !MAJORITY`. -/
def jlCondition (mode : JlMode) (flags : Byte) : Bool :=
  match mode with
  | .referenceNoop => majority flags && !majority flags
  | .intended => majority flags && !equality flags

/-- The jump law (R280): `if cond then ip <- addr20 - 1`. -/
def State.jumpIf (st : State) (cond : Bool) (addr20 : Word) : State :=
  match cond with
  | true => st.setIp (addr20 - 1)
  | false => st

end Sys2Proof.Machine
end

