-- ==== Sys2Proof/Machine/Compare.lean ====
section
/-! DEFINITION. Comparison (45_compare.md): the only writers of the flags (10_state.md R43). -/

namespace Sys2Proof.Machine

/-- R251: `a = x[d]`, `b = x[s]`; `imm16` is unused (D28). -/
def execCmp (rd rs : Reg) (st : State) : Result :=
  .next (st.compare rd (st.reg rs))

/-- R252: `a = x[d]`, `b = imm20`. -/
def execCmpi (rd : Reg) (imm20 : Word) (st : State) : Result :=
  .next (st.compare rd imm20)

end Sys2Proof.Machine
end

