-- ==== Sys2Proof/Machine/Float.lean ====
section
/-! DEFINITION. IEEE-754 binary64 on bit patterns (44_float.md R220 to R223, D12). A finite double is a sign and a
magnitude counted in units of 2^-1074, the smallest positive double, so that every magnitude is a natural number. An
operation computes its exact result as a fraction of naturals and rounds it once. -/

namespace Sys2Proof.Machine

/-! Fields (R220). -/

/-- Bit 63. -/
def Fp.sign (a : DWord) : Bool := a.msb

/-- Bits 62:52, the biased exponent. -/
def Fp.expField (a : DWord) : Nat := (a.extractLsb' 52 11).toNat

/-- Bits 51:0. -/
def Fp.fracField (a : DWord) : Nat := (a.extractLsb' 0 52).toNat

/-- "exponent all ones, fraction non-zero" (R223). -/
def Fp.isNaN (a : DWord) : Bool := Fp.expField a == 2047 && Fp.fracField a != 0

def Fp.isInf (a : DWord) : Bool := Fp.expField a == 2047 && Fp.fracField a == 0

/-! Values. -/

/-- 1.0 in units of 2^-1074; irreducible, so that no tactic computes it unasked. -/
@[irreducible] def Fp.one : Nat := 2 ^ 1074

/-- The magnitude that exponent and fraction bits (bits 62:0 as a number) stand for, in units of 2^-1074: a subnormal
has exponent field 0 and no hidden bit. -/
def Fp.magOfBits (bits : Nat) : Nat :=
  if bits / 2 ^ 52 = 0 then bits else (2 ^ 52 + bits % 2 ^ 52) * 2 ^ (bits / 2 ^ 52 - 1)

/-- The magnitude of a finite double, in units of 2^-1074. -/
def Fp.mag (a : DWord) : Nat := Fp.magOfBits (a.extractLsb' 0 63).toNat

/-- A zero of either sign. -/
def Fp.isZero (a : DWord) : Bool := Fp.mag a == 0

/-- The value of a finite double, in units of 2^-1074. -/
def Fp.value (a : DWord) : Int := if Fp.sign a then -(Fp.mag a : Int) else Fp.mag a

/-! Rounding (R222: to nearest, ties to even, gradual underflow). -/

/-- Bits 62:0 of an infinity. -/
def Fp.infBits : Nat := 2047 * 2 ^ 52

/-- The natural number nearest to `n / d`, the even one of two equally near. -/
def Fp.roundEven (n d : Nat) : Nat :=
  if 2 * (n % d) < d then n / d
  else if d < 2 * (n % d) then n / d + 1
  else if (n / d) % 2 = 0 then n / d else n / d + 1

/-- How many low bits the significand of `n / d` drops: it keeps 53, and fewer only below 2^52 units, where the unit is
the spacing. -/
def Fp.dropped (n d : Nat) : Nat := Nat.log2 (n / d) - 52

/-- Bits 62:0 of the double nearest to `n / d` units. A significand that rounds up to 2^53 carries into the exponent,
and a result past the largest finite double is an infinity. -/
def Fp.roundBits (n d : Nat) : Nat :=
  min (Fp.dropped n d * 2 ^ 52 + Fp.roundEven n (d * 2 ^ Fp.dropped n d)) Fp.infBits

/-- A double from its sign and its bits 62:0. -/
def Fp.pack (sign : Bool) (bits : Nat) : DWord := BitVec.ofBool sign ++ BitVec.ofNat 63 bits

/-- The double nearest to `± n / d` units. -/
def Fp.round (sign : Bool) (n d : Nat) : DWord := Fp.pack sign (Fp.roundBits n d)

/-! Operations: `none` where the IEEE-754 result is a NaN (R223). -/

/-- The sum: an exact zero is +0 unless both operands are negative. -/
def Fp.add (a b : DWord) : Option DWord :=
  if Fp.isNaN a || Fp.isNaN b then none
  else if Fp.isInf a then if Fp.isInf b && Fp.sign a != Fp.sign b then none else some a
  else if Fp.isInf b then some b
  else
    let v := Fp.value a + Fp.value b
    if v = 0 then some (Fp.pack (Fp.sign a && Fp.sign b) 0)
    else some (Fp.round (decide (v < 0)) v.natAbs 1)

/-- The same double with the other sign. -/
def Fp.neg (a : DWord) : DWord := a ^^^ (1 <<< 63)

/-- The difference, left minus right (R225). -/
def Fp.sub (a b : DWord) : Option DWord := Fp.add a (Fp.neg b)

/-- The product; its sign is the exclusive or of the signs. -/
def Fp.mul (a b : DWord) : Option DWord :=
  let s := Fp.sign a != Fp.sign b
  if Fp.isNaN a || Fp.isNaN b then none
  else if Fp.isInf a || Fp.isInf b then
    if Fp.isZero a || Fp.isZero b then none else some (Fp.pack s Fp.infBits)
  else some (Fp.round s (Fp.mag a * Fp.mag b) Fp.one)

/-- The quotient, left divided by right (R227); a finite value over a zero is an infinity. -/
def Fp.div (a b : DWord) : Option DWord :=
  let s := Fp.sign a != Fp.sign b
  if Fp.isNaN a || Fp.isNaN b then none
  else if Fp.isInf a then if Fp.isInf b then none else some (Fp.pack s Fp.infBits)
  else if Fp.isInf b then some (Fp.pack s 0)
  else if Fp.isZero b then if Fp.isZero a then none else some (Fp.pack s Fp.infBits)
  else some (Fp.round s (Fp.mag a * Fp.one) (Fp.mag b))

/-- ADDD, SUBD, MULD, DIVD (R222). -/
def Fp.eval (op : FpOp) (a b : DWord) : Option DWord :=
  match op with
  | .addd => Fp.add a b
  | .subd => Fp.sub a b
  | .muld => Fp.mul a b
  | .divd => Fp.div a b

/-- A NaN pattern made of any 64 bits, every NaN pattern being made of itself: the draw of R223 takes any NaN. -/
def Fp.asNaN (raw : DWord) : DWord := if Fp.isNaN raw then raw else raw ||| 0x7FF8000000000000

/-- `binary64(v)` of an integer (R228). -/
def Fp.ofInt (v : Int) : DWord := Fp.round (decide (v < 0)) (v.natAbs * Fp.one) 1

/-- What DTOI makes of a double (R229). -/
inductive DtoiResult where
  /-- A NaN: a draw. -/
  | nan
  /-- A magnitude above 2147483647, an infinity included. -/
  | overflow
  /-- Truncation toward zero. -/
  | value (v : Int)
  deriving DecidableEq, Repr

/-- DTOI's case split (R229). -/
def Fp.toInt32 (a : DWord) : DtoiResult :=
  if Fp.isNaN a then .nan
  else if Fp.isInf a || decide (2147483647 * Fp.one < Fp.mag a) then .overflow
  else .value ((Fp.value a).tdiv Fp.one)

/-- ADDD, SUBD, MULD, DIVD (R224 to R227): both pair checks, then the operation into pair `d`. -/
def State.fpBinary (st : State) (op : FpOp) (rd rs : Reg) : State :=
  st.withPair rd fun dhi => st.withPair rs fun shi =>
    match Fp.eval op (st.pair rd dhi) (st.pair rs shi) with
    | some r => st.setPair rd dhi r
    | none =>
      st.nextDraw.setPair rd dhi (Fp.asNaN (Config.fpNan st.draws op (st.pair rd dhi) (st.pair rs shi)))

/-- ITOD (R228). -/
def State.intToDouble (st : State) (rd rs : Reg) : State :=
  st.withPair rd fun hi => st.setPair rd hi (Fp.ofInt (st.reg rs).toInt)

/-- DTOI (R229). -/
def State.doubleToInt (st : State) (rd rs : Reg) : State :=
  st.withPair rs fun hi =>
    match Fp.toInt32 (st.pair rs hi) with
    | .nan => st.nextDraw.setReg rd (Config.dtoiNan st.draws (st.pair rs hi))
    | .overflow => st.raise .regOverflow
    | .value v => st.setReg rd (BitVec.ofInt 32 v)

end Sys2Proof.Machine
end

