-- ==== Sys2Proof/Machine/FloatOps.lean ====
section
/-! DEFINITION. Floating point (44_float.md); `imm16` is unused (D28). -/

namespace Sys2Proof.Machine

/-- R224. -/
def execAddd (rd rs : Reg) (st : State) : Result :=
  .next (st.fpBinary .addd rd rs)

/-- R225: left minus right. -/
def execSubd (rd rs : Reg) (st : State) : Result :=
  .next (st.fpBinary .subd rd rs)

/-- R226. -/
def execMuld (rd rs : Reg) (st : State) : Result :=
  .next (st.fpBinary .muld rd rs)

/-- R227: left divided by right. -/
def execDivd (rd rs : Reg) (st : State) : Result :=
  .next (st.fpBinary .divd rd rs)

/-- R228. -/
def execItod (rd rs : Reg) (st : State) : Result :=
  .next (st.intToDouble rd rs)

/-- R229. -/
def execDtoi (rd rs : Reg) (st : State) : Result :=
  .next (st.doubleToInt rd rs)

end Sys2Proof.Machine
end

