-- ==== Sys2Proof/Machine/Jumps.lean ====
section
/-! DEFINITION. Jumps (48_jumps.md): absolute, pre-biased by -1 because the step tail adds 1 (R280). -/

namespace Sys2Proof.Machine

/-- R281: unconditional. -/
def execJmp (addr20 : Word) (st : State) : Result :=
  .next (st.jumpIf true addr20)

/-- R282: `!EQUALITY`. -/
def execJne (addr20 : Word) (st : State) : Result :=
  .next (st.jumpIf (!equality st.flags) addr20)

/-- R283: `EQUALITY`. -/
def execJeq (addr20 : Word) (st : State) : Result :=
  .next (st.jumpIf (equality st.flags) addr20)

/-- R284: `MAJORITY || EQUALITY`. -/
def execJle (addr20 : Word) (st : State) : Result :=
  .next (st.jumpIf (majority st.flags || equality st.flags) addr20)

/-- R285: under `JL_MODE`. -/
def execJl (addr20 : Word) (st : State) : Result :=
  .next (st.jumpIf (jlCondition st.cfg.jlMode st.flags) addr20)

/-- R286: `!MAJORITY || EQUALITY`. -/
def execJge (addr20 : Word) (st : State) : Result :=
  .next (st.jumpIf (!majority st.flags || equality st.flags) addr20)

/-- R287: `!MAJORITY && !EQUALITY`. -/
def execJg (addr20 : Word) (st : State) : Result :=
  .next (st.jumpIf (!majority st.flags && !equality st.flags) addr20)

end Sys2Proof.Machine
end

