-- ==== Sys2Proof/Machine/LoadStore.lean ====
section
/-! DEFINITION. Loads and stores (49_memory_ops.md): whole words, no flag, no base update (R298). -/

namespace Sys2Proof.Machine

/-- R300: `x[d] <- MemRead(addr20)`. -/
def execLoad (rd : Reg) (addr20 : Word) (st : State) : Result :=
  .next (st.setReg rd (st.memRead addr20))

/-- R301: `MemWrite(addr20, x[d])`. -/
def execStore (rd : Reg) (addr20 : Word) (st : State) : Result :=
  .next (st.memWrite addr20 (st.reg rd))

/-- R302. -/
def execLoad2 (rd : Reg) (addr20 : Word) (st : State) : Result :=
  .next (st.loadPair rd addr20)

/-- R303. -/
def execStore2 (rd : Reg) (addr20 : Word) (st : State) : Result :=
  .next (st.storePair rd addr20)

/-- R304: `x[d] <- MemRead(x[s] + imm16)`. -/
def execLoadr (rd rs : Reg) (imm16 : Word) (st : State) : Result :=
  .next (st.setReg rd (st.memRead (st.addrOf rs imm16)))

/-- R305: `MemWrite(x[s] + imm16, x[d])`. -/
def execStorer (rd rs : Reg) (imm16 : Word) (st : State) : Result :=
  .next (st.memWrite (st.addrOf rs imm16) (st.reg rd))

/-- R306. -/
def execLoadr2 (rd rs : Reg) (imm16 : Word) (st : State) : Result :=
  .next (st.loadPair rd (st.addrOf rs imm16))

/-- R307. -/
def execStorer2 (rd rs : Reg) (imm16 : Word) (st : State) : Result :=
  .next (st.storePair rd (st.addrOf rs imm16))

end Sys2Proof.Machine
end

