-- ==== Sys2Proof/Machine/RegLoad.lean ====
section
/-! DEFINITION. Register load (42_register_load.md). -/

namespace Sys2Proof.Machine

/-- R180: `x[d] <- imm20`. -/
def execLc (rd : Reg) (imm20 : Word) (st : State) : Result :=
  .next (st.setReg rd imm20)

/-- R181: `x[d] <- x[s] + imm16`. -/
def execMov (rd rs : Reg) (imm16 : Word) (st : State) : Result :=
  .next (st.setReg rd (st.rsPlus rs imm16))

end Sys2Proof.Machine
end

