-- ==== Sys2Proof/Machine/ShiftLogic.lean ====
section
/-! DEFINITION. Shifts and logic (43_shift_logic.md). -/

namespace Sys2Proof.Machine

/-- R192. -/
def execShl (rd rs : Reg) (imm16 : Word) (st : State) : Result :=
  .next (st.shift .shl rd shiftLeftWord (st.rsPlus rs imm16))

/-- R193. -/
def execShli (rd : Reg) (imm20 : Word) (st : State) : Result :=
  .next (st.shift .shli rd shiftLeftWord imm20)

/-- R194. -/
def execShr (rd rs : Reg) (imm16 : Word) (st : State) : Result :=
  .next (st.shift .shr rd (shiftRightWord st.cfg.shrKind) (st.rsPlus rs imm16))

/-- R195. -/
def execShri (rd : Reg) (imm20 : Word) (st : State) : Result :=
  .next (st.shift .shri rd (shiftRightWord st.cfg.shrKind) imm20)

/-- R197: `x[d] <- x[d] & (x[s] + imm16)`. -/
def execAnd (rd rs : Reg) (imm16 : Word) (st : State) : Result :=
  .next (st.update rd (· &&& ·) (st.rsPlus rs imm16))

/-- R198: `x[d] <- x[d] & imm20`. -/
def execAndi (rd : Reg) (imm20 : Word) (st : State) : Result :=
  .next (st.update rd (· &&& ·) imm20)

/-- R199: `x[d] <- x[d] | (x[s] + imm16)`. -/
def execOr (rd rs : Reg) (imm16 : Word) (st : State) : Result :=
  .next (st.update rd (· ||| ·) (st.rsPlus rs imm16))

/-- R200: `x[d] <- x[d] | imm20`. -/
def execOri (rd : Reg) (imm20 : Word) (st : State) : Result :=
  .next (st.update rd (· ||| ·) imm20)

/-- R201: `x[d] <- x[d] ^ (x[s] + imm16)`. -/
def execXor (rd rs : Reg) (imm16 : Word) (st : State) : Result :=
  .next (st.update rd (· ^^^ ·) (st.rsPlus rs imm16))

/-- R202: `x[d] <- x[d] ^ imm20`. -/
def execXori (rd : Reg) (imm20 : Word) (st : State) : Result :=
  .next (st.update rd (· ^^^ ·) imm20)

/-- R203: `x[d] <- ~x[d]`. -/
def execNot (rd : Reg) (st : State) : Result :=
  .next (st.setReg rd (~~~ st.reg rd))

end Sys2Proof.Machine
end

