-- ==== Sys2Proof/Machine/Stack.lean ====
section
/-! DEFINITION. Stack, calls and return (46_stack.md, 47_calls.md). Each step reads the registers as the step before it
left them (D18). -/

namespace Sys2Proof.Machine

/-- R260: decrement SP, store `x[d] + imm20` at SP, with `x[d]` read after the decrement. -/
def execPush (rd : Reg) (imm20 : Word) (st : State) : Result :=
  .next (st.push fun st1 => st1.reg rd + imm20)

/-- R261: load `mem[SP] + imm20` into `x[d]`, then increment SP as that load left it. -/
def execPop (rd : Reg) (imm20 : Word) (st : State) : Result :=
  let st1 := st.setReg rd (st.memRead st.sp + imm20)
  .next (st1.setSp (st1.sp + 1))

/-- R271: push the return address, then `ip <- x[d] + addr20 - 1` with `x[d]` read after the push. -/
def execCall (rd : Reg) (addr20 : Word) (st : State) : Result :=
  let st1 := st.push fun st1 => st1.ip + 1
  .next (st1.setIp (st1.reg rd + addr20 - 1))

/-- R272: push the return address, then `ip <- addr20 - 1`. -/
def execCalli (addr20 : Word) (st : State) : Result :=
  let st1 := st.push fun st1 => st1.ip + 1
  .next (st1.setIp (addr20 - 1))

/-- R273: pop the return address into IP, less 1, then drop `addr20` argument words. -/
def execRet (addr20 : Word) (st : State) : Result :=
  let st1 := st.setIp (st.memRead st.sp - 1)
  let st2 := st1.setSp (st1.sp + 1)
  .next (st2.setSp (st2.sp + addr20))

end Sys2Proof.Machine
end

