-- ==== Sys2Proof/Machine/System.lean ====
section
/-! DEFINITION. System instructions: HALT and SYSCALL (40_system.md). -/

namespace Sys2Proof.Machine

/-- R130: `stop Terminate`. -/
def execHalt (st : State) : Result := .next (st.stop .terminate)

/-- The codes SYSCALL dispatches on (R131). -/
inductive SyscallCode where
  | exit
  | readInt
  | readDouble
  | printInt
  | printDouble
  | putChar
  | getChar
  | unknown
  deriving DecidableEq, Repr

/-- The dispatch of R131 on `code = sint(imm20)`. -/
def syscallCode (code : Int) : SyscallCode :=
  if code = 0 then .exit
  else if code = 100 then .readInt
  else if code = 101 then .readDouble
  else if code = 102 then .printInt
  else if code = 103 then .printDouble
  else if code = 105 then .putChar
  else if code = 106 then .getChar
  else .unknown

/-- What a SYSCALL of each code does with register `d` (R132 to R139); the pair check of codes 101 and 103 comes before
any input or output (D31). -/
def State.syscall (st : State) (code : SyscallCode) (rd : Reg) : State :=
  match code with
  | .exit => st.stop .terminate
  | .readInt => st.readInt fun w st1 => st1.setReg rd w
  | .readDouble => st.withPair rd fun hi => st.readDouble fun v st1 => st1.setPair rd hi v
  | .printInt => st.emit (.printInt (st.reg rd).toInt)
  | .printDouble => st.withPair rd fun hi => st.emit (.printDouble (st.pair rd hi))
  | .putChar => st.emit (.putChar ((st.reg rd).extractLsb' 0 8))
  | .getChar => st.getChar fun w st1 => st1.setReg rd w
  | .unknown => st.stop .warning

/-- R131. -/
def execSyscall (rd : Reg) (imm20 : Word) (st : State) : Result :=
  .next (st.syscall (syscallCode imm20.toInt) rd)

end Sys2Proof.Machine
end

