-- ==== Sys2Proof/Machine/Dispatch.lean ====
section
/-! DEFINITION. The dispatch: one arm for each instruction (60_exceptions.md R331). -/

namespace Sys2Proof.Machine

def exec (i : Instr) (s : State) : Host.Outcome State Fault Refusal :=
  match i with
  | .halt => Sys2Proof.Machine.execHalt s
  | .syscall rd imm => Sys2Proof.Machine.execSyscall rd imm s
  | .add rd rs imm => Sys2Proof.Machine.execAdd rd rs imm s
  | .addi rd imm => Sys2Proof.Machine.execAddi rd imm s
  | .sub rd rs imm => Sys2Proof.Machine.execSub rd rs imm s
  | .subi rd imm => Sys2Proof.Machine.execSubi rd imm s
  | .mul rd rs imm => Sys2Proof.Machine.execMul rd rs imm s
  | .muli rd imm => Sys2Proof.Machine.execMuli rd imm s
  | .div rd rs imm => Sys2Proof.Machine.execDiv rd rs imm s
  | .divi rd imm => Sys2Proof.Machine.execDivi rd imm s
  | .lc rd imm => Sys2Proof.Machine.execLc rd imm s
  | .shl rd rs imm => Sys2Proof.Machine.execShl rd rs imm s
  | .shli rd imm => Sys2Proof.Machine.execShli rd imm s
  | .shr rd rs imm => Sys2Proof.Machine.execShr rd rs imm s
  | .shri rd imm => Sys2Proof.Machine.execShri rd imm s
  | .and rd rs imm => Sys2Proof.Machine.execAnd rd rs imm s
  | .andi rd imm => Sys2Proof.Machine.execAndi rd imm s
  | .or rd rs imm => Sys2Proof.Machine.execOr rd rs imm s
  | .ori rd imm => Sys2Proof.Machine.execOri rd imm s
  | .xor rd rs imm => Sys2Proof.Machine.execXor rd rs imm s
  | .xori rd imm => Sys2Proof.Machine.execXori rd imm s
  | .not rd => Sys2Proof.Machine.execNot rd s
  | .mov rd rs imm => Sys2Proof.Machine.execMov rd rs imm s
  | .addd rd rs => Sys2Proof.Machine.execAddd rd rs s
  | .subd rd rs => Sys2Proof.Machine.execSubd rd rs s
  | .muld rd rs => Sys2Proof.Machine.execMuld rd rs s
  | .divd rd rs => Sys2Proof.Machine.execDivd rd rs s
  | .itod rd rs => Sys2Proof.Machine.execItod rd rs s
  | .dtoi rd rs => Sys2Proof.Machine.execDtoi rd rs s
  | .push rd imm => Sys2Proof.Machine.execPush rd imm s
  | .pop rd imm => Sys2Proof.Machine.execPop rd imm s
  | .call rd addr => Sys2Proof.Machine.execCall rd addr s
  | .calli addr => Sys2Proof.Machine.execCalli addr s
  | .ret addr => Sys2Proof.Machine.execRet addr s
  | .cmp rd rs => Sys2Proof.Machine.execCmp rd rs s
  | .cmpi rd imm => Sys2Proof.Machine.execCmpi rd imm s
  | .jmp addr => Sys2Proof.Machine.execJmp addr s
  | .jne addr => Sys2Proof.Machine.execJne addr s
  | .jeq addr => Sys2Proof.Machine.execJeq addr s
  | .jle addr => Sys2Proof.Machine.execJle addr s
  | .jl addr => Sys2Proof.Machine.execJl addr s
  | .jge addr => Sys2Proof.Machine.execJge addr s
  | .jg addr => Sys2Proof.Machine.execJg addr s
  | .load rd addr => Sys2Proof.Machine.execLoad rd addr s
  | .store rd addr => Sys2Proof.Machine.execStore rd addr s
  | .load2 rd addr => Sys2Proof.Machine.execLoad2 rd addr s
  | .store2 rd addr => Sys2Proof.Machine.execStore2 rd addr s
  | .loadr rd rs imm => Sys2Proof.Machine.execLoadr rd rs imm s
  | .storer rd rs imm => Sys2Proof.Machine.execStorer rd rs imm s
  | .loadr2 rd rs imm => Sys2Proof.Machine.execLoadr2 rd rs imm s
  | .storer2 rd rs imm => Sys2Proof.Machine.execStorer2 rd rs imm s

end Sys2Proof.Machine
end

