-- ==== Sys2Proof/Machine/Step.lean ====
section
/-! DEFINITION. One step of the machine (60_exceptions.md R330 to R337), the spec's signature of it, and placing one
instruction word where the next step fetches. -/

namespace Sys2Proof.Machine

/-- One step. A run that has ended has no further step (R340); the bounds-checked configuration is refused
(20_memory.md R77). Else the word at IP is fetched and decoded, the instruction runs, and the step tail follows. -/
def step (s : State) : Host.Outcome State Fault Refusal :=
  if s.result.ended = true then .fault (.runEnded s.result)
  else if s.cfg.addressing = .checked then .refused .checkedAddressing
  else
    match Sys2Proof.decodeWith s.cfg.opcodeMap s.fetch with
    | .error _ => .next s.begin.undefinedOpcode.tail
    | .ok i =>
      match exec i s.begin with
      | .next t => .next t.tail
      | .fault f => .fault f
      | .refused r => .refused r

/-- What the spec's `step` answers (R330): the outcome, the `State` and the streams, and which draw comes next. -/
structure StepAnswer where
  outcome : StepResult
  state : CoreState
  streams : HostStreams
  draws : Nat
  deriving DecidableEq, Repr

/-- The machine that a step of `core` on `streams` runs on. -/
def State.ofParts (cfg : Params) (draws : Nat) (core : CoreState) (streams : HostStreams) : State where
  toCoreState := core
  toHostStreams := streams
  result := .continued
  draws := draws
  cfg := cfg

/-- The parts of a machine that a step answers. -/
def State.answer (t : State) : StepAnswer where
  outcome := t.result
  state := t.toCoreState
  streams := t.toHostStreams
  draws := t.draws

/-- `step(state, input, output) -> Outcome` (R330): the streams are parameters and no part of the `State` (10_state.md
R31). The parameters of R10 and the number of the next draw stand beside them. -/
def coreStep (cfg : Params) (draws : Nat) (core : CoreState) (streams : HostStreams) :
    Host.Outcome StepAnswer Fault Refusal :=
  match step (.ofParts cfg draws core streams) with
  | .next t => .next t.answer
  | .fault f => .fault f
  | .refused r => .refused r

/-- `s` with the table row's word stored at IP, where the next step fetches, of a run that goes on under the modular
mode and the table's own opcode numbers (log entry 28). -/
def State.withFetchWord (s : State) (nbits w : Nat) : State :=
  let s1 := s.memWrite s.ip (Sys2Proof.tableWord nbits w)
  { s1 with result := .continued, cfg := { s1.cfg with addressing := .modular, opcodeMap := Sys2Proof.defaultOpcodeMap } }

end Sys2Proof.Machine
end

