-- ==== Sys2Proof/Machine/Boot.lean ====
section
/-! DEFINITION. The initial-state constructors: the raw state image and the assembled state (70_reset_and_hazards.md
R373 to R375). Both start from the zero-filled state, of a machine with the parameters given. -/

namespace Sys2Proof.Machine

/-- Why a raw image is refused as a launch state (R374, D32). -/
inductive RawImageError where
  /-- Shorter than 65 bytes. -/
  | tooShort
  /-- The memory part is not a multiple of 4 bytes. -/
  | partialWord
  /-- Longer than 65 + 2^22 bytes. -/
  | tooLong
  deriving DecidableEq, Repr

/-- The cells of a byte run that starts at byte address `a`; a zero byte is left unlisted. -/
def Memory.ofBytes (a : Nat) : List Byte → Memory
  | [] => []
  | b :: rest => if b = Memory.unlisted then Memory.ofBytes (a + 1) rest else (a, b) :: Memory.ofBytes (a + 1) rest

/-- Register `i` of a raw image: bytes `4i` to `4i+3`, most significant first (R374). -/
def rawRegister (image : List Byte) (i : Nat) : Word :=
  wordOfBytes (image.getD (4 * i) 0) (image.getD (4 * i + 1) 0) (image.getD (4 * i + 2) 0) (image.getD (4 * i + 3) 0)

/-- `load_raw_state` (R374): 64 bytes of registers, the flags byte, then memory from address 0. -/
def loadRawState (cfg : Params) (image : List Byte) : Except RawImageError State :=
  if image.length < 65 then .error .tooShort
  else if 65 + Config.memBytes < image.length then .error .tooLong
  else if (image.length - 65) % 4 ≠ 0 then .error .partialWord
  else .ok { State.construct cfg with
    regs := Vector.ofFn fun i : Fin 16 => rawRegister image i.val
    flags := image.getD 64 0
    mem := Memory.ofBytes 0 (image.drop 65) }

/-- `MemorySize - 1`, the assembler's initial stack pointer (R375). -/
def topOfMemory : Word := 0xFFFFF

/-- The zero-filled state with words written from address 0 upward and IP at the entry point (R375): what an assembly has
committed before it succeeds or fails. -/
def partialState (cfg : Params) (words : List Word) (entry : Word) : State :=
  let loaded : State := { State.construct cfg with mem := Memory.ofBytes 0 (words.flatMap bytesOfWord) }
  loaded.setIp entry

/-- The assembled state (R375): "On success, the stack pointer register is initialized to the top of memory"; IP is the
entry point of the `end` directive (0 without one), and all else is 0. -/
def assembledState (cfg : Params) (words : List Word) (entry : Word) : State :=
  (partialState cfg words entry).setSp topOfMemory

end Sys2Proof.Machine
end

