-- ==== Sys2Proof/Machine/Assembler.lean ====
section
/-! DEFINITION. The assembler as far as it builds a launch state (00_scope.md R7; 30_encoding.md R120 to R126), and the
disassembler's listing (R127). Source text is a list of characters. Where the spec gives no limit or spelling the text
is refused (93_implementation_defined.md I23, log entry 30). -/

namespace Sys2Proof.Machine

/-- A token: characters without white space. -/
abbrev Token := List Char

/-- The operands a mnemonic takes in assembler text (R122); `none` and `reg` are HALT's and NOT's. -/
inductive OperandFormat where
  | none
  | reg
  | ri
  | rr
  | rm
  | me
  deriving DecidableEq, Repr

structure Mnemonic where
  name : Token
  op : Op
  format : OperandFormat
  deriving DecidableEq, Repr

/-- The mnemonics with their operations and the formats of R96. -/
def arithMnemonics : List Mnemonic :=
  [⟨['H', 'A', 'L', 'T'], .halt, .none⟩, ⟨['S', 'Y', 'S', 'C', 'A', 'L', 'L'], .syscall, .ri⟩,
    ⟨['A', 'D', 'D'], .add, .rr⟩, ⟨['A', 'D', 'D', 'I'], .addi, .ri⟩,
    ⟨['S', 'U', 'B'], .sub, .rr⟩, ⟨['S', 'U', 'B', 'I'], .subi, .ri⟩,
    ⟨['M', 'U', 'L'], .mul, .rr⟩, ⟨['M', 'U', 'L', 'I'], .muli, .ri⟩,
    ⟨['D', 'I', 'V'], .div, .rr⟩, ⟨['D', 'I', 'V', 'I'], .divi, .ri⟩,
    ⟨['L', 'C'], .lc, .ri⟩, ⟨['M', 'O', 'V'], .mov, .rr⟩]

def logicMnemonics : List Mnemonic :=
  [⟨['S', 'H', 'L'], .shl, .rr⟩, ⟨['S', 'H', 'L', 'I'], .shli, .ri⟩,
    ⟨['S', 'H', 'R'], .shr, .rr⟩, ⟨['S', 'H', 'R', 'I'], .shri, .ri⟩,
    ⟨['A', 'N', 'D'], .and, .rr⟩, ⟨['A', 'N', 'D', 'I'], .andi, .ri⟩,
    ⟨['O', 'R'], .or, .rr⟩, ⟨['O', 'R', 'I'], .ori, .ri⟩,
    ⟨['X', 'O', 'R'], .xor, .rr⟩, ⟨['X', 'O', 'R', 'I'], .xori, .ri⟩,
    ⟨['N', 'O', 'T'], .not, .reg⟩]

def floatMnemonics : List Mnemonic :=
  [⟨['A', 'D', 'D', 'D'], .addd, .rr⟩, ⟨['S', 'U', 'B', 'D'], .subd, .rr⟩,
    ⟨['M', 'U', 'L', 'D'], .muld, .rr⟩, ⟨['D', 'I', 'V', 'D'], .divd, .rr⟩,
    ⟨['I', 'T', 'O', 'D'], .itod, .rr⟩, ⟨['D', 'T', 'O', 'I'], .dtoi, .rr⟩]

def controlMnemonics : List Mnemonic :=
  [⟨['P', 'U', 'S', 'H'], .push, .ri⟩, ⟨['P', 'O', 'P'], .pop, .ri⟩,
    ⟨['C', 'A', 'L', 'L'], .call, .rm⟩, ⟨['C', 'A', 'L', 'L', 'I'], .calli, .me⟩,
    ⟨['R', 'E', 'T'], .ret, .me⟩, ⟨['C', 'M', 'P'], .cmp, .rr⟩, ⟨['C', 'M', 'P', 'I'], .cmpi, .ri⟩,
    ⟨['J', 'M', 'P'], .jmp, .me⟩, ⟨['J', 'N', 'E'], .jne, .me⟩, ⟨['J', 'E', 'Q'], .jeq, .me⟩,
    ⟨['J', 'L', 'E'], .jle, .me⟩, ⟨['J', 'L'], .jl, .me⟩, ⟨['J', 'G', 'E'], .jge, .me⟩,
    ⟨['J', 'G'], .jg, .me⟩]

def memoryMnemonics : List Mnemonic :=
  [⟨['L', 'O', 'A', 'D'], .load, .rm⟩, ⟨['S', 'T', 'O', 'R', 'E'], .store, .rm⟩,
    ⟨['L', 'O', 'A', 'D', '2'], .load2, .rm⟩, ⟨['S', 'T', 'O', 'R', 'E', '2'], .store2, .rm⟩,
    ⟨['L', 'O', 'A', 'D', 'R'], .loadr, .rr⟩, ⟨['S', 'T', 'O', 'R', 'E', 'R'], .storer, .rr⟩,
    ⟨['L', 'O', 'A', 'D', 'R', '2'], .loadr2, .rr⟩, ⟨['S', 'T', 'O', 'R', 'E', 'R', '2'], .storer2, .rr⟩]

def mnemonicTable : List Mnemonic :=
  arithMnemonics ++ logicMnemonics ++ floatMnemonics ++ controlMnemonics ++ memoryMnemonics

/-- The register names `r0` to `r15` (10_state.md R36). -/
def registerNames : List Token :=
  [['r', '0'], ['r', '1'], ['r', '2'], ['r', '3'], ['r', '4'], ['r', '5'], ['r', '6'], ['r', '7'], ['r', '8'],
    ['r', '9'], ['r', '1', '0'], ['r', '1', '1'], ['r', '1', '2'], ['r', '1', '3'], ['r', '1', '4'], ['r', '1', '5']]

/-- Why assembling fails (R125); the last three are texts the spec does not describe (I23). -/
inductive AssemblyReason where
  | unknownOpcode
  | unknownRegister
  | missingRegister
  | missingImmediate
  | missingAddress
  | missingLabelName
  | undeclaredLabel
  | valueTooLarge
  | duplicateLabel
  | emptyLabel
  | memoryFull
  deriving DecidableEq, Repr

/-- `AssemblingFailed` (R125): why, "the 1-based failing word address", and the target State with the "partial writes
already committed", which "are not rolled back". -/
structure AssemblyError where
  reason : AssemblyReason
  wordAddress : Nat
  target : State
  deriving DecidableEq, Repr

/-! Tokens (R120). -/

def isSpace (c : Char) : Bool := c == ' ' || c == '\t' || c == '\n' || c == '\r'

/-- A finished token, from its characters in reverse; none between two white spaces. -/
def finishToken (pending : List Char) : List Token := if pending.isEmpty then [] else [pending.reverse]

/-- The state machine of R120: `InComment` is entered on a token that starts with `;` and left at the end of the line. -/
def tokenize (inComment : Bool) (pending : List Char) : List Char → List Token
  | [] => finishToken pending
  | c :: rest =>
    if inComment then tokenize (c != '\n') [] rest
    else if isSpace c then finishToken pending ++ tokenize false [] rest
    else if pending.isEmpty && c == ';' then tokenize true [] rest
    else tokenize false (c :: pending) rest

/-- An unsigned decimal token (R123). -/
def decimal (t : Token) : Option Nat :=
  if !t.isEmpty && t.all Char.isDigit then some (t.foldl (fun n c => 10 * n + (c.toNat - 48)) 0) else none

/-- The name a label definition defines: the token without its trailing `:` (R121). -/
def labelDefined (t : Token) : Option Token := if t.getLast? = some ':' then some t.dropLast else none

/-! Operands (R122, R123). -/

/-- A label used at an address or immediate position, to be patched into a field of `bits` bits (R123, R124). -/
structure LabelUse where
  address : Nat
  bits : Nat
  name : Token
  deriving DecidableEq, Repr

/-- A register operand and the tokens after it. -/
def takeRegister : List Token → Except AssemblyReason (Reg × List Token)
  | [] => .error .missingRegister
  | t :: rest =>
    match (List.finRange 16).find? (fun r => registerNames.getD r.val [] == t) with
    | some r => .ok (r, rest)
    | none => .error .unknownRegister

/-- A value for a field of `bits` bits, 0 with the label's name where it is a label (R124), and the tokens after it. -/
def takeValue (bits : Nat) (missing : AssemblyReason) :
    List Token → Except AssemblyReason (Word × Option Token × List Token)
  | [] => .error missing
  | t :: rest =>
    match decimal t with
    | some n => if n < 2 ^ bits then .ok (BitVec.ofNat 32 n, none, rest) else .error .valueTooLarge
    | none => .ok (0, some t, rest)

/-- A mnemonic's operands: its word under the opcode map, the label it uses and the width of that field, and the tokens after it. -/
def takeOperands (map : OpcodeMap) (m : Mnemonic) (tokens : List Token) :
    Except AssemblyReason (Word × Option Token × Nat × List Token) :=
  match m.format with
  | .none => .ok (packRI (map.number m.op) 0 0, none, 20, tokens)
  | .reg => do
    let (rd, rest) ← takeRegister tokens
    .ok (packRI (map.number m.op) rd 0, none, 20, rest)
  | .ri => do
    let (rd, rest) ← takeRegister tokens
    let (v, label, rest) ← takeValue 20 .missingImmediate rest
    .ok (packRI (map.number m.op) rd v, label, 20, rest)
  | .rr => do
    let (rd, rest) ← takeRegister tokens
    let (rs, rest) ← takeRegister rest
    let (v, label, rest) ← takeValue 16 .missingImmediate rest
    .ok (packRR (map.number m.op) rd rs v, label, 16, rest)
  | .rm => do
    let (rd, rest) ← takeRegister tokens
    let (v, label, rest) ← takeValue 20 .missingAddress rest
    .ok (packRI (map.number m.op) rd v, label, 20, rest)
  | .me => do
    let (v, label, rest) ← takeValue 20 .missingAddress tokens
    .ok (packMe (map.number m.op) v, label, 20, rest)

/-! The two passes. -/

/-- What has been assembled so far, for a machine with the given parameters: the words from address 0, the labels, their
uses and the entry point. -/
structure Assembly where
  cfg : Params
  words : List Word
  labels : List (Token × Nat)
  uses : List LabelUse
  entry : Word
  deriving DecidableEq, Repr

/-- Nothing assembled yet. -/
def Assembly.empty (cfg : Params) : Assembly where
  cfg := cfg
  words := []
  labels := []
  uses := []
  entry := 0

/-- The assembly stops here (R125): nothing written so far is rolled back. -/
def Assembly.failure (a : Assembly) (reason : AssemblyReason) (address : Nat) : AssemblyError where
  reason := reason
  wordAddress := address + 1
  target := partialState a.cfg a.words a.entry

/-- The address of a declared label. -/
def Assembly.lookup (a : Assembly) (name : Token) : Option Nat :=
  (a.labels.find? (fun l => l.1 == name)).map (fun l => l.2)

/-- Write one word at the write address, which advances by one (R121). -/
def Assembly.write (a : Assembly) (w : Word) (bits : Nat) (label : Option Token) : Except AssemblyReason Assembly :=
  if Config.memWords ≤ a.words.length then .error .memoryFull
  else
    .ok { a with
      words := a.words ++ [w]
      uses := a.uses ++ label.toList.map (fun name => { address := a.words.length, bits := bits, name := name }) }

/-- One token of `InCode` with the operands it consumes (R121). -/
def Assembly.item (a : Assembly) (t : Token) (rest : List Token) : Except AssemblyReason (Assembly × List Token) :=
  if t = ['w', 'o', 'r', 'd'] then do
    let a ← a.write 0 20 none
    .ok (a, rest)
  else if t = ['e', 'n', 'd'] then
    match rest with
    | [] => .error .missingLabelName
    | name :: rest =>
      match a.lookup name with
      | some address => .ok ({ a with entry := BitVec.ofNat 32 address }, rest)
      | none => .error .undeclaredLabel
  else
    match labelDefined t with
    | some name =>
      if name.isEmpty then .error .emptyLabel
      else if (a.lookup name).isSome then .error .duplicateLabel
      else .ok ({ a with labels := a.labels ++ [(name, a.words.length)] }, rest)
    | none =>
      match mnemonicTable.find? (fun m => m.name == t) with
      | none => .error .unknownOpcode
      | some m => do
        let (w, label, bits, rest) ← takeOperands a.cfg.opcodeMap m rest
        let a ← a.write w bits label
        .ok (a, rest)

/-- The first pass. Each item takes at least one token, so `fuel` is the number of tokens. -/
def Assembly.items (a : Assembly) (fuel : Nat) (tokens : List Token) : Except AssemblyError Assembly :=
  match fuel, tokens with
  | _, [] => .ok a
  | 0, _ => .ok a
  | fuel + 1, t :: rest =>
    match a.item t rest with
    | .ok (b, rest) => Assembly.items b fuel rest
    | .error e => .error (a.failure e a.words.length)

/-- The second pass: each label use is resolved and OR'd into the word (R124). -/
def Assembly.patch (a : Assembly) : List LabelUse → Except AssemblyError Assembly
  | [] => .ok a
  | u :: rest =>
    match a.lookup u.name with
    | none => .error (a.failure .undeclaredLabel u.address)
    | some v =>
      if v < 2 ^ u.bits then
        Assembly.patch { a with words := a.words.modify u.address (fun w => w ||| BitVec.ofNat 32 v) } rest
      else .error (a.failure .valueTooLarge u.address)

/-- `assemble` (00_scope.md R7, 70_reset_and_hazards.md R375); assembling stops at the first error (R125). -/
def assemble (cfg : Params) (source : List Char) : Except AssemblyError State := do
  let tokens := tokenize false [] source
  let a ← Assembly.items (.empty cfg) tokens.length tokens
  let b ← a.patch a.uses
  .ok (assembledState cfg b.words b.entry)

/-! The disassembler (R127). -/

/-- One line of the listing, before it is made text: a recognised word's instruction, or a raw word value. -/
inductive ListingLine where
  | instruction (address : Nat) (i : Instr)
  | raw (address value : Nat)
  deriving DecidableEq, Repr

/-- The walk of R127 from address `a`; `zeroPrinted` says the word before was a zero word, printed or skipped. -/
def disassemble (m : OpcodeMap) (zeroPrinted : Bool) (a : Nat) : List Word → List ListingLine
  | [] => []
  | w :: rest =>
    let line :=
      match decodeWith m w with
      | .ok i => ListingLine.instruction a i
      | .error _ => .raw a w.toNat
    if w = 0 && zeroPrinted then disassemble m true (a + 1) rest
    else line :: disassemble m (w == 0) (a + 1) rest

end Sys2Proof.Machine
end

