-- ==== Sys2Proof/Machine/HostIO.lean ====
section
/-! DEFINITION. What the host does between steps: it supplies what its read functions will return (60_exceptions.md
R343). Text syntax, end of input and characters 0x80 and above are the host's (`HOST_IO`, D20), so their values are
arguments here. -/

namespace Sys2Proof.Machine

/-- An integer arrives for HostReadInt. -/
def State.supplyInt (st : State) (w : Word) : State := { st with inInts := st.inInts ++ [w] }

/-- A double arrives for HostReadDouble. -/
def State.supplyDouble (st : State) (v : DWord) : State := { st with inDoubles := st.inDoubles ++ [v] }

/-- The word HostGetChar returns for an input byte: `zext_32(b)` below 0x80 (40_system.md R138), the host's own choice
`high` from 0x80 on. -/
def charWord (b : Byte) (high : Word) : Word := if b.toNat < 0x80 then b.setWidth 32 else high

/-- An input byte arrives for HostGetChar. -/
def State.supplyByte (st : State) (b : Byte) (high : Word) : State :=
  { st with inChars := st.inChars ++ [charWord b high] }

/-- The end of the input reaches HostGetChar, whose value there is the host's own choice. -/
def State.supplyEnd (st : State) (w : Word) : State := { st with inChars := st.inChars ++ [w] }

end Sys2Proof.Machine
end

