-- ==== Sys2Proof/Safety.lean ====
section
/-! DEFINITION. The words the statements use: how a run ends (60_exceptions.md R340, R341), what a state must satisfy,
and what "nothing else changes" means. -/

namespace Sys2Proof.Machine

/-! Runs. -/

/-- The run loop (R340): `step` while it answers a next state, at most `k` times. It stops at a state whose run has
ended, which answers no next state. -/
def run : Nat → State → State
  | 0, s => s
  | k + 1, s =>
    match step s with
    | .next t => run k t
    | .fault _ => s
    | .refused _ => s

/-- "a run ends well exactly when a step returns Terminate" (R341). -/
def EndsWell (t : State) : Prop := t.result = .terminate

/-- Warning, Error and the engine faults (R341): the state is never final. -/
def EndsBadly (t : State) : Prop := t.result.ended = true ∧ t.result ≠ .terminate

/-- A step of this state fetches and runs an instruction: its run has not ended and its addressing is modular (R77). -/
def Runs (s : State) : Prop := s.result.ended = false ∧ s.cfg.addressing = .modular

/-- The outcome is an engine fault (R335). -/
def IsEngineFault : StepResult → Prop
  | .machineFault _ => True
  | .invalidStateFault _ => True
  | _ => False

/-! What stays the same. -/

/-- Every byte of memory reads as before. -/
def SameMem (s t : State) : Prop := ∀ a, Memory.readByte t.mem a = Memory.readByte s.mem a

/-- The host's streams are as before. -/
def SameHost (s t : State) : Prop :=
  t.inInts = s.inInts ∧ t.inDoubles = s.inDoubles ∧ t.inChars = s.inChars ∧ t.output = s.output

/-- Every register but those listed is as before. -/
def SameRegsBut (s t : State) (rs : List Reg) : Prop := ∀ r, r ∉ rs → t.reg r = s.reg r

/-- Flags, memory, outcome, host streams, draw counter and parameters are as before. -/
def SameBesideRegs (s t : State) : Prop :=
  t.flags = s.flags ∧ SameMem s t ∧ t.result = s.result ∧ SameHost s t ∧ t.draws = s.draws ∧ t.cfg = s.cfg

/-- `t` is `s` with `v` in register `d` and nothing else changed. -/
def RegWritten (s t : State) (d : Reg) (v : Word) : Prop :=
  t.reg d = v ∧ SameRegsBut s t [d] ∧ SameBesideRegs s t

/-- `t` is `s` with `lo` in register `d`, `hi` in register `d1` and nothing else changed. -/
def PairWritten (s t : State) (d d1 : Reg) (lo hi : Word) : Prop :=
  t.reg d = lo ∧ t.reg d1 = hi ∧ SameRegsBut s t [d, d1] ∧ SameBesideRegs s t

/-- Only the outcome of `t` differs from `s`. -/
def OnlyResult (s t : State) (r : StepResult) : Prop :=
  t.result = r ∧ SameRegsBut s t [] ∧ t.flags = s.flags ∧ SameMem s t ∧ SameHost s t ∧ t.draws = s.draws ∧
    t.cfg = s.cfg

/-- `t` is `s` with exception `e` taken: the engine fault of its class, naming it (R334, R335), and nothing written. -/
def ExceptionTaken (s t : State) (e : OpException) : Prop :=
  ∃ r : FaultRecord, r.exception = e ∧ OnlyResult s t (engineFault e r)

/-- `t` is `s` with a free value `v` in register `d`, one draw taken and nothing else changed. -/
def DrawWritten (s t : State) (d : Reg) (v : Word) : Prop :=
  t.draws = s.draws + 1 ∧ RegWritten s { t with draws := s.draws } d v

/-- `t` is `s` with a free value in the pair `d`, `d1`, one draw taken and nothing else changed. -/
def DrawPairWritten (s t : State) (d d1 : Reg) (v : DWord) : Prop :=
  t.draws = s.draws + 1 ∧
    PairWritten s { t with draws := s.draws } d d1 (v.extractLsb' 0 32) (v.extractLsb' 32 32)

/-- Byte `a` lies in the word that address `w` selects (20_memory.md R62, R67). -/
def InWord (w : Word) (a : Nat) : Prop := 4 * (w.toNat % Config.memWords) ≤ a ∧ a < 4 * (w.toNat % Config.memWords) + 4

/-- Flags, outcome, host streams, draw counter and parameters are as before. -/
def SameBesideRegsAndMem (s t : State) : Prop :=
  t.flags = s.flags ∧ t.result = s.result ∧ SameHost s t ∧ t.draws = s.draws ∧ t.cfg = s.cfg

/-- `t` is `s` with word `v` stored at address `w`: every byte outside that word reads as before, and beside memory and
registers nothing changes. -/
def WordStored (s t : State) (w v : Word) : Prop :=
  t.memRead w = v ∧ (∀ a, ¬ InWord w a → Memory.readByte t.mem a = Memory.readByte s.mem a) ∧
    SameBesideRegsAndMem s t

/-- `t` is `s` with words `v0` at `w` and `v1` at `w + 1` stored: every byte outside the two words reads as before, and
beside memory and registers nothing changes. -/
def PairStored (s t : State) (w v0 v1 : Word) : Prop :=
  t.memRead w = v0 ∧ t.memRead (w + 1) = v1 ∧
    (∀ a, ¬ InWord w a → ¬ InWord (w + 1) a → Memory.readByte t.mem a = Memory.readByte s.mem a) ∧
    SameBesideRegsAndMem s t

/-! Encodings. -/

/-- The bits of a word that decoding reads, by its operation (30_encoding.md R99 lists those it ignores). -/
def usedBits : Op → Word
  | .halt => 0xFF000000
  | .not => 0xFFF00000
  | .addd | .subd | .muld | .divd | .itod | .dtoi | .cmp => 0xFFFF0000
  | .calli | .ret | .jmp | .jne | .jeq | .jle | .jl | .jge | .jg => 0xFF0FFFFF
  | .syscall | .addi | .subi | .muli | .divi | .lc | .shli | .shri | .andi | .ori | .xori | .push | .pop | .cmpi =>
    0xFFFFFFFF
  | .add | .sub | .mul | .div | .shl | .shr | .and | .or | .xor | .mov | .loadr | .storer | .loadr2 | .storer2 =>
    0xFFFFFFFF
  | .call | .load | .store | .load2 | .store2 => 0xFFFFFFFF

/-- No operation has the number: `op not in OPCODE_MAP` (60_exceptions.md R331, R336). -/
def UndefinedIn (m : OpcodeMap) (n : Byte) : Prop := ∀ o : Op, m.number o ≠ n

/-- The undefined opcodes under the table of R97 (R100). -/
def UndefinedOpcode (n : Nat) : Prop :=
  n = 10 ∨ n = 11 ∨ (25 ≤ n ∧ n ≤ 31) ∨ n = 45 ∨ (53 ≤ n ∧ n ≤ 63) ∨ 72 ≤ n

/-! Doubles. -/

/-- Neither an infinity nor a NaN (44_float.md R220). -/
def FiniteDouble (a : DWord) : Prop := Fp.expField a ≠ 2047

/-- The exact result of a double operation on finite operands as numerator and denominator, in units of 2^-1074: sum,
difference, product and quotient (R222). -/
def exactResult (op : FpOp) (a b : DWord) : Int × Int :=
  match op with
  | .addd => (Fp.value a + Fp.value b, 1)
  | .subd => (Fp.value a - Fp.value b, 1)
  | .muld => (Fp.value a * Fp.value b, Fp.one)
  | .divd => (Fp.value a * Fp.one, Fp.value b)

/-- How far the double `c` is from the exact result, times the denominator. -/
def distance (c : DWord) (exact : Int × Int) : Nat := (Fp.value c * exact.2 - exact.1).natAbs

/-- Half a unit past the largest finite double, (2^54 - 1) * 2^2044 units: from here on rounding gives an infinity. -/
@[irreducible] def overflowBound : Nat := (2 ^ 54 - 1) * 2 ^ 2044

/-- The cases whose IEEE-754 result is a NaN (R223): an input is a NaN, or inf - inf, 0 * inf, 0/0, inf/inf. -/
def InvalidOperation (op : FpOp) (a b : DWord) : Prop :=
  Fp.isNaN a = true ∨ Fp.isNaN b = true ∨
    match op with
    | .addd => Fp.isInf a = true ∧ Fp.isInf b = true ∧ Fp.sign a ≠ Fp.sign b
    | .subd => Fp.isInf a = true ∧ Fp.isInf b = true ∧ Fp.sign a = Fp.sign b
    | .muld => (Fp.isInf a = true ∧ Fp.isZero b = true) ∨ (Fp.isZero a = true ∧ Fp.isInf b = true)
    | .divd => (Fp.isInf a = true ∧ Fp.isInf b = true) ∨ (Fp.isZero a = true ∧ Fp.isZero b = true)

/-! Laws of one instruction, on a state and the state that answers. -/

/-- The signed dividend of R157 for register words `lo` and `hi`, under `DIV_DIVIDEND`: `sext_or` reads `hi : lo` where
`lo` is not negative and `lo` alone where it is; `concat` reads `hi : lo`. -/
def dividendValue (kind : DivDividend) (lo hi : Word) : Int :=
  match kind with
  | .sextOr => if lo.toInt < 0 then lo.toInt else hi.toInt * 2 ^ 32 + lo.toInt
  | .concat => hi.toInt * 2 ^ 32 + lo.toNat

/-- The division law of R158 on state `s` with divisor `v`, answered by `t`: DivByZero for divisor 0; else for the one
quotient toward zero and its remainder, which has the dividend's sign, either both are written or, where the quotient does
not fit the signed 32-bit range, DivByZero is raised. -/
def DivisionLaw (s t : State) (rd hi : Reg) (v : Word) : Prop :=
  (v = 0 → ExceptionTaken s t .divByZero) ∧
  (v ≠ 0 → ∃ q r : Int, dividendValue s.cfg.divDividend (s.reg rd) (s.reg hi) = v.toInt * q + r ∧
    r.natAbs < v.toInt.natAbs ∧
    (r ≠ 0 → (0 < r ↔ 0 < dividendValue s.cfg.divDividend (s.reg rd) (s.reg hi))) ∧
    ((-2147483648 ≤ q ∧ q ≤ 2147483647) → PairWritten s t rd hi (BitVec.ofInt 32 q) (BitVec.ofInt 32 r)) ∧
    (¬ (-2147483648 ≤ q ∧ q ≤ 2147483647) → ExceptionTaken s t .divByZero))

/-- The right shift of R194 as arithmetic: `arithmetic` divides the signed value by `2^c` rounding down, `logical` the
unsigned value. -/
def RightShifted (kind : ShrKind) (x v : Word) (c : Nat) : Prop :=
  match kind with
  | .arithmetic => v.toInt = x.toInt / 2 ^ c
  | .logical => v.toNat = x.toNat / 2 ^ c

/-- The register `rd` alone changes, and each of its bits is `f` of its old bit and the bit of `b`. -/
def BitwiseWritten (s t : State) (rd : Reg) (b : Word) (f : Bool → Bool → Bool) : Prop :=
  ∃ v, RegWritten s t rd v ∧ ∀ k, k < 32 → v.getLsbD k = f ((s.reg rd).getLsbD k) (b.getLsbD k)

/-- The result of ADDD, SUBD, MULD or DIVD on a valid state: the pair written with the operation's result, or with a NaN
drawn freely (R223) where the IEEE-754 result is a NaN. -/
def FpResultWritten (op : FpOp) (s t : State) (rd dhi rs shi : Reg) : Prop :=
  (∀ r, Fp.eval op (s.reg dhi ++ s.reg rd) (s.reg shi ++ s.reg rs) = some r →
    PairWritten s t rd dhi (r.extractLsb' 0 32) (r.extractLsb' 32 32)) ∧
  (Fp.eval op (s.reg dhi ++ s.reg rd) (s.reg shi ++ s.reg rs) = none →
    ∃ nan, Fp.isNaN nan = true ∧ DrawPairWritten s t rd dhi nan)

/-- What the compare law leaves alone: registers, memory, outcome, host streams, draws, parameters. -/
def OnlyFlags (s t : State) : Prop :=
  SameRegsBut s t [] ∧ SameMem s t ∧ t.result = s.result ∧ SameHost s t ∧ t.draws = s.draws ∧ t.cfg = s.cfg

/-- The jump law of 48_jumps.md R280 answered by `t`: taken, IP alone is written with the target less 1; not taken,
nothing changes. -/
def JumpLaw (s t : State) (taken : Prop) (addr : Word) : Prop :=
  (taken → RegWritten s t 15 (addr - 1)) ∧ (¬ taken → t = s)

/-- `t` is `s` with `e` appended to the output and nothing else changed. -/
def OutputAppended (s t : State) (e : HostOutput) : Prop :=
  t.output = s.output ++ [e] ∧ SameRegsBut s t [] ∧ SameBesideRegs s { t with output := s.output }

/-- The step of `s` is held: only the outcome says so (IP and all else unchanged), stepping again changes nothing, and
input supplied meanwhile has the effect it would have had at once. -/
def HeldStep (s : State) : Prop :=
  ∃ t, step s = .next t ∧ OnlyResult s t .held ∧ Runs t ∧ (∀ k, run k t = t) ∧
    (∀ w, step (t.supplyInt w) = step (s.supplyInt w)) ∧ (∀ v, step (t.supplyDouble v) = step (s.supplyDouble v)) ∧
    ∀ b high, step (t.supplyByte b high) = step (s.supplyByte b high)

/-! Classes of instructions that rules about the whole machine name. -/

/-- CMP and CMPI, the writers of the flags (10_state.md R43). -/
def IsCompare : Instr → Prop
  | .cmp _ _ => True
  | .cmpi _ _ => True
  | _ => False

/-- The conditional jumps, the readers of the flags (R43). -/
def IsConditionalJump : Instr → Prop
  | .jne _ => True
  | .jeq _ => True
  | .jle _ => True
  | .jl _ => True
  | .jge _ => True
  | .jg _ => True
  | _ => False

/-- The instructions that write memory (20_memory.md R65). -/
def WritesMemory : Instr → Prop
  | .store _ _ => True
  | .store2 _ _ => True
  | .storer _ _ _ => True
  | .storer2 _ _ _ => True
  | .push _ _ => True
  | .call _ _ => True
  | .calli _ => True
  | _ => False

/-- The instructions that read memory (R65). -/
def ReadsMemory : Instr → Prop
  | .load _ _ => True
  | .load2 _ _ => True
  | .loadr _ _ _ => True
  | .loadr2 _ _ _ => True
  | .pop _ _ => True
  | .ret _ => True
  | _ => False

/-- SYSCALL, the one instruction that reaches the host (R60). -/
def IsSyscall : Instr → Prop
  | .syscall _ _ => True
  | _ => False

/-- The instruction names a pair that starts at register 15 (60_exceptions.md R334, the raisers of InvalidReg). -/
def NamesInvalidPair : Instr → Prop
  | .mul rd _ _ => rd = 15
  | .muli rd _ => rd = 15
  | .div rd _ _ => rd = 15
  | .divi rd _ => rd = 15
  | .addd rd rs => rd = 15 ∨ rs = 15
  | .subd rd rs => rd = 15 ∨ rs = 15
  | .muld rd rs => rd = 15 ∨ rs = 15
  | .divd rd rs => rd = 15 ∨ rs = 15
  | .itod rd _ => rd = 15
  | .dtoi _ rs => rs = 15
  | .load2 rd _ => rd = 15
  | .store2 rd _ => rd = 15
  | .loadr2 rd _ _ => rd = 15
  | .storer2 rd _ _ => rd = 15
  | .syscall rd code => rd = 15 ∧ (code = 101 ∨ code = 103)
  | _ => False

/-- DIV and DIVI, the raisers of DivByZero (R334). -/
def IsDivide : Instr → Prop
  | .div _ _ _ => True
  | .divi _ _ => True
  | _ => False

/-- DTOI, the raiser of RegOverflow (R334). -/
def IsDtoi : Instr → Prop
  | .dtoi _ _ => True
  | _ => False

/-! What label resolution does to the words. -/

/-- `words` is `a.words` with the labels of `uses` resolved (30_encoding.md R124): every use names a declared label whose
address fits, and a bit is set exactly where it was set before or a label used at that word's address sets it. So every
set bit stays set, and a word that no use names stays what it was. -/
structure Assembly.Resolved (a : Assembly) (uses : List LabelUse) (words : List Word) : Prop where
  length : words.length = a.words.length
  kept : ∀ i, words.getD i 0 ||| a.words.getD i 0 = words.getD i 0
  others : ∀ i, (∀ u ∈ uses, u.address ≠ i) → words.getD i 0 = a.words.getD i 0
  declared : ∀ u ∈ uses, ∃ v, a.lookup u.name = some v ∧ v < 2 ^ u.bits
  bits : ∀ i j, i < a.words.length → ((words.getD i 0).getLsbD j = true ↔ (a.words.getD i 0).getLsbD j = true ∨
    ∃ u ∈ uses, u.address = i ∧ ∃ v, a.lookup u.name = some v ∧ (BitVec.ofNat 32 v).getLsbD j = true)

/-- The label `u` uses is undeclared, or its address does not fit the field. -/
def Assembly.Unresolvable (a : Assembly) (u : LabelUse) : Prop :=
  ∀ v, a.lookup u.name = some v → 2 ^ u.bits ≤ v

/-! Invariants. -/

/-- Memory keeps its canonical form: addresses rise, no listed byte is 0, every address is inside the 2^22 bytes
(10_state.md R30: "memory length is always `MemorySize * 4` bytes"). -/
def CanonicalMemory (s : State) : Prop := Memory.wf s.mem

/-- EQUALITY and MAJORITY are not both set: "The combination (1, 1) is never produced by CMP or CMPI" (45_compare.md
R250). -/
def FlagsExclusive (s : State) : Prop := ¬ (equality s.flags = true ∧ majority s.flags = true)

end Sys2Proof.Machine
end

