-- ==== Sys2Proof/Certificates/Slice0/Obligations.lean ====
section
/-! DEFINITION. The statements for the provers. Each docstring names the rule of spec/ it formalises; where a clause rests
on a decision of the spec's own (92_eei_decisions.md) or on the model's (a log entry), the docstring says so. -/

open Sys2Proof Sys2Proof.Machine

/-! ## Encoding -/

/-- 30_encoding.md sections 1 to 3, under every opcode map that gives no number twice (D1; its default: log entry 7): every
well-formed instruction, at every operand value its encoding admits, decodes from the word the encoder writes, and from
that word's four bytes. -/
def Obligations.EncodedInstructionDecodesToItself : Prop :=
  ∀ (m : OpcodeMap) (i : Instr), m.wf → i.WellFormed →
    decodeWith m (encodeWith m i) = .ok i ∧
      ∀ rest, decodeBytesWith m (bytesOfWord (encodeWith m i) ++ rest) = .ok (i, rest)

/-- 30_encoding.md R95, R98, R99 (unused bits: D4), under every opcode map: a word that decodes gives a well-formed
instruction, whose encoding is the word with the bits its operation does not use cleared. -/
def Obligations.DecodedWordReencodes : Prop :=
  ∀ (m : OpcodeMap) (w : Word) (i : Instr), decodeWith m w = .ok i →
    i.WellFormed ∧ encodeWith m i = w &&& usedBits i.op

/-- 30_encoding.md R98, R100: a word is rejected, by the name of its opcode, exactly when the opcode map has no operation
for it, and under the default map (D1, D23, log entry 7) those opcodes are the ones that R100 lists. -/
def Obligations.UndefinedOpcodesAreRejected : Prop :=
  (∀ (m : OpcodeMap) (w : Word),
    (UndefinedIn m (opcodeOf w) → decodeWith m w = .error (.undefinedOpcode (opcodeOf w))) ∧
    (¬ UndefinedIn m (opcodeOf w) → ∃ i, decodeWith m w = .ok i)) ∧
  ∀ n : Byte, UndefinedIn defaultOpcodeMap n ↔ UndefinedOpcode n.toNat

/-- A sanity check of the decoder on words written out from 30_encoding.md R91 to R94 and R97, one for each format. It rests
on the default opcode numbers (D1, log entry 7, PRESUMED) and on the spec's own decisions for field places (D2), address
extension (D3), HALT's layout (D5) and ignored bits (R99, D4; CMP's imm16 D28), log entries 11 and 24. -/
def Obligations.WrittenOutWordsDecode : Prop :=
  decode 0x030FFFFF = .ok (.addi 0 0xFFFFFFFF) ∧ decode 0x4512FFFF = .ok (.storer 1 2 0xFFFFFFFF) ∧
    decode 0x42E000C8 = .ok (.load2 14 200) ∧ decode 0x2EFFFFFF = .ok (.jmp 0xFFFFF) ∧
    decode 0x2B010005 = .ok (.cmp 0 1) ∧ decode 0x00ABCDEF = .ok .halt

/-! ## Steps, outcomes, runs -/

/-- 60_exceptions.md R331 and the step tail of R332 (on every result: D16; held: log entry 4): when the word at IP
decodes to `i`, a step is `exec` of `i`, then IP plus 1; the plus 1 is left out while the step is held in a read. -/
def Obligations.StepRunsTheDecodedInstruction : Prop :=
  ∀ (s t : State) (i : Instr), Runs s → decodeWith s.cfg.opcodeMap (s.memRead s.ip) = .ok i →
    exec i { s with result := .continued } = .next t →
    step s = .next (if t.result = .held then t else t.setReg 15 (t.reg 15 + 1))

/-- 60_exceptions.md R336: an undefined opcode ends the step with Error and changes nothing but IP. That IP is incremented
after an Error is the decision D16 (log entry 18); which opcodes are undefined is the opcode map's (D1, D23, log entry
7). -/
def Obligations.UndefinedOpcodeStepIsError : Prop :=
  ∀ s : State, Runs s → UndefinedIn s.cfg.opcodeMap (opcodeOf (s.memRead s.ip)) →
    ∃ t, step s = .next t ∧ t.result = .error ∧ t.ip = s.ip + 1 ∧ SameRegsBut s t [15] ∧ t.flags = s.flags ∧
      SameMem s t ∧ SameHost s t ∧ t.draws = s.draws ∧ t.cfg = s.cfg

/-- 60_exceptions.md section 3 (R339, R340) and 20_memory.md section 5 (R77, D22); that an ended run answers `runEnded` is
the model's choice (log entry 2): a step stops exactly where the run has ended or the addressing is the bounds-checked
one, under the name that says which, and the run loop stays there. -/
def Obligations.StepsStopOnlyAtEndedRunsAndTheCheckedMode : Prop :=
  (∀ (s : State) (k : Nat), s.result.ended = true → step s = .fault (.runEnded s.result) ∧ run k s = s) ∧
  (∀ (s : State) (k : Nat), s.result.ended = false → s.cfg.addressing = .checked →
    step s = .refused .checkedAddressing ∧ run k s = s) ∧
  (∀ s : State, Runs s → ∃ t, step s = .next t)

/-- 60_exceptions.md section 3 (R340): the run loop calls `step` while the result is Continue, going on from the state a step
answers (a held read is stepped again: log entry 4), and stops at the first other result, and runs of `j` and then `k`
steps join into one. -/
def Obligations.RunLoopStopsAtTheFirstOutcome : Prop :=
  (∀ (s t : State) (k : Nat), step s = .next t → run (k + 1) s = run k t) ∧
    (∀ (s t : State) (k : Nat), step s = .next t → t.result.ended = true → run (k + 1) s = t) ∧
    ∀ (s : State) (j k : Nat), run (j + k) s = run k (run j s)

/-- 10_state.md R47: after construction, whatever the machine's parameters, every register, SP and IP included, the flags and
every memory word are 0. That the reset state is the constructed state at the defaults of R10 is the model's choice (log
entries 5 and 29, DESIGN CHOICE). -/
def Obligations.ConstructedStateIsZero : Prop :=
  State.reset = State.construct defaultParams ∧
    ∀ cfg : Params, (∀ r, (State.construct cfg).reg r = 0) ∧ (State.construct cfg).sp = 0 ∧
      (State.construct cfg).ip = 0 ∧ (State.construct cfg).flags = 0 ∧
      equality (State.construct cfg).flags = false ∧ majority (State.construct cfg).flags = false ∧
      ∀ a, (State.construct cfg).memRead a = 0

/-- 70_reset_and_hazards.md section 1 (R372, derived there): a freshly constructed state run without loading executes
HALT at address 0 and ends at once, with IP = 1 and everything else 0. -/
def Obligations.UnloadedMachineHaltsAtOnce : Prop :=
  ∃ t, step State.reset = .next t ∧ t.result = .terminate ∧ t.ip = 1 ∧ SameRegsBut State.reset t [15] ∧
    t.flags = 0 ∧ SameMem State.reset t ∧ EndsWell t ∧ ∀ k, run (k + 1) State.reset = t

/-! ## Invariants and rules about the whole machine -/

/-- 10_state.md R30 ("memory length is always `MemorySize * 4` bytes") and the canonical form of the model's memory (log
entry 1): every step keeps it. -/
def Obligations.EveryStepKeepsMemoryCanonical : Prop :=
  ∀ s t : State, CanonicalMemory s → step s = .next t → CanonicalMemory t

/-- The reset state has the invariant (10_state.md R47, log entry 1), and so has every constructed state and every loaded
raw image. -/
def Obligations.LaunchStatesAreCanonical : Prop :=
  CanonicalMemory State.reset ∧ (∀ cfg, CanonicalMemory (State.construct cfg)) ∧
    ∀ cfg image s, loadRawState cfg image = .ok s → CanonicalMemory s

/-- 45_compare.md and 10_state.md section 4 (R250; bits 7:2: D14): a step never makes (EQUALITY, MAJORITY) = (1, 1)
where it was not, and never changes bits 7:2 of the flags. -/
def Obligations.StepsKeepTheFlagsExclusive : Prop :=
  ∀ s t : State, step s = .next t →
    (FlagsExclusive s → FlagsExclusive t) ∧ t.flags.extractLsb' 2 6 = s.flags.extractLsb' 2 6

/-- 10_state.md R43: only CMP and CMPI write the flags, and only the conditional jumps read them: any other instruction
does the same whatever the flags are, and the conditional jumps read bits 0 and 1 alone. -/
def Obligations.ComparesWriteAndJumpsReadTheFlags : Prop :=
  (∀ (i : Instr) (s t : State), exec i s = .next t → ¬ IsCompare i → t.flags = s.flags) ∧
    (∀ (i : Instr) (s t : State) (f : Byte), exec i s = .next t → ¬ IsCompare i → ¬ IsConditionalJump i →
      exec i { s with flags := f } = .next { t with flags := f }) ∧
    (∀ (i : Instr) (s t : State) (f : Byte), exec i s = .next t → IsCompare i →
      ∃ g, exec i { s with flags := f } = .next { t with flags := g } ∧ equality g = equality t.flags ∧
        majority g = majority t.flags) ∧
    (∀ (i : Instr) (s t : State) (f : Byte), exec i s = .next t → IsConditionalJump i →
      equality f = equality s.flags → majority f = majority s.flags →
      exec i { s with flags := f } = .next { t with flags := f })

/-- 20_memory.md R65: no instruction but the stores, PUSH, CALL and CALLI writes memory, and no instruction but those,
the loads, POP and RET does anything that depends on what memory holds (an engine fault's record holds the word that was
fetched). -/
def Obligations.OnlyListedInstructionsReachMemory : Prop :=
  (∀ (i : Instr) (s t : State), exec i s = .next t → ¬ WritesMemory i → SameMem s t) ∧
    (∀ (i : Instr) (s t : State) (m : Memory), exec i s = .next t → ¬ WritesMemory i → ¬ ReadsMemory i →
      ¬ IsEngineFault t.result → exec i { s with mem := m } = .next { t with mem := m })

/-- 20_memory.md section 1 (R60), 10_state.md section 1 (R31) and 60_exceptions.md sections 1 and 5 (R330; streams as lists
and parameters held beside the State: log entries 3, 5). Only SYSCALL reaches the host's streams: any other instruction
leaves them as they are and does the same whatever they are. A step takes input from the front only, output is only
appended, and the parameters stay as the machine was built. A step is the spec's `step(state, input, output)`: it is given
by the State of R31, the streams beside it, the parameters and the number of the next draw, and by nothing else. -/
def Obligations.OnlySyscallReachesTheHost : Prop :=
  (∀ (i : Instr) (s t : State), exec i s = .next t → ¬ IsSyscall i → SameHost s t) ∧
    (∀ (i : Instr) (s t : State) (streams : HostStreams), exec i s = .next t → ¬ IsSyscall i →
      exec i { s with toHostStreams := streams } = .next { t with toHostStreams := streams }) ∧
    (∀ s t : State, step s = .next t →
      t.inInts <:+ s.inInts ∧ t.inDoubles <:+ s.inDoubles ∧ t.inChars <:+ s.inChars ∧ s.output <+: t.output ∧
      t.cfg = s.cfg) ∧
    ∀ s t : State, Runs s → (step s = .next t ↔
      t.cfg = s.cfg ∧ coreStep s.cfg s.draws s.toCoreState s.toHostStreams = .next t.answer)

/-- 60_exceptions.md R334: InvalidReg is raised exactly by the pair instructions whose pair starts at register 15,
DivByZero by DIV and DIVI only, RegOverflow by DTOI only, InvalidMem by nothing, each as its engine fault. -/
def Obligations.ExceptionsHaveTheirRaisersAndClasses : Prop :=
  ∀ (i : Instr) (s t : State), s.result = .continued → exec i s = .next t →
    ((∃ r, t.result = .invalidStateFault r) ↔ NamesInvalidPair i) ∧
    (∀ r, t.result = .invalidStateFault r → r.exception = .invalidReg) ∧
    (∀ r, t.result = .machineFault r →
      (r.exception = .divByZero ∧ IsDivide i) ∨ (r.exception = .regOverflow ∧ IsDtoi i))

/-- 60_exceptions.md section 2 (R335; writes nothing, records address and word: D17): an instruction that ends in an
engine fault changes nothing but the outcome, which names the instruction's own address and word. -/
def Obligations.FaultsArePreciseAndRecorded : Prop :=
  ∀ (i : Instr) (s t : State), s.result = .continued → exec i s = .next t → IsEngineFault t.result →
    t = { s with result := t.result } ∧
      ∃ e, t.result = engineFault e { exception := e, address := s.ip, word := s.memRead s.ip }

/-! ## Memory -/

/-- 20_memory.md R63: MemRead and MemWrite are reads and writes of `mem[uint(a[19:0])]`, and always succeed: a word
written reads back at every address with the same low 20 bits, and every other word reads as before. -/
def Obligations.WordReadsBackAtItsLowTwentyBits : Prop :=
  ∀ (s : State) (a b v : Word), (s.memWrite a v).memRead b =
    if a.extractLsb' 0 20 = b.extractLsb' 0 20 then v else s.memRead b

/-- 20_memory.md section 1 (R62; negative addresses: D21): every address acts as itself modulo 2^20. -/
def Obligations.AddressesAreModular : Prop :=
  ∀ (s : State) (a v : Word), s.memRead a = s.memRead (BitVec.ofNat 32 (a.toNat % 2 ^ 20)) ∧
    s.memWrite a v = s.memWrite (BitVec.ofNat 32 (a.toNat % 2 ^ 20)) v

/-- 20_memory.md R67: word `i` occupies bytes `4i` (bits 31:24) to `4i+3` (bits 7:0), and a store of it writes no other
byte. -/
def Obligations.WordsAreBigEndianInMemory : Prop :=
  ∀ (m : Memory) (i : Nat) (v : Word), Memory.readWord m i =
      Memory.readByte m (4 * i) ++ Memory.readByte m (4 * i + 1) ++ Memory.readByte m (4 * i + 2) ++
        Memory.readByte m (4 * i + 3) ∧
    Memory.readByte (Memory.writeWord m i v) (4 * i) = v.extractLsb' 24 8 ∧
    Memory.readByte (Memory.writeWord m i v) (4 * i + 1) = v.extractLsb' 16 8 ∧
    Memory.readByte (Memory.writeWord m i v) (4 * i + 2) = v.extractLsb' 8 8 ∧
    Memory.readByte (Memory.writeWord m i v) (4 * i + 3) = v.extractLsb' 0 8 ∧
    ∀ a, a < 4 * i ∨ 4 * i + 4 ≤ a → Memory.readByte (Memory.writeWord m i v) a = Memory.readByte m a

/-! ## Integer arithmetic and register load -/

/-- 41_integer_arith.md R150 to R153: ADD, ADDI, SUB and SUBI complete in every state, write `x[d]` and nothing else. -/
def Obligations.AddAndSubtractWriteOneRegister : Prop :=
  ∀ (s : State) (rd rs : Reg) (imm : Word),
    (∃ t, exec (.add rd rs imm) s = .next t ∧ RegWritten s t rd (s.reg rd + (s.reg rs + imm))) ∧
    (∃ t, exec (.addi rd imm) s = .next t ∧ RegWritten s t rd (s.reg rd + imm)) ∧
    (∃ t, exec (.sub rd rs imm) s = .next t ∧ RegWritten s t rd (s.reg rd - (s.reg rs + imm))) ∧
    (∃ t, exec (.subi rd imm) s = .next t ∧ RegWritten s t rd (s.reg rd - imm))

/-- 41_integer_arith.md R154 to R156: MUL and MULI write the exact signed 64-bit product to a valid pair and nothing
else; a pair at register 15 raises InvalidReg and nothing is written. -/
def Obligations.MultiplyWritesTheSignedProduct : Prop :=
  (∀ (s : State) (rd hi rs : Reg) (imm : Word), hi.val = rd.val + 1 →
    (∃ t, exec (.mul rd rs imm) s = .next t ∧ ∃ p : DWord,
      p.toInt = (s.reg rd).toInt * (s.reg rs + imm).toInt ∧
      PairWritten s t rd hi (p.extractLsb' 0 32) (p.extractLsb' 32 32)) ∧
    (∃ t, exec (.muli rd imm) s = .next t ∧ ∃ p : DWord,
      p.toInt = (s.reg rd).toInt * imm.toInt ∧
      PairWritten s t rd hi (p.extractLsb' 0 32) (p.extractLsb' 32 32))) ∧
  (∀ (s : State) (rs : Reg) (imm : Word),
    (∃ t, exec (.mul 15 rs imm) s = .next t ∧ ExceptionTaken s t .invalidReg) ∧
    (∃ t, exec (.muli 15 imm) s = .next t ∧ ExceptionTaken s t .invalidReg))

/-- 41_integer_arith.md section 4 (R157 to R160; dividend D9, rounding and fit D10, DIV's imm16 D33): DIV and DIVI on a
valid pair follow the division law, with divisor `x[s]` (or `x[s] + imm16` under `DIV_IMM16 = added`) or `imm20`; a pair
at register 15 raises InvalidReg, whatever the divisor. -/
def Obligations.DivideFollowsTheDivisionLaw : Prop :=
  (∀ (s : State) (rd hi rs : Reg) (imm : Word), hi.val = rd.val + 1 →
    (∃ t, exec (.div rd rs imm) s = .next t ∧
      DivisionLaw s t rd hi (if s.cfg.divImm16 = .added then s.reg rs + imm else s.reg rs)) ∧
    (∃ t, exec (.divi rd imm) s = .next t ∧ DivisionLaw s t rd hi imm)) ∧
  (∀ (s : State) (rs : Reg) (imm : Word),
    (∃ t, exec (.div 15 rs imm) s = .next t ∧ ExceptionTaken s t .invalidReg) ∧
    (∃ t, exec (.divi 15 imm) s = .next t ∧ ExceptionTaken s t .invalidReg))

/-- The quotient and remainder that exist are written: where the divisor is not 0 and the quotient fits, DIV and DIVI
complete with their own effect (41_integer_arith.md section 4, D9, D10, D33). -/
def Obligations.DivideCompletesWhenTheQuotientFits : Prop :=
  ∀ (s : State) (rd hi rs : Reg) (imm v : Word) (q r : Int), hi.val = rd.val + 1 → v ≠ 0 →
    dividendValue s.cfg.divDividend (s.reg rd) (s.reg hi) = v.toInt * q + r → r.natAbs < v.toInt.natAbs →
    (r ≠ 0 → (0 < r ↔ 0 < dividendValue s.cfg.divDividend (s.reg rd) (s.reg hi))) →
    -2147483648 ≤ q → q ≤ 2147483647 →
    ((if s.cfg.divImm16 = .added then s.reg rs + imm else s.reg rs) = v →
      ∃ t, exec (.div rd rs imm) s = .next t ∧ PairWritten s t rd hi (BitVec.ofInt 32 q) (BitVec.ofInt 32 r)) ∧
    (imm = v →
      ∃ t, exec (.divi rd imm) s = .next t ∧ PairWritten s t rd hi (BitVec.ofInt 32 q) (BitVec.ofInt 32 r))

/-- 42_register_load.md R180, R181: LC and MOV complete in every state, write `x[d]` and nothing else. -/
def Obligations.LoadConstantAndMoveWriteOneRegister : Prop :=
  ∀ (s : State) (rd rs : Reg) (imm : Word),
    (∃ t, exec (.lc rd imm) s = .next t ∧ RegWritten s t rd imm) ∧
    (∃ t, exec (.mov rd rs imm) s = .next t ∧ RegWritten s t rd (s.reg rs + imm))

/-! ## Shifts and logic -/

/-- 43_shift_logic.md R192, R193: SHL and SHLI, for a count `c` in 0..31, write the low 32 bits of `x[d] * 2^c`; for any
other count they write the free value `SHIFT_OOB`. Nothing else changes (but the model's draw counter, log entry 8). -/
def Obligations.LeftShiftsMultiplyByAPowerOfTwo : Prop :=
  ∀ (s : State) (rd rs : Reg) (imm : Word),
    (0 ≤ (s.reg rs + imm).toInt ∧ (s.reg rs + imm).toInt ≤ 31 →
      ∃ t v, exec (.shl rd rs imm) s = .next t ∧ RegWritten s t rd v ∧
        v.toNat = (s.reg rd).toNat * 2 ^ (s.reg rs + imm).toNat % 2 ^ 32) ∧
    (¬ (0 ≤ (s.reg rs + imm).toInt ∧ (s.reg rs + imm).toInt ≤ 31) →
      ∃ t, exec (.shl rd rs imm) s = .next t ∧
        DrawWritten s t rd (Config.shiftOob s.draws .shl (s.reg rd) (s.reg rs + imm))) ∧
    (0 ≤ imm.toInt ∧ imm.toInt ≤ 31 →
      ∃ t v, exec (.shli rd imm) s = .next t ∧ RegWritten s t rd v ∧
        v.toNat = (s.reg rd).toNat * 2 ^ imm.toNat % 2 ^ 32) ∧
    (¬ (0 ≤ imm.toInt ∧ imm.toInt ≤ 31) →
      ∃ t, exec (.shli rd imm) s = .next t ∧
        DrawWritten s t rd (Config.shiftOob s.draws .shli (s.reg rd) imm))

/-- 43_shift_logic.md R194, R195: SHR and SHRI, for a count in 0..31, write the shift that `SHR_KIND` names; for any other
count the free value `SHIFT_OOB`. Nothing else changes (but the model's draw counter, log entry 8). -/
def Obligations.RightShiftsDivideByAPowerOfTwo : Prop :=
  ∀ (s : State) (rd rs : Reg) (imm : Word),
    (0 ≤ (s.reg rs + imm).toInt ∧ (s.reg rs + imm).toInt ≤ 31 →
      ∃ t v, exec (.shr rd rs imm) s = .next t ∧ RegWritten s t rd v ∧
        RightShifted s.cfg.shrKind (s.reg rd) v (s.reg rs + imm).toNat) ∧
    (¬ (0 ≤ (s.reg rs + imm).toInt ∧ (s.reg rs + imm).toInt ≤ 31) →
      ∃ t, exec (.shr rd rs imm) s = .next t ∧
        DrawWritten s t rd (Config.shiftOob s.draws .shr (s.reg rd) (s.reg rs + imm))) ∧
    (0 ≤ imm.toInt ∧ imm.toInt ≤ 31 →
      ∃ t v, exec (.shri rd imm) s = .next t ∧ RegWritten s t rd v ∧
        RightShifted s.cfg.shrKind (s.reg rd) v imm.toNat) ∧
    (¬ (0 ≤ imm.toInt ∧ imm.toInt ≤ 31) →
      ∃ t, exec (.shri rd imm) s = .next t ∧
        DrawWritten s t rd (Config.shiftOob s.draws .shri (s.reg rd) imm))

/-- 43_shift_logic.md R197 to R202: AND, OR, XOR and their immediate forms complete in every state and write, bit by bit,
`x[d]` with `x[s] + imm16` or `imm20`, and nothing else. -/
def Obligations.LogicIsBitwiseOnOneRegister : Prop :=
  ∀ (s : State) (rd rs : Reg) (imm : Word),
    (∃ t, exec (.and rd rs imm) s = .next t ∧ BitwiseWritten s t rd (s.reg rs + imm) (fun x y => x && y)) ∧
    (∃ t, exec (.andi rd imm) s = .next t ∧ BitwiseWritten s t rd imm (fun x y => x && y)) ∧
    (∃ t, exec (.or rd rs imm) s = .next t ∧ BitwiseWritten s t rd (s.reg rs + imm) (fun x y => x || y)) ∧
    (∃ t, exec (.ori rd imm) s = .next t ∧ BitwiseWritten s t rd imm (fun x y => x || y)) ∧
    (∃ t, exec (.xor rd rs imm) s = .next t ∧ BitwiseWritten s t rd (s.reg rs + imm) (fun x y => x != y)) ∧
    (∃ t, exec (.xori rd imm) s = .next t ∧ BitwiseWritten s t rd imm (fun x y => x != y))

/-- 43_shift_logic.md section 3 (R203; format: D5): NOT complements every bit of `x[d]` and changes nothing else, and
done twice it gives `x[d]` back. -/
def Obligations.NotComplementsOneRegister : Prop :=
  ∀ (s : State) (rd : Reg), ∃ t, exec (.not rd) s = .next t ∧ BitwiseWritten s t rd 0 (fun x _ => !x) ∧
    ∃ u, exec (.not rd) t = .next u ∧ u.regs = s.regs

/-! ## Floating point -/

/-- 44_float.md sections 1 and 2 (R221, R224 to R227; rounding and NaN draws D12, imm16 unused D28): the double operations
complete in every state with valid pairs, read both operands before writing, and write pair `d` alone. -/
def Obligations.DoubleOperationsWriteOnePair : Prop :=
  ∀ (s : State) (rd dhi rs shi : Reg), dhi.val = rd.val + 1 → shi.val = rs.val + 1 →
    (∃ t, exec (.addd rd rs) s = .next t ∧ FpResultWritten .addd s t rd dhi rs shi) ∧
    (∃ t, exec (.subd rd rs) s = .next t ∧ FpResultWritten .subd s t rd dhi rs shi) ∧
    (∃ t, exec (.muld rd rs) s = .next t ∧ FpResultWritten .muld s t rd dhi rs shi) ∧
    (∃ t, exec (.divd rd rs) s = .next t ∧ FpResultWritten .divd s t rd dhi rs shi)

/-- 44_float.md R221: a pair that starts at register 15 raises InvalidReg in every float instruction that names it, and
nothing is written. -/
def Obligations.FloatPairsAreChecked : Prop :=
  ∀ (s : State) (rd rs : Reg),
    (rd = 15 ∨ rs = 15 →
      (∃ t, exec (.addd rd rs) s = .next t ∧ ExceptionTaken s t .invalidReg) ∧
      (∃ t, exec (.subd rd rs) s = .next t ∧ ExceptionTaken s t .invalidReg) ∧
      (∃ t, exec (.muld rd rs) s = .next t ∧ ExceptionTaken s t .invalidReg) ∧
      (∃ t, exec (.divd rd rs) s = .next t ∧ ExceptionTaken s t .invalidReg)) ∧
    (∃ t, exec (.itod 15 rs) s = .next t ∧ ExceptionTaken s t .invalidReg) ∧
    (∃ t, exec (.dtoi rd 15) s = .next t ∧ ExceptionTaken s t .invalidReg)

/-- 44_float.md section 1 (R222, D12): the result of a double operation on finite operands, where finite, is nearest to
the exact result among all finite doubles, and of two equally near the one with an even significand; it is an infinity
of the exact result's sign exactly from half a unit past the largest finite double on. -/
def Obligations.DoubleResultsAreNearestTiesToEven : Prop :=
  ∀ (op : FpOp) (a b r : DWord), FiniteDouble a → FiniteDouble b → (op = .divd → Fp.isZero b = false) →
    Fp.eval op a b = some r →
    (FiniteDouble r ↔ (exactResult op a b).1.natAbs < overflowBound * (exactResult op a b).2.natAbs) ∧
    (FiniteDouble r → ∀ c, FiniteDouble c →
      distance r (exactResult op a b) ≤ distance c (exactResult op a b) ∧
      (distance r (exactResult op a b) = distance c (exactResult op a b) → Fp.value c ≠ Fp.value r →
        r.getLsbD 0 = false)) ∧
    (¬ FiniteDouble r → Fp.isInf r = true ∧
      (Fp.sign r = true ↔ (exactResult op a b).1 * (exactResult op a b).2 < 0))

/-- 44_float.md section 1 (R223, D12): a double operation's result is a NaN exactly in the invalid cases, and a result
that is no NaN draw is never a NaN pattern. -/
def Obligations.NaNsComeFromInvalidOperations : Prop :=
  ∀ (op : FpOp) (a b : DWord), (Fp.eval op a b = none ↔ InvalidOperation op a b) ∧
    ∀ r, Fp.eval op a b = some r → Fp.isNaN r = false

/-- 44_float.md sections 1 and 2 (R222, D12): signs of zeros and infinities. A product's and a quotient's sign is the
exclusive or of the signs, a finite value over a zero and an infinity over a finite value are infinities, a finite value
over an infinity is a zero, an exact zero sum is +0 unless both operands are negative zeros, and an exact zero difference
(R225: `s = d`) is +0 unless the left operand is -0 and the right +0. -/
def Obligations.ZerosAndInfinitiesHaveIeeeSigns : Prop :=
  ∀ a b r : DWord,
    (Fp.mul a b = some r → Fp.sign r = (Fp.sign a != Fp.sign b)) ∧
    (Fp.div a b = some r → Fp.sign r = (Fp.sign a != Fp.sign b)) ∧
    (Fp.div a b = some r → Fp.isZero b = true ∨ Fp.isInf a = true → Fp.isInf r = true) ∧
    (Fp.div a b = some r → FiniteDouble a → Fp.isInf b = true → Fp.isZero r = true) ∧
    (Fp.add a b = some r → FiniteDouble a → FiniteDouble b → Fp.value a + Fp.value b = 0 →
      Fp.isZero r = true ∧ (Fp.sign r = true ↔ Fp.sign a = true ∧ Fp.sign b = true)) ∧
    (Fp.add a b = some r → Fp.isInf a = true → r = a) ∧
    (Fp.add a b = some r → Fp.isInf b = true → r = b) ∧
    (Fp.sub a b = some r → FiniteDouble a → FiniteDouble b → Fp.value a - Fp.value b = 0 →
      Fp.isZero r = true ∧ (Fp.sign r = true ↔ Fp.sign a = true ∧ Fp.sign b = false)) ∧
    (Fp.sub a b = some r → Fp.isInf a = true → r = a) ∧
    (Fp.sub a b = some r → Fp.isInf b = true → Fp.isInf r = true ∧ Fp.sign r = !Fp.sign b) ∧
    (Fp.mul a b = some r → Fp.isInf a = true ∨ Fp.isInf b = true → Fp.isInf r = true)

/-- 44_float.md section 3 (R228; imm16 unused D28, exactness G4): ITOD on a valid pair writes the double whose value is
exactly the integer, +0.0 for 0, and nothing else. -/
def Obligations.IntegerToDoubleIsExact : Prop :=
  ∀ (s : State) (rd hi rs : Reg), hi.val = rd.val + 1 →
    ∃ t r, exec (.itod rd rs) s = .next t ∧ PairWritten s t rd hi (r.extractLsb' 0 32) (r.extractLsb' 32 32) ∧
      FiniteDouble r ∧ Fp.value r = (s.reg rs).toInt * Fp.one ∧ (s.reg rs = 0 → r = 0)

/-- 44_float.md section 3 (R229; rounding, boundary and NaN draw D13): DTOI on a valid pair writes the value truncated
toward zero where the magnitude is at most 2147483647, raises RegOverflow above it (infinities too) with nothing written,
and writes a free value for a NaN. -/
def Obligations.DoubleToIntegerTruncates : Prop :=
  ∀ (s : State) (rd rs hi : Reg) (a : DWord), hi.val = rs.val + 1 → a = s.reg hi ++ s.reg rs →
    (FiniteDouble a → Fp.mag a ≤ 2147483647 * Fp.one → ∃ t v, exec (.dtoi rd rs) s = .next t ∧ RegWritten s t rd v ∧
      v.toInt.natAbs * Fp.one ≤ Fp.mag a ∧ Fp.mag a < (v.toInt.natAbs + 1) * Fp.one ∧
      (v ≠ 0 → (v.toInt < 0 ↔ Fp.sign a = true))) ∧
    ((FiniteDouble a ∧ 2147483647 * Fp.one < Fp.mag a) ∨ Fp.isInf a = true →
      ∃ t, exec (.dtoi rd rs) s = .next t ∧ ExceptionTaken s t .regOverflow) ∧
    (Fp.isNaN a = true → ∃ t, exec (.dtoi rd rs) s = .next t ∧ DrawWritten s t rd (Config.dtoiNan s.draws a))

/-! ## Compare, jumps -/

/-- 45_compare.md (R250 to R252; bits 7:2 kept D14, CMP's imm16 unused D28): CMP and CMPI complete in every state, set
EQUALITY exactly when the operands are equal and MAJORITY exactly when left < right as signed words, keep bits 7:2 and
change nothing else. -/
def Obligations.ComparesWriteTwoFlagBits : Prop :=
  ∀ (s : State) (rd rs : Reg) (imm : Word),
    (∃ t, exec (.cmp rd rs) s = .next t ∧ OnlyFlags s t ∧
      (t.flags.getLsbD 0 = true ↔ (s.reg rd).toInt = (s.reg rs).toInt) ∧
      (t.flags.getLsbD 1 = true ↔ (s.reg rd).toInt < (s.reg rs).toInt) ∧
      t.flags.extractLsb' 2 6 = s.flags.extractLsb' 2 6) ∧
    (∃ t, exec (.cmpi rd imm) s = .next t ∧ OnlyFlags s t ∧
      (t.flags.getLsbD 0 = true ↔ (s.reg rd).toInt = imm.toInt) ∧
      (t.flags.getLsbD 1 = true ↔ (s.reg rd).toInt < imm.toInt) ∧
      t.flags.extractLsb' 2 6 = s.flags.extractLsb' 2 6)

/-- 48_jumps.md R281, R282, R283, R284, R286, R287: the jumps complete in every state, jump on exactly their condition of
EQUALITY (bit 0) and MAJORITY (bit 1), and change nothing but IP. -/
def Obligations.JumpsFollowTheirConditions : Prop :=
  ∀ (s : State) (addr : Word),
    (∃ t, exec (.jmp addr) s = .next t ∧ JumpLaw s t True addr) ∧
    (∃ t, exec (.jne addr) s = .next t ∧ JumpLaw s t (s.flags.getLsbD 0 = false) addr) ∧
    (∃ t, exec (.jeq addr) s = .next t ∧ JumpLaw s t (s.flags.getLsbD 0 = true) addr) ∧
    (∃ t, exec (.jle addr) s = .next t ∧
      JumpLaw s t (s.flags.getLsbD 1 = true ∨ s.flags.getLsbD 0 = true) addr) ∧
    (∃ t, exec (.jge addr) s = .next t ∧
      JumpLaw s t (s.flags.getLsbD 1 = false ∨ s.flags.getLsbD 0 = true) addr) ∧
    (∃ t, exec (.jg addr) s = .next t ∧
      JumpLaw s t (s.flags.getLsbD 1 = false ∧ s.flags.getLsbD 0 = false) addr)

/-- 48_jumps.md (R285, D15): JL is never taken under `reference_noop`, and under `intended` exactly on MAJORITY and not
EQUALITY; it completes in every state and changes nothing but IP. -/
def Obligations.JumpLessFollowsItsMode : Prop :=
  ∀ (s : State) (addr : Word), ∃ t, exec (.jl addr) s = .next t ∧
    (s.cfg.jlMode = .referenceNoop → t = s) ∧
    (s.cfg.jlMode = .intended → JumpLaw s t (s.flags.getLsbD 1 = true ∧ s.flags.getLsbD 0 = false) addr)

/-- 45_compare.md, 48_jumps.md section 1 (R288) and 60_exceptions.md section 1 (tail D16, JL D15): a conditional jump right
after CMP of `a` and `b` goes to its target exactly when the order it names holds between them as signed words (JLE, JL
under `intended`, JGE, JG) or when they are equal (JEQ) or not (JNE), and to the next word otherwise. -/
def Obligations.CompareThenJumpDecidesTheOrder : Prop :=
  ∀ (s t : State) (rd rs : Reg) (addr : Word), exec (.cmp rd rs) s = .next t → s.result = .continued →
    (∃ u, exec (.jle addr) t.tail = .next u ∧
      u.tail.ip = if (s.reg rd).toInt ≤ (s.reg rs).toInt then addr else s.ip + 2) ∧
    (s.cfg.jlMode = .intended → ∃ u, exec (.jl addr) t.tail = .next u ∧
      u.tail.ip = if (s.reg rd).toInt < (s.reg rs).toInt then addr else s.ip + 2) ∧
    (∃ u, exec (.jge addr) t.tail = .next u ∧
      u.tail.ip = if (s.reg rs).toInt ≤ (s.reg rd).toInt then addr else s.ip + 2) ∧
    (∃ u, exec (.jg addr) t.tail = .next u ∧
      u.tail.ip = if (s.reg rs).toInt < (s.reg rd).toInt then addr else s.ip + 2) ∧
    (∃ u, exec (.jeq addr) t.tail = .next u ∧ u.tail.ip = if s.reg rd = s.reg rs then addr else s.ip + 2) ∧
    (∃ u, exec (.jne addr) t.tail = .next u ∧ u.tail.ip = if s.reg rd = s.reg rs then s.ip + 2 else addr)

/-! ## Stack, calls -/

/-- 46_stack.md (R260; order D18): PUSH completes in every state: SP is decremented, `x[d] + imm20` with `x[d]` read after
the decrement is stored at the new SP, and nothing else changes. -/
def Obligations.PushStoresAtTheDecrementedStackPointer : Prop :=
  ∀ (s : State) (rd : Reg) (imm : Word), ∃ t, exec (.push rd imm) s = .next t ∧
    t.sp = s.sp - 1 ∧ SameRegsBut s t [14] ∧
    WordStored s t (s.sp - 1) ((if rd = 14 then s.sp - 1 else s.reg rd) + imm)

/-- 46_stack.md (R261; order D18): POP completes in every state: `x[d]` is `mem[SP] + imm20` and SP is incremented after
it; for `d = 14` SP is the loaded value plus 1. Nothing else changes. -/
def Obligations.PopLoadsThenIncrementsTheStackPointer : Prop :=
  ∀ (s : State) (rd : Reg) (imm : Word), ∃ t, exec (.pop rd imm) s = .next t ∧
    (rd ≠ 14 → t.reg rd = s.memRead s.sp + imm ∧ t.sp = s.sp + 1) ∧
    (rd = 14 → t.sp = s.memRead s.sp + imm + 1) ∧
    SameRegsBut s t [rd, 14] ∧ SameBesideRegs s t

/-- 46_stack.md (R260, R261, D18; the source's property V5) with the step tail between the two steps (D16): a value pushed
and popped arrives, whatever the registers but SP, and SP returns. -/
def Obligations.PushThenPopRoundTrips : Prop :=
  ∀ (s t u : State) (rd rq : Reg), rd ≠ 14 → rq ≠ 14 → s.result = .continued →
    exec (.push rd 0) s = .next t → exec (.pop rq 0) t.tail = .next u →
    u.reg rq = s.reg rd ∧ u.sp = s.sp ∧ SameRegsBut s u [rq, 15]

/-- 47_calls.md (R271, R272; order D18, extension D3): CALL and CALLI complete in every state: the address after the call
is stored at the decremented SP, IP is the target less 1 (CALL's base is read after the push), nothing else changes. -/
def Obligations.CallsPushTheReturnAddress : Prop :=
  ∀ (s : State) (rd : Reg) (addr : Word),
    (∃ t, exec (.call rd addr) s = .next t ∧ t.sp = s.sp - 1 ∧
      t.ip = (if rd = 14 then s.sp - 1 else s.reg rd) + addr - 1 ∧ SameRegsBut s t [14, 15] ∧
      WordStored s t (s.sp - 1) (s.ip + 1)) ∧
    (∃ t, exec (.calli addr) s = .next t ∧ t.sp = s.sp - 1 ∧ t.ip = addr - 1 ∧ SameRegsBut s t [14, 15] ∧
      WordStored s t (s.sp - 1) (s.ip + 1))

/-- 47_calls.md R273: RET completes in every state: IP is the popped word less 1, SP is incremented and then `addr20` is
added; nothing else changes. -/
def Obligations.ReturnPopsTheAddressAndDropsArguments : Prop :=
  ∀ (s : State) (addr : Word), ∃ t, exec (.ret addr) s = .next t ∧
    t.ip = s.memRead s.sp - 1 ∧ t.sp = s.sp + 1 + addr ∧ SameRegsBut s t [14, 15] ∧ SameBesideRegs s t

/-- 47_calls.md (R270 to R273, D18) with the step tail (D16): a called routine that returns at once continues at the word
after the call with SP as before, for CALLI and for CALL through any register. -/
def Obligations.CallThenReturnComesBack : Prop :=
  ∀ (s t u : State) (rd : Reg) (addr : Word), s.result = .continued →
    (exec (.calli addr) s = .next t ∨ exec (.call rd addr) s = .next t) → exec (.ret 0) t.tail = .next u →
    u.tail.ip = s.ip + 1 ∧ u.tail.sp = s.sp ∧ SameRegsBut s u.tail [15]

/-! ## Loads and stores -/

/-- 49_memory_ops.md R300, R304: LOAD and LOADR complete in every state, write `x[d]` with the word at `addr20` or at
`x[s] + imm16`, and change nothing else, memory included. -/
def Obligations.LoadsWriteOneRegister : Prop :=
  ∀ (s : State) (rd rs : Reg) (addr imm : Word),
    (∃ t, exec (.load rd addr) s = .next t ∧ RegWritten s t rd (s.memRead addr)) ∧
    (∃ t, exec (.loadr rd rs imm) s = .next t ∧ RegWritten s t rd (s.memRead (s.reg rs + imm)))

/-- 49_memory_ops.md R302, R306: LOAD2 and LOADR2 on a valid pair write register `d` with the word at `a` and `d + 1` with
the word at `a + 1`, and change nothing else; a pair at register 15 raises InvalidReg. -/
def Obligations.PairLoadsWriteTwoRegisters : Prop :=
  (∀ (s : State) (rd hi rs : Reg) (addr imm : Word), hi.val = rd.val + 1 →
    (∃ t, exec (.load2 rd addr) s = .next t ∧ PairWritten s t rd hi (s.memRead addr) (s.memRead (addr + 1))) ∧
    (∃ t, exec (.loadr2 rd rs imm) s = .next t ∧
      PairWritten s t rd hi (s.memRead (s.reg rs + imm)) (s.memRead (s.reg rs + imm + 1)))) ∧
  (∀ (s : State) (rs : Reg) (addr imm : Word),
    (∃ t, exec (.load2 15 addr) s = .next t ∧ ExceptionTaken s t .invalidReg) ∧
    (∃ t, exec (.loadr2 15 rs imm) s = .next t ∧ ExceptionTaken s t .invalidReg))

/-- 49_memory_ops.md R301, R305: STORE and STORER complete in every state, store `x[d]` in the word at `addr20` or at
`x[s] + imm16`, and change no other byte of memory and no register. -/
def Obligations.StoresWriteOneWord : Prop :=
  ∀ (s : State) (rd rs : Reg) (addr imm : Word),
    (∃ t, exec (.store rd addr) s = .next t ∧ WordStored s t addr (s.reg rd) ∧ SameRegsBut s t []) ∧
    (∃ t, exec (.storer rd rs imm) s = .next t ∧ WordStored s t (s.reg rs + imm) (s.reg rd) ∧ SameRegsBut s t [])

/-- 49_memory_ops.md R303, R307: STORE2 and STORER2 on a valid pair store `x[d]` at `a` and `x[d+1]` at `a + 1`, and
change no other byte of memory and no register; a pair at register 15 raises InvalidReg and stores nothing. -/
def Obligations.PairStoresWriteTwoWords : Prop :=
  (∀ (s : State) (rd hi rs : Reg) (addr imm : Word), hi.val = rd.val + 1 →
    (∃ t, exec (.store2 rd addr) s = .next t ∧ PairStored s t addr (s.reg rd) (s.reg hi) ∧ SameRegsBut s t []) ∧
    (∃ t, exec (.storer2 rd rs imm) s = .next t ∧ PairStored s t (s.reg rs + imm) (s.reg rd) (s.reg hi) ∧
      SameRegsBut s t [])) ∧
  (∀ (s : State) (rs : Reg) (addr imm : Word),
    (∃ t, exec (.store2 15 addr) s = .next t ∧ ExceptionTaken s t .invalidReg) ∧
    (∃ t, exec (.storer2 15 rs imm) s = .next t ∧ ExceptionTaken s t .invalidReg))

/-! ## System -/

/-- 40_system.md (R130; the tail after it D16): HALT completes in every state: the outcome is Terminate and nothing else
changes; the step then leaves IP one past it, and the run ends there. -/
def Obligations.HaltTerminates : Prop :=
  ∀ s : State, (∃ t, exec .halt s = .next t ∧ OnlyResult s t .terminate) ∧
    (Runs s → decodeWith s.cfg.opcodeMap (s.memRead s.ip) = .ok .halt →
      ∃ t, step s = .next t ∧ EndsWell t ∧ t.ip = s.ip + 1 ∧ SameRegsBut s t [15] ∧ ∀ k, run (k + 1) s = t)

/-- 40_system.md R132: SYSCALL code 0 ends the step with Terminate and changes nothing else, whatever `d`. -/
def Obligations.SyscallZeroTerminates : Prop :=
  ∀ (s : State) (rd : Reg), ∃ t, exec (.syscall rd 0) s = .next t ∧ OnlyResult s t .terminate

/-- 40_system.md (R139; Warning and not Error D19): SYSCALL with any code but 0, 100, 101, 102, 103, 105 and 106, negative
ones too, ends with Warning and changes nothing else. -/
def Obligations.SyscallOfUnknownCodeWarns : Prop :=
  ∀ (s : State) (rd : Reg) (code : Word), code.toInt ∉ [0, 100, 101, 102, 103, 105, 106] →
    ∃ t, exec (.syscall rd code) s = .next t ∧ OnlyResult s t .warning

/-- 40_system.md section on codes 102, 103, 105 (R135 to R137; formats D20, check order D31): the printing calls append
the signed value, the pair's 64 bits or the low byte, and change nothing else; code 103 with `d = 15` raises InvalidReg
and prints nothing. -/
def Obligations.SyscallOutputIsAppended : Prop :=
  (∀ (s : State) (rd : Reg),
    (∃ t, exec (.syscall rd 102) s = .next t ∧ OutputAppended s t (.printInt (s.reg rd).toInt)) ∧
    (∃ t, exec (.syscall rd 105) s = .next t ∧ OutputAppended s t (.putChar ((s.reg rd).extractLsb' 0 8)))) ∧
  (∀ (s : State) (rd hi : Reg), hi.val = rd.val + 1 →
    ∃ t, exec (.syscall rd 103) s = .next t ∧ OutputAppended s t (.printDouble (s.reg hi ++ s.reg rd))) ∧
  (∀ s : State, ∃ t, exec (.syscall 15 103) s = .next t ∧ ExceptionTaken s t .invalidReg)

/-- 40_system.md section on codes 100, 101, 106 (R133, R134, R138; host values D20, pair order D11, check order D31): a
reading call takes the first value the host has supplied into the register or the pair and changes nothing else; that each
kind of read has a list of its own, so that the other two stay, is the model's choice (log entry 3). A supplied byte below
0x80 is read as `zext_32(b)`, and from 0x80 on as the word the host chose. Code 101 with `d = 15` raises InvalidReg and
consumes nothing. -/
def Obligations.SyscallInputIsTaken : Prop :=
  (∀ (s : State) (rd : Reg) (w : Word) (rest : List Word),
    (s.inInts = w :: rest → ∃ t, exec (.syscall rd 100) s = .next t ∧ t.inInts = rest ∧
      RegWritten s { t with inInts := s.inInts } rd w) ∧
    (s.inChars = w :: rest → ∃ t, exec (.syscall rd 106) s = .next t ∧ t.inChars = rest ∧
      RegWritten s { t with inChars := s.inChars } rd w)) ∧
  (∀ (s : State) (rd hi : Reg) (v : DWord) (rest : List DWord), hi.val = rd.val + 1 → s.inDoubles = v :: rest →
    ∃ t, exec (.syscall rd 101) s = .next t ∧ t.inDoubles = rest ∧
      PairWritten s { t with inDoubles := s.inDoubles } rd hi (v.extractLsb' 0 32) (v.extractLsb' 32 32)) ∧
  (∀ (s : State) (rd : Reg) (b : Byte) (high : Word), s.inChars = [] →
    ∃ t, exec (.syscall rd 106) (s.supplyByte b high) = .next t ∧ t.inChars = [] ∧
      (b.toNat < 0x80 → (t.reg rd).toNat = b.toNat) ∧ (0x80 ≤ b.toNat → t.reg rd = high)) ∧
  (∀ s : State, ∃ t, exec (.syscall 15 101) s = .next t ∧ ExceptionTaken s t .invalidReg)

/-- 00_scope.md section 3 and 60_exceptions.md section 5 (R8, R343); a hold as a next state is the model's choice (log entry
4): the step of a read with nothing supplied (codes 100, 101, 106) is held, however often it is stepped, and completes once
the host supplies a value. -/
def Obligations.BlockingReadsAreHeldUntilInput : Prop :=
  ∀ (s : State) (rd : Reg), Runs s →
    (decodeWith s.cfg.opcodeMap (s.memRead s.ip) = .ok (.syscall rd 100) → s.inInts = [] → HeldStep s ∧
      ∀ w, ∃ u, step (s.supplyInt w) = .next u ∧ u.result = .continued ∧ u.inInts = []) ∧
    (decodeWith s.cfg.opcodeMap (s.memRead s.ip) = .ok (.syscall rd 101) → rd ≠ 15 → s.inDoubles = [] → HeldStep s ∧
      ∀ v, ∃ u, step (s.supplyDouble v) = .next u ∧ u.result = .continued ∧ u.inDoubles = []) ∧
    (decodeWith s.cfg.opcodeMap (s.memRead s.ip) = .ok (.syscall rd 106) → s.inChars = [] → HeldStep s ∧
      ∀ b high, ∃ u, step (s.supplyByte b high) = .next u ∧ u.result = .continued ∧ u.inChars = [])

/-! ## Boot -/

/-- 70_reset_and_hazards.md section 2 (R374; which images are refused D32): an image loads exactly when it has at least 65
bytes, a whole number of words of memory and at most 2^22 bytes of it; then register `i` is bytes `4i` to `4i+3`, most
significant first, the flags are byte 64, memory byte `k` is byte `65 + k` and 0 past the end, the machine has the
parameters it is built with, and its run has not begun. -/
def Obligations.RawImageLoadsItsLayout : Prop :=
  ∀ (cfg : Params) (image : List Byte),
    ((∃ s, loadRawState cfg image = .ok s) ↔
      65 ≤ image.length ∧ (image.length - 65) % 4 = 0 ∧ image.length ≤ 65 + 2 ^ 22) ∧
    ∀ s, loadRawState cfg image = .ok s → s.result = .continued ∧ s.cfg = cfg ∧
      (∀ r : Reg, s.reg r = image.getD (4 * r.val) 0 ++ image.getD (4 * r.val + 1) 0 ++
        image.getD (4 * r.val + 2) 0 ++ image.getD (4 * r.val + 3) 0) ∧
      s.flags = image.getD 64 0 ∧ (∀ k, Memory.readByte s.mem k = image.getD (65 + k) 0)

/-- 70_reset_and_hazards.md section 2 (R375): an assembled state holds its words from address 0 upward, IP at the entry
point, SP at 0xFFFFF, and 0 in every other register, the flags and the rest of memory. The state that a failed assembly
leaves differs from it in SP alone, which is still 0. -/
def Obligations.AssembledStateIsLaidOut : Prop :=
  ∀ (cfg : Params) (words : List Word) (entry : Word),
    (assembledState cfg words entry).ip = entry ∧ (assembledState cfg words entry).sp = 0xFFFFF ∧
    (∀ r : Reg, r ≠ 14 → r ≠ 15 → (assembledState cfg words entry).reg r = 0) ∧
    (assembledState cfg words entry).flags = 0 ∧
    (∀ i, Memory.readWord (assembledState cfg words entry).mem i = words.getD i 0) ∧
    (partialState cfg words entry).sp = 0 ∧
    SameRegsBut (assembledState cfg words entry) (partialState cfg words entry) [14] ∧
    SameBesideRegs (assembledState cfg words entry) (partialState cfg words entry)

/-- 70_reset_and_hazards.md section 2 (R373, R375) and 30_encoding.md R120 to R126 (texts refused, the failing word not
written, the labels resolved before a failing one left in place and a label address too large for its field: log entry 30).
A text that assembles is the assembled state of the words of the two passes at the entry point of the first: its run has
not begun, it has the given parameters, SP at 0xFFFFF, flags 0, 0 in r0 to r13 and canonical memory. A text that fails does
so in one of the two passes, with a target State like that but for SP, which is 0, and partial writes are not rolled back.
First pass: an item that fails leaves every word and the entry point so far, and its address is the next one, counted from
1; an item that succeeds takes no word back and writes at most one, and the pass goes on with the tokens it leaves, to the
end. Second pass: a label use that fails leaves every word with the uses before it OR'd in, and its own word's address
counted from 1; with none failing all of them are OR'd in; either way no set bit is lost and no other word changes. -/
def Obligations.AssembledTextsLaunch : Prop :=
  (∀ (cfg : Params) (source : List Char) (s : State), assemble cfg source = .ok s →
    s.result = .continued ∧ s.cfg = cfg ∧ CanonicalMemory s ∧ s.sp = 0xFFFFF ∧ s.flags = 0 ∧
    (∀ r : Reg, r ≠ 14 → r ≠ 15 → s.reg r = 0) ∧
    ∃ a b, (Assembly.empty cfg).items (tokenize false [] source).length (tokenize false [] source) = .ok a ∧
      a.patch a.uses = .ok b ∧ s = assembledState cfg b.words a.entry ∧ s.ip = a.entry ∧
        ∀ i, Memory.readWord s.mem i = b.words.getD i 0) ∧
  (∀ (cfg : Params) (source : List Char) (e : AssemblyError), assemble cfg source = .error e →
    e.target.result = .continued ∧ e.target.cfg = cfg ∧ CanonicalMemory e.target ∧ e.target.sp = 0 ∧
    e.target.flags = 0 ∧ (∀ r : Reg, r ≠ 14 → r ≠ 15 → e.target.reg r = 0) ∧ 1 ≤ e.wordAddress ∧
    ((Assembly.empty cfg).items (tokenize false [] source).length (tokenize false [] source) = .error e ∨
      ∃ a, (Assembly.empty cfg).items (tokenize false [] source).length (tokenize false [] source) = .ok a ∧
        a.patch a.uses = .error e)) ∧
  (∀ (a : Assembly) (fuel : Nat) (tokens : List Token) (e : AssemblyError), a.items fuel tokens = .error e →
    ∃ words entry, a.words <+: words ∧ e.target = partialState a.cfg words entry ∧
      e.wordAddress = words.length + 1) ∧
  (∀ (a : Assembly) (fuel : Nat), a.items fuel [] = .ok a) ∧
  (∀ (a : Assembly) (fuel : Nat) (t : Token) (rest : List Token) (r : AssemblyReason), a.item t rest = .error r →
    a.items (fuel + 1) (t :: rest) = .error
      { reason := r, wordAddress := a.words.length + 1, target := partialState a.cfg a.words a.entry }) ∧
  (∀ (a b : Assembly) (fuel : Nat) (t : Token) (rest rest' : List Token), a.item t rest = .ok (b, rest') →
    a.words <+: b.words ∧ b.words.length ≤ a.words.length + 1 ∧ b.cfg = a.cfg ∧ rest'.length ≤ rest.length ∧
      a.items (fuel + 1) (t :: rest) = b.items fuel rest') ∧
  (∀ (a : Assembly) (uses : List LabelUse) (e : AssemblyError), a.patch uses = .error e →
    ∃ before u after words, uses = before ++ u :: after ∧ a.Resolved before words ∧ a.Unresolvable u ∧
      e.target = partialState a.cfg words a.entry ∧ e.wordAddress = u.address + 1) ∧
  ∀ (a b : Assembly) (uses : List LabelUse), a.patch uses = .ok b →
    a.Resolved uses b.words ∧ b.cfg = a.cfg ∧ b.entry = a.entry
end

