-- ==== Sys2Proof/Laws/Arith.lean ====
section
/-! SUPPORT. The values of products, dividends and compare flags. -/

namespace Sys2Proof.Machine

/-- The 64-bit product is exact: "there is no overflow case" (41_integer_arith.md R154). -/
theorem product_toInt (a b : Word) : (product a b).toInt = a.toInt * b.toInt := by
  unfold product
  rw [BitVec.toInt_ofInt]
  have h1 := a.toInt_lt
  have h2 := a.le_toInt
  have h3 := b.toInt_lt
  have h4 := b.le_toInt
  generalize a.toInt = x at *
  generalize b.toInt = y at *
  have hle : x * y ≤ 2 ^ 62 := by norm_num at *; nlinarith
  have hge : -2 ^ 62 ≤ x * y := by norm_num at *; nlinarith
  apply Int.bmod_eq_of_le <;> norm_num at * <;> omega

/-- The two forms of the dividend as signed numbers (R157). -/
theorem dividend_toInt (kind : DivDividend) (lo hi : Word) :
    (dividend kind lo hi).toInt = dividendValue kind lo hi := by
  cases kind with
  | sextOr =>
    simp only [dividend, dividendValue]
    by_cases h : lo.toInt < 0
    · rw [if_pos h]
      have hm : lo.msb = true := by simpa [BitVec.toInt_neg_iff, BitVec.msb_eq_toInt] using h
      have heq : lo.signExtend 64 ||| (hi ++ (0 : Word)) = lo.signExtend 64 := by
        apply BitVec.eq_of_getLsbD_eq
        intro j hj
        simp only [BitVec.getLsbD_or, BitVec.getLsbD_append, BitVec.getLsbD_signExtend]
        by_cases hjj : j < 32 <;> simp [hjj, hj, hm]
      rw [heq, BitVec.toInt_signExtend_of_le (by decide)]
    · rw [if_neg h]
      have hm : lo.msb = false := by simpa [BitVec.msb_eq_toInt] using h
      have heq : lo.signExtend 64 ||| (hi ++ (0 : Word)) = hi ++ lo := by
        apply BitVec.eq_of_getLsbD_eq
        intro j hj
        simp only [BitVec.getLsbD_or, BitVec.getLsbD_append, BitVec.getLsbD_signExtend]
        by_cases hjj : j < 32 <;> simp [hjj, hj, hm]
      have hlo : lo.toInt = lo.toNat := by rw [BitVec.toInt_eq_msb_cond, hm]; simp
      rw [heq, hlo, BitVec.toInt_append]
      simp
      ring
  | concat =>
    simp only [dividend, dividendValue]
    rw [BitVec.toInt_append]
    simp
    ring

/-- The three parts of a flags byte put together. -/
theorem flagBits (x : BitVec 6) (p q : Bool) :
    (x ++ BitVec.ofBool p ++ BitVec.ofBool q).getLsbD 0 = q ∧
      (x ++ BitVec.ofBool p ++ BitVec.ofBool q).getLsbD 1 = p ∧
      (x ++ BitVec.ofBool p ++ BitVec.ofBool q).extractLsb' 2 6 = x := by
  revert x p q; decide +kernel

/-- What the compare law leaves in the flags byte (45_compare.md R250). -/
theorem compareFlags_bits (f : Byte) (a b : Word) :
    equality (compareFlags f a b) = decide (a.toInt = b.toInt) ∧
      majority (compareFlags f a b) = decide (a.toInt < b.toInt) ∧
      (compareFlags f a b).extractLsb' 2 6 = f.extractLsb' 2 6 :=
  flagBits (f.extractLsb' 2 6) (decide (a.toInt < b.toInt)) (decide (a.toInt = b.toInt))

end Sys2Proof.Machine
end

