-- ==== Sys2Proof/Laws/Memory.lean ====
section
/-! SUPPORT. The laws of memory: a read after a write, byte by byte and word by word, and the canonical form that every
memory operation keeps. -/

namespace Sys2Proof.Machine

theorem Memory.readByte_insertCell (m : Memory) (k a : Nat) (b : Byte) (hk : ∀ c ∈ m, c.1 ≠ k) :
    Memory.readByte (Memory.insertCell (k, b) m) a = if k = a then b else Memory.readByte m a := by
  induction m with
  | nil => simp [Memory.insertCell, Memory.readByte]
  | cons c rest ih =>
    have hc : c.1 ≠ k := hk c (by simp)
    have ih' := ih (fun d hd => hk d (by simp [hd]))
    unfold Memory.insertCell
    split
    · simp [Memory.readByte]
    · simp only [Memory.readByte, ih']
      by_cases h : c.1 = a
      · have : k ≠ a := fun e => hc (h.trans e.symm)
        simp [h, this]
      · simp [h]

theorem Memory.readByte_filter_ne (m : Memory) (k a : Nat) :
    Memory.readByte (m.filter (fun c => decide (c.1 ≠ k))) a
      = if k = a then Memory.unlisted else Memory.readByte m a := by
  induction m with
  | nil => simp [Memory.readByte]
  | cons c rest ih =>
    simp only [List.filter_cons]
    split
    · rename_i h
      have hc : c.1 ≠ k := by simpa using h
      simp only [Memory.readByte, ih]
      by_cases hca : c.1 = a
      · have : k ≠ a := fun e => hc (hca.trans e.symm)
        simp [hca, this]
      · simp [hca]
    · rename_i h
      have hc : c.1 = k := by simpa using h
      rw [ih]
      by_cases hka : k = a
      · simp [hka]
      · have : c.1 ≠ a := fun e => hka (hc.symm.trans e)
        simp [hka, Memory.readByte, this]

/-- A byte written reads back, and every other byte reads as before. -/
theorem Memory.readByte_writeByte (m : Memory) (k a : Nat) (b : Byte) :
    Memory.readByte (Memory.writeByte m k b) a = if k = a then b else Memory.readByte m a := by
  unfold Memory.writeByte
  split
  · rename_i h
    rw [Memory.readByte_filter_ne, h]
  · rw [Memory.readByte_insertCell _ _ _ _ (by simp), Memory.readByte_filter_ne]
    split <;> rfl

theorem Memory.mem_insertCell (c d : Host.Cell) (m : Memory) : d ∈ Memory.insertCell c m ↔ d = c ∨ d ∈ m := by
  induction m with
  | nil => simp [Memory.insertCell]
  | cons k rest ih =>
    unfold Memory.insertCell
    split
    · simp
    · simp only [List.mem_cons, ih]
      tauto

theorem Memory.pairwise_insertCell (c : Host.Cell) (m : Memory) (hm : m.Pairwise (fun a b => a.1 < b.1))
    (hc : ∀ d ∈ m, d.1 ≠ c.1) : (Memory.insertCell c m).Pairwise (fun a b => a.1 < b.1) := by
  induction m with
  | nil => simp [Memory.insertCell]
  | cons k rest ih =>
    have hk := List.pairwise_cons.1 hm
    have hne : k.1 ≠ c.1 := hc k (by simp)
    unfold Memory.insertCell
    split
    · rename_i hlt
      refine List.pairwise_cons.2 ⟨fun d hd => ?_, hm⟩
      rcases List.mem_cons.1 hd with rfl | hd
      · exact hlt
      · exact hlt.trans (hk.1 d hd)
    · rename_i hge
      refine List.pairwise_cons.2 ⟨fun d hd => ?_, ih hk.2 (fun d hd => hc d (by simp [hd]))⟩
      rcases (Memory.mem_insertCell c d rest).1 hd with rfl | hd
      · omega
      · exact hk.1 d hd

/-- A byte store inside memory keeps the canonical form. -/
theorem Memory.wf_writeByte {m : Memory} (h : Memory.wf m) {a : Nat} (ha : a < Config.memBytes) (b : Byte) :
    Memory.wf (Memory.writeByte m a b) := by
  have hf : Memory.wf (m.filter (fun c => decide (c.1 ≠ a))) :=
    ⟨h.1.filter _, fun c hc => h.2 c (List.mem_filter.1 hc).1⟩
  unfold Memory.writeByte
  split
  · exact hf
  · rename_i hb
    refine ⟨Memory.pairwise_insertCell _ _ hf.1 (by simp), fun c hc => ?_⟩
    rcases (Memory.mem_insertCell _ _ _).1 hc with rfl | hc
    · exact ⟨hb, ha⟩
    · exact hf.2 c hc

theorem wordIndex_eq (a : Word) : wordIndex a = a.toNat % Config.memWords := by
  simp [wordIndex, Config.memWords, BitVec.extractLsb'_toNat]

theorem wordIndex_lt (a : Word) : wordIndex a < Config.memWords := by
  rw [wordIndex_eq]; exact Nat.mod_lt _ (by decide)

theorem Memory.wf_writeWord {m : Memory} (h : Memory.wf m) {i : Nat} (hi : i < Config.memWords) (v : Word) :
    Memory.wf (Memory.writeWord m i v) := by
  have hb : ∀ k < 4, 4 * i + k < Config.memBytes := by
    intro k hk; simp only [Config.memWords, Config.memBytes] at *; omega
  exact Memory.wf_writeByte (Memory.wf_writeByte (Memory.wf_writeByte (Memory.wf_writeByte h (hb 0 (by decide)) _)
    (hb 1 (by decide)) _) (hb 2 (by decide)) _) (hb 3 (by decide)) _

/-- A word store writes its four bytes, most significant first, and no other byte. -/
theorem Memory.readByte_writeWord (m : Memory) (i a : Nat) (v : Word) :
    Memory.readByte (Memory.writeWord m i v) a
      = if 4 * i ≤ a ∧ a < 4 * i + 4 then byteOfWord v (a - 4 * i) else Memory.readByte m a := by
  simp only [Memory.writeWord, Memory.readByte_writeByte]
  by_cases h : 4 * i ≤ a ∧ a < 4 * i + 4
  · obtain ⟨k, rfl⟩ : ∃ k, a = 4 * i + k := ⟨a - 4 * i, by omega⟩
    have hk : k < 4 := by omega
    simp only [h, and_self, if_true, Nat.add_sub_cancel_left]
    interval_cases k <;> simp
  · simp only [h, if_false]
    have h3 : ¬ 4 * i + 3 = a := by omega
    have h2 : ¬ 4 * i + 2 = a := by omega
    have h1 : ¬ 4 * i + 1 = a := by omega
    have h0 : ¬ 4 * i = a := by omega
    simp [h0, h1, h2, h3]

theorem wordOfBytes_byteOfWord (v : Word) :
    wordOfBytes (byteOfWord v 0) (byteOfWord v 1) (byteOfWord v 2) (byteOfWord v 3) = v := by
  apply BitVec.eq_of_getLsbD_eq
  intro j hj
  simp only [wordOfBytes, byteOfWord, BitVec.getLsbD_append, BitVec.getLsbD_extractLsb']
  interval_cases j <;> simp

/-- A word written reads back, and every other word reads as before. -/
theorem Memory.readWord_writeWord (m : Memory) (i j : Nat) (v : Word) :
    Memory.readWord (Memory.writeWord m i v) j = if i = j then v else Memory.readWord m j := by
  simp only [Memory.readWord, Memory.readByte_writeWord]
  by_cases h : i = j
  · subst h
    simp [wordOfBytes_byteOfWord]
  · have hk : ∀ k < 4, ¬ (4 * i ≤ 4 * j + k ∧ 4 * j + k < 4 * i + 4) := by intro k hk; omega
    have h0 := hk 0 (by decide)
    have h1 := hk 1 (by decide)
    have h2 := hk 2 (by decide)
    have h3 := hk 3 (by decide)
    simp only [Nat.add_zero] at h0
    simp only [h0, h1, h2, h3, h, if_false]

/-- Two addresses that differ by one never select the same word (20_memory.md R79). -/
theorem wordIndex_succ_ne (a : Word) : wordIndex a ≠ wordIndex (a + 1) := by
  have h1 : (a + 1).toNat = (a.toNat + 1) % 4294967296 := by simp [BitVec.toNat_add]
  rw [wordIndex_eq, wordIndex_eq, h1]
  simp only [Config.memWords]
  omega

theorem Memory.mem_ofBytes {a : Nat} {bytes : List Byte} {c : Host.Cell} (h : c ∈ Memory.ofBytes a bytes) :
    c.2 ≠ Memory.unlisted ∧ a ≤ c.1 ∧ c.1 < a + bytes.length := by
  induction bytes generalizing a with
  | nil => simp [Memory.ofBytes] at h
  | cons b rest ih =>
    unfold Memory.ofBytes at h
    split at h
    · have := ih h
      exact ⟨this.1, by omega, by simp only [List.length_cons]; omega⟩
    · rename_i hb
      rcases List.mem_cons.1 h with rfl | h
      · exact ⟨hb, le_refl _, by simp⟩
      · have := ih h
        exact ⟨this.1, by omega, by simp only [List.length_cons]; omega⟩

/-- A byte run of at most 2^22 bytes loads as a memory in canonical form. -/
theorem Memory.wf_ofBytes (a : Nat) (bytes : List Byte) (h : a + bytes.length ≤ Config.memBytes) :
    Memory.wf (Memory.ofBytes a bytes) := by
  refine ⟨?_, fun c hc => ⟨(Memory.mem_ofBytes hc).1, by have := Memory.mem_ofBytes hc; omega⟩⟩
  induction bytes generalizing a with
  | nil => simp [Memory.ofBytes]
  | cons b rest ih =>
    simp only [List.length_cons] at h
    unfold Memory.ofBytes
    split
    · exact ih (a + 1) (by omega)
    · exact List.pairwise_cons.2
        ⟨fun c hc => by have := Memory.mem_ofBytes hc; simp only; omega, ih (a + 1) (by omega)⟩

/-- Byte `k` of a loaded run, and 0 past its end. -/
theorem Memory.readByte_ofBytes (a k : Nat) (bytes : List Byte) :
    Memory.readByte (Memory.ofBytes a bytes) (a + k) = bytes.getD k 0 := by
  induction bytes generalizing a k with
  | nil => simp [Memory.ofBytes, Memory.readByte, Memory.unlisted]
  | cons b rest ih =>
    have hbelow : ∀ (m : Memory), (∀ c ∈ m, a + 1 ≤ c.1) → Memory.readByte m a = 0 := by
      intro m
      induction m with
      | nil => intro _; rfl
      | cons c m ihm =>
        intro hm
        have hc := hm c (by simp)
        have hne : ¬ c.1 = a := by omega
        simp only [Memory.readByte, hne, if_false]
        exact ihm (fun d hd => hm d (by simp [hd]))
    have hrest := hbelow (Memory.ofBytes (a + 1) rest) (fun c hc => (Memory.mem_ofBytes hc).2.1)
    unfold Memory.ofBytes
    cases k with
    | zero =>
      split
      · rename_i hb; simp [hrest, hb, Memory.unlisted]
      · simp [Memory.readByte]
    | succ k =>
      have hk := ih (a + 1) k
      rw [show a + 1 + k = a + (k + 1) by omega] at hk
      split
      · simpa using hk
      · have hne : ¬ a = a + (k + 1) := by omega
        simp only [Memory.readByte, hne, if_false]
        simpa using hk

end Sys2Proof.Machine
end

