-- ==== Sys2Proof/Laws/State.lean ====
section
/-! SUPPORT. One lemma for each field of the state under each update, true by rfl, and what a register reads as after a
register write. -/

namespace Sys2Proof.Machine

theorem State.reg_setReg (st : State) (r q : Reg) (v : Word) :
    (st.setReg r v).reg q = if r = q then v else st.reg q := by
  simp only [State.reg, State.setReg, Vector.getElem_set, Fin.ext_iff]

@[simp] theorem State.reg_setReg_self (st : State) (r : Reg) (v : Word) : (st.setReg r v).reg r = v := by
  simp [State.reg_setReg]

theorem State.reg_setReg_ne (st : State) {r q : Reg} (h : r ≠ q) (v : Word) : (st.setReg r v).reg q = st.reg q := by
  simp [State.reg_setReg, h]

theorem State.setSp_eq (st : State) (v : Word) : st.setSp v = st.setReg 14 v := rfl

theorem State.setIp_eq (st : State) (v : Word) : st.setIp v = st.setReg 15 v := rfl

theorem State.sp_eq (st : State) : st.sp = st.reg 14 := rfl

theorem State.ip_eq (st : State) : st.ip = st.reg 15 := rfl

theorem State.memRead_eq (st : State) (a : Word) : st.memRead a = Memory.readWord st.mem (wordIndex a) := rfl

@[simp] theorem State.setReg_flags (st : State) (r : Reg) (v : Word) : (st.setReg r v).flags = st.flags := rfl

@[simp] theorem State.setReg_mem (st : State) (r : Reg) (v : Word) : (st.setReg r v).mem = st.mem := rfl

@[simp] theorem State.setReg_result (st : State) (r : Reg) (v : Word) : (st.setReg r v).result = st.result := rfl

@[simp] theorem State.setReg_inInts (st : State) (r : Reg) (v : Word) : (st.setReg r v).inInts = st.inInts := rfl

@[simp] theorem State.setReg_inDoubles (st : State) (r : Reg) (v : Word) : (st.setReg r v).inDoubles = st.inDoubles := rfl

@[simp] theorem State.setReg_inChars (st : State) (r : Reg) (v : Word) : (st.setReg r v).inChars = st.inChars := rfl

@[simp] theorem State.setReg_output (st : State) (r : Reg) (v : Word) : (st.setReg r v).output = st.output := rfl

@[simp] theorem State.setReg_draws (st : State) (r : Reg) (v : Word) : (st.setReg r v).draws = st.draws := rfl

@[simp] theorem State.setReg_cfg (st : State) (r : Reg) (v : Word) : (st.setReg r v).cfg = st.cfg := rfl

@[simp] theorem State.memRead_setReg (st : State) (r : Reg) (v : Word) (w : Word) : (st.setReg r v).memRead w = st.memRead w := rfl

@[simp] theorem State.setSp_flags (st : State) (v : Word) : (st.setSp v).flags = st.flags := rfl

@[simp] theorem State.setSp_mem (st : State) (v : Word) : (st.setSp v).mem = st.mem := rfl

@[simp] theorem State.setSp_result (st : State) (v : Word) : (st.setSp v).result = st.result := rfl

@[simp] theorem State.setSp_inInts (st : State) (v : Word) : (st.setSp v).inInts = st.inInts := rfl

@[simp] theorem State.setSp_inDoubles (st : State) (v : Word) : (st.setSp v).inDoubles = st.inDoubles := rfl

@[simp] theorem State.setSp_inChars (st : State) (v : Word) : (st.setSp v).inChars = st.inChars := rfl

@[simp] theorem State.setSp_output (st : State) (v : Word) : (st.setSp v).output = st.output := rfl

@[simp] theorem State.setSp_draws (st : State) (v : Word) : (st.setSp v).draws = st.draws := rfl

@[simp] theorem State.setSp_cfg (st : State) (v : Word) : (st.setSp v).cfg = st.cfg := rfl

@[simp] theorem State.memRead_setSp (st : State) (v : Word) (w : Word) : (st.setSp v).memRead w = st.memRead w := rfl

@[simp] theorem State.setIp_flags (st : State) (v : Word) : (st.setIp v).flags = st.flags := rfl

@[simp] theorem State.setIp_mem (st : State) (v : Word) : (st.setIp v).mem = st.mem := rfl

@[simp] theorem State.setIp_result (st : State) (v : Word) : (st.setIp v).result = st.result := rfl

@[simp] theorem State.setIp_inInts (st : State) (v : Word) : (st.setIp v).inInts = st.inInts := rfl

@[simp] theorem State.setIp_inDoubles (st : State) (v : Word) : (st.setIp v).inDoubles = st.inDoubles := rfl

@[simp] theorem State.setIp_inChars (st : State) (v : Word) : (st.setIp v).inChars = st.inChars := rfl

@[simp] theorem State.setIp_output (st : State) (v : Word) : (st.setIp v).output = st.output := rfl

@[simp] theorem State.setIp_draws (st : State) (v : Word) : (st.setIp v).draws = st.draws := rfl

@[simp] theorem State.setIp_cfg (st : State) (v : Word) : (st.setIp v).cfg = st.cfg := rfl

@[simp] theorem State.memRead_setIp (st : State) (v : Word) (w : Word) : (st.setIp v).memRead w = st.memRead w := rfl

@[simp] theorem State.setPair_flags (st : State) (lo hi : Reg) (v : DWord) : (st.setPair lo hi v).flags = st.flags := rfl

@[simp] theorem State.setPair_mem (st : State) (lo hi : Reg) (v : DWord) : (st.setPair lo hi v).mem = st.mem := rfl

@[simp] theorem State.setPair_result (st : State) (lo hi : Reg) (v : DWord) : (st.setPair lo hi v).result = st.result := rfl

@[simp] theorem State.setPair_inInts (st : State) (lo hi : Reg) (v : DWord) : (st.setPair lo hi v).inInts = st.inInts := rfl

@[simp] theorem State.setPair_inDoubles (st : State) (lo hi : Reg) (v : DWord) : (st.setPair lo hi v).inDoubles = st.inDoubles := rfl

@[simp] theorem State.setPair_inChars (st : State) (lo hi : Reg) (v : DWord) : (st.setPair lo hi v).inChars = st.inChars := rfl

@[simp] theorem State.setPair_output (st : State) (lo hi : Reg) (v : DWord) : (st.setPair lo hi v).output = st.output := rfl

@[simp] theorem State.setPair_draws (st : State) (lo hi : Reg) (v : DWord) : (st.setPair lo hi v).draws = st.draws := rfl

@[simp] theorem State.setPair_cfg (st : State) (lo hi : Reg) (v : DWord) : (st.setPair lo hi v).cfg = st.cfg := rfl

@[simp] theorem State.memRead_setPair (st : State) (lo hi : Reg) (v : DWord) (w : Word) : (st.setPair lo hi v).memRead w = st.memRead w := rfl

@[simp] theorem State.memWrite_regs (st : State) (a v : Word) : (st.memWrite a v).regs = st.regs := rfl

@[simp] theorem State.memWrite_flags (st : State) (a v : Word) : (st.memWrite a v).flags = st.flags := rfl

@[simp] theorem State.memWrite_mem (st : State) (a v : Word) :
    (st.memWrite a v).mem = Memory.writeWord st.mem (wordIndex a) v := rfl

@[simp] theorem State.memWrite_result (st : State) (a v : Word) : (st.memWrite a v).result = st.result := rfl

@[simp] theorem State.memWrite_inInts (st : State) (a v : Word) : (st.memWrite a v).inInts = st.inInts := rfl

@[simp] theorem State.memWrite_inDoubles (st : State) (a v : Word) : (st.memWrite a v).inDoubles = st.inDoubles := rfl

@[simp] theorem State.memWrite_inChars (st : State) (a v : Word) : (st.memWrite a v).inChars = st.inChars := rfl

@[simp] theorem State.memWrite_output (st : State) (a v : Word) : (st.memWrite a v).output = st.output := rfl

@[simp] theorem State.memWrite_draws (st : State) (a v : Word) : (st.memWrite a v).draws = st.draws := rfl

@[simp] theorem State.memWrite_cfg (st : State) (a v : Word) : (st.memWrite a v).cfg = st.cfg := rfl

@[simp] theorem State.reg_memWrite (st : State) (a v : Word) (q : Reg) : (st.memWrite a v).reg q = st.reg q := rfl

@[simp] theorem State.stop_regs (st : State) (r : StepResult) : (st.stop r).regs = st.regs := rfl

@[simp] theorem State.stop_flags (st : State) (r : StepResult) : (st.stop r).flags = st.flags := rfl

@[simp] theorem State.stop_mem (st : State) (r : StepResult) : (st.stop r).mem = st.mem := rfl

@[simp] theorem State.stop_result (st : State) (r : StepResult) :
    (st.stop r).result = r := rfl

@[simp] theorem State.stop_inInts (st : State) (r : StepResult) : (st.stop r).inInts = st.inInts := rfl

@[simp] theorem State.stop_inDoubles (st : State) (r : StepResult) : (st.stop r).inDoubles = st.inDoubles := rfl

@[simp] theorem State.stop_inChars (st : State) (r : StepResult) : (st.stop r).inChars = st.inChars := rfl

@[simp] theorem State.stop_output (st : State) (r : StepResult) : (st.stop r).output = st.output := rfl

@[simp] theorem State.stop_draws (st : State) (r : StepResult) : (st.stop r).draws = st.draws := rfl

@[simp] theorem State.stop_cfg (st : State) (r : StepResult) : (st.stop r).cfg = st.cfg := rfl

@[simp] theorem State.reg_stop (st : State) (r : StepResult) (q : Reg) : (st.stop r).reg q = st.reg q := rfl

@[simp] theorem State.memRead_stop (st : State) (r : StepResult) (w : Word) : (st.stop r).memRead w = st.memRead w := rfl

@[simp] theorem State.raise_regs (st : State) (e : OpException) : (st.raise e).regs = st.regs := rfl

@[simp] theorem State.raise_flags (st : State) (e : OpException) : (st.raise e).flags = st.flags := rfl

@[simp] theorem State.raise_mem (st : State) (e : OpException) : (st.raise e).mem = st.mem := rfl

@[simp] theorem State.raise_result (st : State) (e : OpException) :
    (st.raise e).result = engineFault e { exception := e, address := st.ip, word := st.memRead st.ip } := rfl

@[simp] theorem State.raise_inInts (st : State) (e : OpException) : (st.raise e).inInts = st.inInts := rfl

@[simp] theorem State.raise_inDoubles (st : State) (e : OpException) : (st.raise e).inDoubles = st.inDoubles := rfl

@[simp] theorem State.raise_inChars (st : State) (e : OpException) : (st.raise e).inChars = st.inChars := rfl

@[simp] theorem State.raise_output (st : State) (e : OpException) : (st.raise e).output = st.output := rfl

@[simp] theorem State.raise_draws (st : State) (e : OpException) : (st.raise e).draws = st.draws := rfl

@[simp] theorem State.raise_cfg (st : State) (e : OpException) : (st.raise e).cfg = st.cfg := rfl

@[simp] theorem State.reg_raise (st : State) (e : OpException) (q : Reg) : (st.raise e).reg q = st.reg q := rfl

@[simp] theorem State.memRead_raise (st : State) (e : OpException) (w : Word) : (st.raise e).memRead w = st.memRead w := rfl

@[simp] theorem State.hold_regs (st : State) : st.hold.regs = st.regs := rfl

@[simp] theorem State.hold_flags (st : State) : st.hold.flags = st.flags := rfl

@[simp] theorem State.hold_mem (st : State) : st.hold.mem = st.mem := rfl

@[simp] theorem State.hold_result (st : State) :
    st.hold.result = .held := rfl

@[simp] theorem State.hold_inInts (st : State) : st.hold.inInts = st.inInts := rfl

@[simp] theorem State.hold_inDoubles (st : State) : st.hold.inDoubles = st.inDoubles := rfl

@[simp] theorem State.hold_inChars (st : State) : st.hold.inChars = st.inChars := rfl

@[simp] theorem State.hold_output (st : State) : st.hold.output = st.output := rfl

@[simp] theorem State.hold_draws (st : State) : st.hold.draws = st.draws := rfl

@[simp] theorem State.hold_cfg (st : State) : st.hold.cfg = st.cfg := rfl

@[simp] theorem State.reg_hold (st : State) (q : Reg) : st.hold.reg q = st.reg q := rfl

@[simp] theorem State.memRead_hold (st : State) (w : Word) : st.hold.memRead w = st.memRead w := rfl

@[simp] theorem State.nextDraw_regs (st : State) : st.nextDraw.regs = st.regs := rfl

@[simp] theorem State.nextDraw_flags (st : State) : st.nextDraw.flags = st.flags := rfl

@[simp] theorem State.nextDraw_mem (st : State) : st.nextDraw.mem = st.mem := rfl

@[simp] theorem State.nextDraw_result (st : State) : st.nextDraw.result = st.result := rfl

@[simp] theorem State.nextDraw_inInts (st : State) : st.nextDraw.inInts = st.inInts := rfl

@[simp] theorem State.nextDraw_inDoubles (st : State) : st.nextDraw.inDoubles = st.inDoubles := rfl

@[simp] theorem State.nextDraw_inChars (st : State) : st.nextDraw.inChars = st.inChars := rfl

@[simp] theorem State.nextDraw_output (st : State) : st.nextDraw.output = st.output := rfl

@[simp] theorem State.nextDraw_draws (st : State) :
    st.nextDraw.draws = st.draws + 1 := rfl

@[simp] theorem State.nextDraw_cfg (st : State) : st.nextDraw.cfg = st.cfg := rfl

@[simp] theorem State.reg_nextDraw (st : State) (q : Reg) : st.nextDraw.reg q = st.reg q := rfl

@[simp] theorem State.memRead_nextDraw (st : State) (w : Word) : st.nextDraw.memRead w = st.memRead w := rfl

@[simp] theorem State.emit_regs (st : State) (e : HostOutput) : (st.emit e).regs = st.regs := rfl

@[simp] theorem State.emit_flags (st : State) (e : HostOutput) : (st.emit e).flags = st.flags := rfl

@[simp] theorem State.emit_mem (st : State) (e : HostOutput) : (st.emit e).mem = st.mem := rfl

@[simp] theorem State.emit_result (st : State) (e : HostOutput) : (st.emit e).result = st.result := rfl

@[simp] theorem State.emit_inInts (st : State) (e : HostOutput) : (st.emit e).inInts = st.inInts := rfl

@[simp] theorem State.emit_inDoubles (st : State) (e : HostOutput) : (st.emit e).inDoubles = st.inDoubles := rfl

@[simp] theorem State.emit_inChars (st : State) (e : HostOutput) : (st.emit e).inChars = st.inChars := rfl

@[simp] theorem State.emit_output (st : State) (e : HostOutput) :
    (st.emit e).output = st.output ++ [e] := rfl

@[simp] theorem State.emit_draws (st : State) (e : HostOutput) : (st.emit e).draws = st.draws := rfl

@[simp] theorem State.emit_cfg (st : State) (e : HostOutput) : (st.emit e).cfg = st.cfg := rfl

@[simp] theorem State.reg_emit (st : State) (e : HostOutput) (q : Reg) : (st.emit e).reg q = st.reg q := rfl

@[simp] theorem State.memRead_emit (st : State) (e : HostOutput) (w : Word) : (st.emit e).memRead w = st.memRead w := rfl

@[simp] theorem State.compare_regs (st : State) (rd : Reg) (b : Word) : (st.compare rd b).regs = st.regs := rfl

@[simp] theorem State.compare_flags (st : State) (rd : Reg) (b : Word) :
    (st.compare rd b).flags = compareFlags st.flags (st.reg rd) b := rfl

@[simp] theorem State.compare_mem (st : State) (rd : Reg) (b : Word) : (st.compare rd b).mem = st.mem := rfl

@[simp] theorem State.compare_result (st : State) (rd : Reg) (b : Word) : (st.compare rd b).result = st.result := rfl

@[simp] theorem State.compare_inInts (st : State) (rd : Reg) (b : Word) : (st.compare rd b).inInts = st.inInts := rfl

@[simp] theorem State.compare_inDoubles (st : State) (rd : Reg) (b : Word) : (st.compare rd b).inDoubles = st.inDoubles := rfl

@[simp] theorem State.compare_inChars (st : State) (rd : Reg) (b : Word) : (st.compare rd b).inChars = st.inChars := rfl

@[simp] theorem State.compare_output (st : State) (rd : Reg) (b : Word) : (st.compare rd b).output = st.output := rfl

@[simp] theorem State.compare_draws (st : State) (rd : Reg) (b : Word) : (st.compare rd b).draws = st.draws := rfl

@[simp] theorem State.compare_cfg (st : State) (rd : Reg) (b : Word) : (st.compare rd b).cfg = st.cfg := rfl

@[simp] theorem State.reg_compare (st : State) (rd : Reg) (b : Word) (q : Reg) : (st.compare rd b).reg q = st.reg q := rfl

@[simp] theorem State.memRead_compare (st : State) (rd : Reg) (b : Word) (w : Word) : (st.compare rd b).memRead w = st.memRead w := rfl

@[simp] theorem State.begin_regs (st : State) : st.begin.regs = st.regs := rfl

@[simp] theorem State.begin_flags (st : State) : st.begin.flags = st.flags := rfl

@[simp] theorem State.begin_mem (st : State) : st.begin.mem = st.mem := rfl

@[simp] theorem State.begin_result (st : State) :
    st.begin.result = .continued := rfl

@[simp] theorem State.begin_inInts (st : State) : st.begin.inInts = st.inInts := rfl

@[simp] theorem State.begin_inDoubles (st : State) : st.begin.inDoubles = st.inDoubles := rfl

@[simp] theorem State.begin_inChars (st : State) : st.begin.inChars = st.inChars := rfl

@[simp] theorem State.begin_output (st : State) : st.begin.output = st.output := rfl

@[simp] theorem State.begin_draws (st : State) : st.begin.draws = st.draws := rfl

@[simp] theorem State.begin_cfg (st : State) : st.begin.cfg = st.cfg := rfl

@[simp] theorem State.reg_begin (st : State) (q : Reg) : st.begin.reg q = st.reg q := rfl

@[simp] theorem State.memRead_begin (st : State) (w : Word) : st.begin.memRead w = st.memRead w := rfl

@[simp] theorem State.undefinedOpcode_regs (st : State) : st.undefinedOpcode.regs = st.regs := rfl

@[simp] theorem State.undefinedOpcode_flags (st : State) : st.undefinedOpcode.flags = st.flags := rfl

@[simp] theorem State.undefinedOpcode_mem (st : State) : st.undefinedOpcode.mem = st.mem := rfl

@[simp] theorem State.undefinedOpcode_result (st : State) :
    st.undefinedOpcode.result = .error := rfl

@[simp] theorem State.undefinedOpcode_inInts (st : State) : st.undefinedOpcode.inInts = st.inInts := rfl

@[simp] theorem State.undefinedOpcode_inDoubles (st : State) : st.undefinedOpcode.inDoubles = st.inDoubles := rfl

@[simp] theorem State.undefinedOpcode_inChars (st : State) : st.undefinedOpcode.inChars = st.inChars := rfl

@[simp] theorem State.undefinedOpcode_output (st : State) : st.undefinedOpcode.output = st.output := rfl

@[simp] theorem State.undefinedOpcode_draws (st : State) : st.undefinedOpcode.draws = st.draws := rfl

@[simp] theorem State.undefinedOpcode_cfg (st : State) : st.undefinedOpcode.cfg = st.cfg := rfl

@[simp] theorem State.reg_undefinedOpcode (st : State) (q : Reg) : st.undefinedOpcode.reg q = st.reg q := rfl

@[simp] theorem State.memRead_undefinedOpcode (st : State) (w : Word) : st.undefinedOpcode.memRead w = st.memRead w := rfl

/-! The constructed state, and the parts a step is given and answers. -/

@[simp] theorem State.construct_reg (cfg : Params) (r : Reg) : (State.construct cfg).reg r = 0 := by
  simp [State.construct, CoreState.zero, State.reg]

@[simp] theorem State.construct_flags (cfg : Params) : (State.construct cfg).flags = 0 := rfl

@[simp] theorem State.construct_mem (cfg : Params) : (State.construct cfg).mem = [] := rfl

@[simp] theorem State.construct_inInts (cfg : Params) : (State.construct cfg).inInts = [] := rfl

@[simp] theorem State.construct_inDoubles (cfg : Params) : (State.construct cfg).inDoubles = [] := rfl

@[simp] theorem State.construct_inChars (cfg : Params) : (State.construct cfg).inChars = [] := rfl

@[simp] theorem State.construct_output (cfg : Params) : (State.construct cfg).output = [] := rfl

@[simp] theorem State.construct_result (cfg : Params) : (State.construct cfg).result = .continued := rfl

@[simp] theorem State.construct_draws (cfg : Params) : (State.construct cfg).draws = 0 := rfl

@[simp] theorem State.construct_cfg (cfg : Params) : (State.construct cfg).cfg = cfg := rfl

theorem State.reset_eq : State.reset = State.construct defaultParams := rfl

@[simp] theorem State.ofParts_toCoreState (cfg : Params) (n : Nat) (c : CoreState) (io : HostStreams) :
    (State.ofParts cfg n c io).toCoreState = c := rfl

@[simp] theorem State.ofParts_toHostStreams (cfg : Params) (n : Nat) (c : CoreState) (io : HostStreams) :
    (State.ofParts cfg n c io).toHostStreams = io := rfl

@[simp] theorem State.ofParts_result (cfg : Params) (n : Nat) (c : CoreState) (io : HostStreams) :
    (State.ofParts cfg n c io).result = .continued := rfl

@[simp] theorem State.ofParts_draws (cfg : Params) (n : Nat) (c : CoreState) (io : HostStreams) :
    (State.ofParts cfg n c io).draws = n := rfl

@[simp] theorem State.ofParts_cfg (cfg : Params) (n : Nat) (c : CoreState) (io : HostStreams) :
    (State.ofParts cfg n c io).cfg = cfg := rfl

@[simp] theorem State.answer_outcome (t : State) : t.answer.outcome = t.result := rfl

@[simp] theorem State.answer_state (t : State) : t.answer.state = t.toCoreState := rfl

@[simp] theorem State.answer_streams (t : State) : t.answer.streams = t.toHostStreams := rfl

@[simp] theorem State.answer_draws (t : State) : t.answer.draws = t.draws := rfl

end Sys2Proof.Machine
end

