-- ==== Sys2Proof/Laws/Assembler.lean ====
section
/-! SUPPORT. What the assembler can do, said once: it keeps its parameters and never loses a word, and the states it builds
hold its words. -/

namespace Sys2Proof.Machine

/-! The states. -/

@[simp] theorem partialState_flags (cfg : Params) (words : List Word) (entry : Word) :
    (partialState cfg words entry).flags = 0 := rfl

@[simp] theorem partialState_mem (cfg : Params) (words : List Word) (entry : Word) :
    (partialState cfg words entry).mem = Memory.ofBytes 0 (words.flatMap bytesOfWord) := rfl

@[simp] theorem partialState_result (cfg : Params) (words : List Word) (entry : Word) :
    (partialState cfg words entry).result = .continued := rfl

@[simp] theorem partialState_cfg (cfg : Params) (words : List Word) (entry : Word) :
    (partialState cfg words entry).cfg = cfg := rfl

theorem partialState_reg (cfg : Params) (words : List Word) (entry : Word) {r : Reg} (h : r ≠ 15) :
    (partialState cfg words entry).reg r = 0 := by
  unfold partialState
  rw [State.setIp_eq, State.reg_setReg_ne _ (Ne.symm h)]
  simp [State.reg, State.construct, CoreState.zero]

@[simp] theorem partialState_ip (cfg : Params) (words : List Word) (entry : Word) :
    (partialState cfg words entry).ip = entry := State.reg_setReg_self _ _ _

theorem length_flatMap_bytesOfWord (words : List Word) : (words.flatMap bytesOfWord).length = 4 * words.length := by
  induction words with
  | nil => rfl
  | cons w ws ih =>
    rw [List.flatMap_cons, List.length_append, ih]
    simp [bytesOfWord]
    omega

/-- Byte `k` of word `i` in the byte run of a list of words. -/
theorem flatMap_bytesOfWord_getD (words : List Word) (i : Nat) {k : Nat} (hk : k < 4) :
    (words.flatMap bytesOfWord).getD (4 * i + k) 0 = byteOfWord (words.getD i 0) k := by
  induction words generalizing i with
  | nil => simp [byteOfWord]
  | cons w ws ih =>
    have hb : (bytesOfWord w).length = 4 := rfl
    rw [List.flatMap_cons]
    cases i with
    | zero =>
      rw [Nat.mul_zero, Nat.zero_add]
      interval_cases k <;> rfl
    | succ i =>
      rw [show 4 * (i + 1) + k = 4 + (4 * i + k) by omega, List.getD_append_right _ _ _ _ (by rw [hb]; omega), hb,
        show 4 + (4 * i + k) - 4 = 4 * i + k by omega, ih]
      rfl

/-! The first pass. -/

/-- From `a` to `b` the parameters stay, no word is lost, and memory is never overrun. -/
structure Assembly.Extends (a b : Assembly) : Prop where
  cfg : b.cfg = a.cfg
  words : a.words <+: b.words
  fits : a.words.length ≤ Config.memWords → b.words.length ≤ Config.memWords

theorem Assembly.Extends.rfl' (a : Assembly) : a.Extends a := ⟨rfl, List.prefix_rfl, id⟩

theorem Assembly.Extends.trans {a b c : Assembly} (h : a.Extends b) (k : b.Extends c) : a.Extends c :=
  ⟨k.cfg.trans h.cfg, h.words.trans k.words, fun x => k.fits (h.fits x)⟩

/-- An assembling step that succeeds has its first part succeed. -/
theorem Except.ok_of_bind {ε α β : Type} {x : Except ε α} {f : α → Except ε β} {r : β} (h : (x >>= f) = .ok r) :
    ∃ a, x = .ok a ∧ f a = .ok r := by
  cases x with
  | error e => cases h
  | ok a => exact ⟨a, rfl, h⟩

theorem Assembly.write_extends {a b : Assembly} {w : Word} {bits : Nat} {l : Option Token}
    (h : a.write w bits l = .ok b) : a.Extends b := by
  unfold Assembly.write at h
  split at h
  · cases h
  · injection h with h
    subst h
    refine ⟨rfl, List.prefix_append _ _, fun _ => ?_⟩
    simp
    omega

theorem Assembly.item_extends {a b : Assembly} {t : Token} {rest rest' : List Token}
    (h : a.item t rest = .ok (b, rest')) : a.Extends b := by
  unfold Assembly.item at h
  split at h
  · obtain ⟨c, hc, h⟩ := Except.ok_of_bind h
    cases h
    exact Assembly.write_extends hc
  · split at h
    · split at h
      · cases h
      · split at h
        · cases h
          exact ⟨rfl, List.prefix_rfl, id⟩
        · cases h
    · split at h
      · split at h
        · cases h
        · split at h
          · cases h
          · cases h
            exact ⟨rfl, List.prefix_rfl, id⟩
      · split at h
        · cases h
        · obtain ⟨⟨w, l, bits, r⟩, _, h⟩ := Except.ok_of_bind h
          obtain ⟨c, hc, h⟩ := Except.ok_of_bind h
          cases h
          exact Assembly.write_extends hc

theorem Assembly.items_extends {a b : Assembly} {fuel : Nat} {tokens : List Token}
    (h : a.items fuel tokens = .ok b) : a.Extends b := by
  induction fuel generalizing a tokens with
  | zero => cases tokens <;> (unfold Assembly.items at h; cases h; exact .rfl' _)
  | succ n ih =>
    cases tokens with
    | nil => unfold Assembly.items at h; cases h; exact .rfl' _
    | cons t rest =>
      unfold Assembly.items at h
      split at h
      · exact (Assembly.item_extends ‹_›).trans (ih h)
      · cases h

/-! What an item takes and writes. -/

theorem takeRegister_rest {tokens rest : List Token} {r : Reg} (h : takeRegister tokens = .ok (r, rest)) :
    rest.length ≤ tokens.length := by
  cases tokens with
  | nil => cases h
  | cons t ts =>
    simp only [takeRegister] at h
    split at h
    · cases h; simp
    · cases h

theorem takeValue_rest {bits : Nat} {missing : AssemblyReason} {tokens rest : List Token} {w : Word} {l : Option Token}
    (h : takeValue bits missing tokens = .ok (w, l, rest)) : rest.length ≤ tokens.length := by
  cases tokens with
  | nil => cases h
  | cons t ts =>
    simp only [takeValue] at h
    split at h
    · split at h
      · cases h; simp
      · cases h
    · cases h; simp

theorem takeOperands_rest {map : OpcodeMap} {m : Mnemonic} {tokens rest : List Token} {w : Word} {l : Option Token}
    {bits : Nat} (h : takeOperands map m tokens = .ok (w, l, bits, rest)) : rest.length ≤ tokens.length := by
  unfold takeOperands at h
  split at h
  · cases h; simp
  · obtain ⟨⟨rd, r1⟩, h1, h⟩ := Except.ok_of_bind h
    cases h
    exact takeRegister_rest h1
  · obtain ⟨⟨rd, r1⟩, h1, h⟩ := Except.ok_of_bind h
    obtain ⟨⟨v, l', r2⟩, h2, h⟩ := Except.ok_of_bind h
    cases h
    exact (takeValue_rest h2).trans (takeRegister_rest h1)
  · obtain ⟨⟨rd, r1⟩, h1, h⟩ := Except.ok_of_bind h
    obtain ⟨⟨rs, r2⟩, h2, h⟩ := Except.ok_of_bind h
    obtain ⟨⟨v, l', r3⟩, h3, h⟩ := Except.ok_of_bind h
    cases h
    exact (takeValue_rest h3).trans ((takeRegister_rest h2).trans (takeRegister_rest h1))
  · obtain ⟨⟨rd, r1⟩, h1, h⟩ := Except.ok_of_bind h
    obtain ⟨⟨v, l', r2⟩, h2, h⟩ := Except.ok_of_bind h
    cases h
    exact (takeValue_rest h2).trans (takeRegister_rest h1)
  · obtain ⟨⟨v, l', r1⟩, h1, h⟩ := Except.ok_of_bind h
    cases h
    exact takeValue_rest h1

theorem Assembly.write_length {a b : Assembly} {w : Word} {bits : Nat} {l : Option Token}
    (h : a.write w bits l = .ok b) : b.words.length = a.words.length + 1 := by
  unfold Assembly.write at h
  split at h
  · cases h
  · cases h; simp

/-- An item takes no token back and writes one word at most. -/
theorem Assembly.item_bounds {a b : Assembly} {t : Token} {rest rest' : List Token}
    (h : a.item t rest = .ok (b, rest')) :
    b.words.length ≤ a.words.length + 1 ∧ rest'.length ≤ rest.length := by
  unfold Assembly.item at h
  split at h
  · obtain ⟨c, hc, h⟩ := Except.ok_of_bind h
    cases h
    exact ⟨(Assembly.write_length hc).le, le_rfl⟩
  · split at h
    · split at h
      · cases h
      · split at h
        · cases h; simp
        · cases h
    · split at h
      · split at h
        · cases h
        · split at h
          · cases h
          · cases h; simp
      · split at h
        · cases h
        · obtain ⟨⟨w, l, bits, r⟩, ho, h⟩ := Except.ok_of_bind h
          obtain ⟨c, hc, h⟩ := Except.ok_of_bind h
          cases h
          exact ⟨(Assembly.write_length hc).le, takeOperands_rest ho⟩

/-! Label resolution. -/

/-- Resolving no label changes no word. -/
theorem Assembly.Resolved.none (a : Assembly) : a.Resolved [] a.words :=
  ⟨rfl, fun _ => BitVec.or_self, fun _ _ => rfl, by simp, by simp⟩

/-- Word `i` after one label is OR'd into the word at `address`. -/
theorem getD_modify_or (words : List Word) (address i : Nat) (v : Word) :
    (words.modify address (fun w => w ||| v)).getD i 0 =
      if address = i ∧ i < words.length then words.getD i 0 ||| v else words.getD i 0 := by
  simp only [List.getD_eq_getElem?_getD, List.getElem?_modify]
  by_cases h : i < words.length
  · by_cases e : address = i <;> simp [h, e]
  · simp [h]

/-- One more label is resolved before those of `uses`. -/
theorem Assembly.Resolved.cons {a : Assembly} {u : LabelUse} {uses : List LabelUse} {v : Nat} {words : List Word}
    (hl : a.lookup u.name = some v) (hv : v < 2 ^ u.bits)
    (h : ({ a with words := a.words.modify u.address (fun w => w ||| BitVec.ofNat 32 v) } : Assembly).Resolved uses words) :
    a.Resolved (u :: uses) words := by
  obtain ⟨hlen, hkept, hothers, hdecl, hbits⟩ := h
  simp only [getD_modify_or, List.length_modify] at hlen hkept hothers hbits
  change ∀ x ∈ uses, ∃ n, a.lookup x.name = some n ∧ n < 2 ^ x.bits at hdecl
  refine ⟨hlen, fun i => ?_, fun i hi => ?_, ?_, fun i j hij => ?_⟩
  · have := hkept i
    split at this
    · rw [← this, BitVec.or_assoc, BitVec.or_assoc, BitVec.or_comm (BitVec.ofNat 32 v), ← BitVec.or_assoc (a.words.getD i 0),
        BitVec.or_self]
    · exact this
  · rw [hothers i fun x hx => hi x (List.mem_cons_of_mem _ hx), if_neg fun c => hi u (List.mem_cons_self ..) c.1]
  · exact List.forall_mem_cons.2 ⟨⟨v, hl, hv⟩, hdecl⟩
  · rw [hbits i j hij]
    change (_ ∨ ∃ x ∈ uses, x.address = i ∧ ∃ n, a.lookup x.name = some n ∧ _) ↔ _
    by_cases e : u.address = i
    · rw [if_pos ⟨e, hij⟩, BitVec.getLsbD_or, Bool.or_eq_true, List.exists_mem_cons_iff, hl, or_assoc]
      simp [e]
    · rw [if_neg fun c => e c.1, List.exists_mem_cons_iff]
      simp [e]

/-- When no use fails, all of them are resolved, and the parameters and the entry point stay. -/
theorem Assembly.patch_ok {a b : Assembly} {uses : List LabelUse} (h : a.patch uses = .ok b) :
    a.Resolved uses b.words ∧ b.cfg = a.cfg ∧ b.entry = a.entry := by
  induction uses generalizing a with
  | nil => cases h; exact ⟨.none _, rfl, rfl⟩
  | cons u us ih =>
    unfold Assembly.patch at h
    split at h
    · cases h
    · split at h
      · obtain ⟨hr, hc, he⟩ := ih h
        exact ⟨hr.cons ‹_› ‹_›, hc, he⟩
      · cases h

end Sys2Proof.Machine
end

