-- ==== Sys2Proof/Laws/Decode.lean ====
section
/-! SUPPORT. The decoder on what the encoder writes: each field of each format comes back, and the operand ranges of
WellFormed.lean are the words a field can hold. -/

namespace Sys2Proof

/-! Ranges. -/

theorem signExtend_extract20 {v : Word} (h : FitsImm20 v) : (v.extractLsb' 0 20).signExtend 32 = v := by
  apply BitVec.eq_of_toInt_eq
  rw [BitVec.toInt_signExtend_of_le (by decide), BitVec.toInt_eq_toNat_bmod, BitVec.extractLsb'_toNat]
  have h1 := h.1
  have h2 := h.2
  rw [BitVec.toInt_eq_toNat_bmod] at h1 h2 ⊢
  have := v.isLt
  simp only [Int.bmod, Nat.shiftRight_zero] at *
  omega

theorem signExtend_extract16 {v : Word} (h : FitsImm16 v) : (v.extractLsb' 0 16).signExtend 32 = v := by
  apply BitVec.eq_of_toInt_eq
  rw [BitVec.toInt_signExtend_of_le (by decide), BitVec.toInt_eq_toNat_bmod, BitVec.extractLsb'_toNat]
  have h1 := h.1
  have h2 := h.2
  rw [BitVec.toInt_eq_toNat_bmod] at h1 h2 ⊢
  have := v.isLt
  simp only [Int.bmod, Nat.shiftRight_zero] at *
  omega

theorem setWidth_extract20 {v : Word} (h : FitsAddr20 v) : (v.extractLsb' 0 20).setWidth 32 = v := by
  apply BitVec.eq_of_toNat_eq
  simp only [BitVec.toNat_setWidth, BitVec.extractLsb'_toNat, Nat.shiftRight_zero]
  have : v.toNat ≤ 1048575 := h
  omega

theorem fitsImm20_signExtend (x : BitVec 20) : FitsImm20 (x.signExtend 32) := by
  unfold FitsImm20
  rw [BitVec.toInt_signExtend_of_le (by decide), BitVec.toInt_eq_toNat_bmod]
  have := x.isLt
  simp only [Int.bmod]
  omega

theorem fitsImm16_signExtend (x : BitVec 16) : FitsImm16 (x.signExtend 32) := by
  unfold FitsImm16
  rw [BitVec.toInt_signExtend_of_le (by decide), BitVec.toInt_eq_toNat_bmod]
  have := x.isLt
  simp only [Int.bmod]
  omega

theorem fitsAddr20_setWidth (x : BitVec 20) : FitsAddr20 (x.setWidth 32) := by
  unfold FitsAddr20
  simp only [BitVec.toNat_setWidth]
  have := x.isLt
  omega

/-! Fields of a packed word. -/

theorem packRI_toNat (op : Byte) (rd : Reg) (imm : Word) :
    (packRI op rd imm).toNat = op.toNat * 2 ^ 24 + rd.val * 2 ^ 20 + imm.toNat % 2 ^ 20 := by
  have h1 : imm.toNat % 1048576 < 2 ^ 20 := Nat.mod_lt _ (by decide)
  have h2 := rd.isLt
  simp only [packRI, BitVec.toNat_append, BitVec.toNat_ofNat, BitVec.extractLsb'_toNat, Nat.shiftRight_zero]
  rw [Nat.mod_eq_of_lt (show rd.val < 2 ^ 4 by omega), ← Nat.shiftLeft_add_eq_or_of_lt (show rd.val < 2 ^ 4 by omega),
    ← Nat.shiftLeft_add_eq_or_of_lt h1, Nat.shiftLeft_eq, Nat.shiftLeft_eq]
  omega

theorem packRR_toNat (op : Byte) (rd rs : Reg) (imm : Word) :
    (packRR op rd rs imm).toNat = op.toNat * 2 ^ 24 + rd.val * 2 ^ 20 + rs.val * 2 ^ 16 + imm.toNat % 2 ^ 16 := by
  have h1 : imm.toNat % 65536 < 2 ^ 16 := Nat.mod_lt _ (by decide)
  have h2 := rd.isLt
  have h3 := rs.isLt
  simp only [packRR, BitVec.toNat_append, BitVec.toNat_ofNat, BitVec.extractLsb'_toNat, Nat.shiftRight_zero]
  rw [Nat.mod_eq_of_lt (show rd.val < 2 ^ 4 by omega), Nat.mod_eq_of_lt (show rs.val < 2 ^ 4 by omega),
    ← Nat.shiftLeft_add_eq_or_of_lt (show rd.val < 2 ^ 4 by omega),
    ← Nat.shiftLeft_add_eq_or_of_lt (show rs.val < 2 ^ 4 by omega), ← Nat.shiftLeft_add_eq_or_of_lt h1,
    Nat.shiftLeft_eq, Nat.shiftLeft_eq, Nat.shiftLeft_eq]
  omega

theorem packMe_eq (op : Byte) (addr : Word) : packMe op addr = packRI op 0 addr := rfl

theorem opcodeOf_of_toNat {w : Word} {op : Byte} {x : Nat} (hx : x < 2 ^ 24) (h : w.toNat = op.toNat * 2 ^ 24 + x) :
    opcodeOf w = op := by
  apply BitVec.eq_of_toNat_eq
  have := op.isLt
  simp only [opcodeOf, BitVec.extractLsb'_toNat, Nat.shiftRight_eq_div_pow, h]
  omega

theorem regField20_of_toNat {w : Word} {r : Reg} {y x : Nat} (hx : x < 2 ^ 20)
    (h : w.toNat = y * 2 ^ 24 + r.val * 2 ^ 20 + x) : regField w 20 = r := by
  apply Fin.ext
  have := r.isLt
  show (w.extractLsb' 20 4).toNat = r.val
  simp only [BitVec.extractLsb'_toNat, Nat.shiftRight_eq_div_pow, h]
  omega

theorem regField16_of_toNat {w : Word} {r : Reg} {y x : Nat} (hx : x < 2 ^ 16)
    (h : w.toNat = y * 2 ^ 20 + r.val * 2 ^ 16 + x) : regField w 16 = r := by
  apply Fin.ext
  have := r.isLt
  show (w.extractLsb' 16 4).toNat = r.val
  simp only [BitVec.extractLsb'_toNat, Nat.shiftRight_eq_div_pow, h]
  omega

theorem extract20_of_toNat {w v : Word} {y : Nat} (h : w.toNat = y * 2 ^ 20 + v.toNat % 2 ^ 20) :
    w.extractLsb' 0 20 = v.extractLsb' 0 20 := by
  apply BitVec.eq_of_toNat_eq
  simp only [BitVec.extractLsb'_toNat, Nat.shiftRight_zero, h]
  omega

theorem extract16_of_toNat {w v : Word} {y : Nat} (h : w.toNat = y * 2 ^ 16 + v.toNat % 2 ^ 16) :
    w.extractLsb' 0 16 = v.extractLsb' 0 16 := by
  apply BitVec.eq_of_toNat_eq
  simp only [BitVec.extractLsb'_toNat, Nat.shiftRight_zero, h]
  omega

@[simp] theorem opcodeOf_packRI (op : Byte) (rd : Reg) (imm : Word) : opcodeOf (packRI op rd imm) = op :=
  opcodeOf_of_toNat (x := rd.val * 2 ^ 20 + imm.toNat % 2 ^ 20) (by have := rd.isLt; omega)
    (by rw [packRI_toNat]; omega)

@[simp] theorem opcodeOf_packRR (op : Byte) (rd rs : Reg) (imm : Word) : opcodeOf (packRR op rd rs imm) = op :=
  opcodeOf_of_toNat (x := rd.val * 2 ^ 20 + rs.val * 2 ^ 16 + imm.toNat % 2 ^ 16)
    (by have := rd.isLt; have := rs.isLt; omega) (by rw [packRR_toNat]; omega)

@[simp] theorem opcodeOf_packMe (op : Byte) (addr : Word) : opcodeOf (packMe op addr) = op := by
  rw [packMe_eq, opcodeOf_packRI]

@[simp] theorem fieldsOf_packRI_rd (op : Byte) (rd : Reg) (imm : Word) : (fieldsOf (packRI op rd imm)).rd = rd :=
  regField20_of_toNat (y := op.toNat) (x := imm.toNat % 2 ^ 20) (by omega) (packRI_toNat op rd imm)

@[simp] theorem fieldsOf_packRI_imm20 (op : Byte) (rd : Reg) (imm : Word) :
    (fieldsOf (packRI op rd imm)).imm20 = (imm.extractLsb' 0 20).signExtend 32 := by
  rw [← extract20_of_toNat (w := packRI op rd imm) (y := op.toNat * 2 ^ 4 + rd.val) (by rw [packRI_toNat]; omega)]
  rfl

@[simp] theorem fieldsOf_packRI_addr20 (op : Byte) (rd : Reg) (imm : Word) :
    (fieldsOf (packRI op rd imm)).addr20 = (imm.extractLsb' 0 20).setWidth 32 := by
  rw [← extract20_of_toNat (w := packRI op rd imm) (y := op.toNat * 2 ^ 4 + rd.val) (by rw [packRI_toNat]; omega)]
  rfl

@[simp] theorem fieldsOf_packMe_addr20 (op : Byte) (addr : Word) :
    (fieldsOf (packMe op addr)).addr20 = (addr.extractLsb' 0 20).setWidth 32 := by
  rw [packMe_eq, fieldsOf_packRI_addr20]

@[simp] theorem fieldsOf_packRR_rd (op : Byte) (rd rs : Reg) (imm : Word) : (fieldsOf (packRR op rd rs imm)).rd = rd :=
  regField20_of_toNat (y := op.toNat) (x := rs.val * 2 ^ 16 + imm.toNat % 2 ^ 16) (by have := rs.isLt; omega)
    (by rw [packRR_toNat]; omega)

@[simp] theorem fieldsOf_packRR_rs (op : Byte) (rd rs : Reg) (imm : Word) : (fieldsOf (packRR op rd rs imm)).rs = rs :=
  regField16_of_toNat (y := op.toNat * 2 ^ 4 + rd.val) (x := imm.toNat % 2 ^ 16) (by omega)
    (by rw [packRR_toNat]; omega)

@[simp] theorem fieldsOf_packRR_imm16 (op : Byte) (rd rs : Reg) (imm : Word) :
    (fieldsOf (packRR op rd rs imm)).imm16 = (imm.extractLsb' 0 16).signExtend 32 := by
  rw [← extract16_of_toNat (w := packRR op rd rs imm) (y := op.toNat * 2 ^ 8 + rd.val * 2 ^ 4 + rs.val)
    (by rw [packRR_toNat]; omega)]
  rfl

/-! `OPCODE_MAP`. -/

theorem Op.mem_all (o : Op) : o ∈ Op.all := by cases o <;> decide

/-- Where the map has an operation for a number, the number is that operation's. -/
theorem OpcodeMap.number_of_opOf {m : OpcodeMap} {n : Byte} {o : Op} (h : m.opOf n = some o) : m.number o = n := by
  simpa using List.find?_some h

/-- The map has no operation for a number exactly when no operation has it. -/
theorem OpcodeMap.opOf_eq_none_iff {m : OpcodeMap} {n : Byte} : m.opOf n = none ↔ Machine.UndefinedIn m n := by
  simp [OpcodeMap.opOf, List.find?_eq_none, Machine.UndefinedIn, Op.mem_all]

/-- In a map that gives no number twice, an operation's number stands for it. -/
theorem OpcodeMap.opOf_number {m : OpcodeMap} (h : m.wf) (o : Op) : m.opOf (m.number o) = some o := by
  cases hf : m.opOf (m.number o) with
  | none => exact absurd rfl (OpcodeMap.opOf_eq_none_iff.1 hf o)
  | some p =>
    exact congrArg some (List.inj_on_of_nodup_map h (Op.mem_all p) (Op.mem_all o) (OpcodeMap.number_of_opOf hf))

theorem defaultOpcodeMap_wf : defaultOpcodeMap.wf := by decide

/-- The table of R97 has a gap exactly at the undefined opcodes (30_encoding.md R100). -/
theorem undefinedIn_default_iff (n : Byte) :
    Machine.UndefinedIn defaultOpcodeMap n ↔ Machine.UndefinedOpcode n.toNat := by
  rw [← OpcodeMap.opOf_eq_none_iff]
  unfold Machine.UndefinedOpcode
  obtain ⟨k, hk, rfl⟩ : ∃ k, k < 256 ∧ n = BitVec.ofNat 8 k := ⟨n.toNat, n.isLt, by simp⟩
  interval_cases k <;> first
    | exact iff_of_true rfl (by decide)
    | exact iff_of_false (by intro h; cases h) (by decide)

/-! Decoding. -/

/-- A word decodes to the instruction its opcode's operation makes of its fields. -/
theorem decodeWith_of_opOf {m : OpcodeMap} {w : Word} {o : Op} (h : m.opOf (opcodeOf w) = some o) :
    decodeWith m w = .ok (o.instr (fieldsOf w)) := by
  simp [decodeWith, h]

theorem opOf_of_decodeWith {m : OpcodeMap} {w : Word} {i : Instr} (h : decodeWith m w = .ok i) :
    ∃ o, m.opOf (opcodeOf w) = some o ∧ o.instr (fieldsOf w) = i := by
  unfold decodeWith at h
  split at h
  · injection h with h; exact ⟨_, ‹_›, h⟩
  · cases h

theorem decodeWith_of_undefined {m : OpcodeMap} {w : Word} (h : Machine.UndefinedIn m (opcodeOf w)) :
    decodeWith m w = .error (.undefinedOpcode (opcodeOf w)) := by
  simp [decodeWith, OpcodeMap.opOf_eq_none_iff.2 h]

@[simp] theorem Op.instr_op (o : Op) (f : Fields) : (o.instr f).op = o := by cases o <;> rfl

@[simp] theorem opcodeOf_encodeWith (m : OpcodeMap) (i : Instr) : opcodeOf (encodeWith m i) = m.number i.op := by
  cases i <;> simp [encodeWith]

/-- The four bytes of a word decode as the word does. -/
theorem decodeBytesWith_cons (m : OpcodeMap) (b0 b1 b2 b3 : Byte) (rest : List Byte) :
    decodeBytesWith m (b0 :: b1 :: b2 :: b3 :: rest) =
      (decodeWith m (wordOfBytes b0 b1 b2 b3)).map (fun i => (i, rest)) := by
  simp only [decodeBytesWith]
  cases decodeWith m (wordOfBytes b0 b1 b2 b3) <;> rfl

/-! A word's fields packed again. -/

theorem ofNat_regField (w : Word) (k : Nat) : BitVec.ofNat 4 (regField w k).val = w.extractLsb' k 4 := by
  show BitVec.ofNat 4 (w.extractLsb' k 4).toNat = _
  exact (BitVec.ofNat_toNat _ _).trans (BitVec.setWidth_eq _)

theorem extract_imm20 (w : Word) : (fieldsOf w).imm20.extractLsb' 0 20 = w.extractLsb' 0 20 := by
  apply BitVec.eq_of_getLsbD_eq
  intro k hk
  simp [fieldsOf, BitVec.getLsbD_signExtend, hk]
  omega

theorem extract_imm16 (w : Word) : (fieldsOf w).imm16.extractLsb' 0 16 = w.extractLsb' 0 16 := by
  apply BitVec.eq_of_getLsbD_eq
  intro k hk
  simp [fieldsOf, BitVec.getLsbD_signExtend, hk]
  omega

theorem extract_addr20 (w : Word) : (fieldsOf w).addr20.extractLsb' 0 20 = w.extractLsb' 0 20 := by
  apply BitVec.eq_of_getLsbD_eq
  intro k hk
  simp [fieldsOf, hk]
  omega

theorem packRI_fields {w v : Word} (hv : v.extractLsb' 0 20 = w.extractLsb' 0 20) :
    packRI (opcodeOf w) (fieldsOf w).rd v = w := by
  show packRI (opcodeOf w) (regField w 20) v = w
  unfold packRI opcodeOf
  rw [hv, ofNat_regField]
  apply BitVec.eq_of_getLsbD_eq
  intro k hk
  simp only [BitVec.getLsbD_append, BitVec.getLsbD_extractLsb']
  interval_cases k <;> simp

theorem packRR_fields {w v : Word} (hv : v.extractLsb' 0 16 = w.extractLsb' 0 16) :
    packRR (opcodeOf w) (fieldsOf w).rd (fieldsOf w).rs v = w := by
  show packRR (opcodeOf w) (regField w 20) (regField w 16) v = w
  unfold packRR opcodeOf
  rw [hv, ofNat_regField, ofNat_regField]
  apply BitVec.eq_of_getLsbD_eq
  intro k hk
  simp only [BitVec.getLsbD_append, BitVec.getLsbD_extractLsb']
  interval_cases k <;> simp

theorem packRR_fields_zero (w : Word) :
    packRR (opcodeOf w) (fieldsOf w).rd (fieldsOf w).rs 0 = w &&& 0xFFFF0000 := by
  show packRR (opcodeOf w) (regField w 20) (regField w 16) 0 = w &&& 0xFFFF0000
  unfold packRR opcodeOf
  rw [ofNat_regField, ofNat_regField]
  apply BitVec.eq_of_getLsbD_eq
  intro k hk
  simp only [BitVec.getLsbD_append, BitVec.getLsbD_extractLsb', BitVec.getLsbD_and]
  interval_cases k <;> simp

theorem packRI_fields_zero (w : Word) : packRI (opcodeOf w) (fieldsOf w).rd 0 = w &&& 0xFFF00000 := by
  show packRI (opcodeOf w) (regField w 20) 0 = w &&& 0xFFF00000
  unfold packRI opcodeOf
  rw [ofNat_regField]
  apply BitVec.eq_of_getLsbD_eq
  intro k hk
  simp only [BitVec.getLsbD_append, BitVec.getLsbD_extractLsb', BitVec.getLsbD_and]
  interval_cases k <;> simp

theorem packRI_opcode (w : Word) : packRI (opcodeOf w) 0 0 = w &&& 0xFF000000 := by
  unfold packRI opcodeOf
  apply BitVec.eq_of_getLsbD_eq
  intro k hk
  simp only [BitVec.getLsbD_append, BitVec.getLsbD_extractLsb', BitVec.getLsbD_and]
  interval_cases k <;> simp

theorem packMe_fields {w v : Word} (hv : v.extractLsb' 0 20 = w.extractLsb' 0 20) :
    packMe (opcodeOf w) v = w &&& 0xFF0FFFFF := by
  unfold packMe opcodeOf
  rw [hv]
  apply BitVec.eq_of_getLsbD_eq
  intro k hk
  simp only [BitVec.getLsbD_append, BitVec.getLsbD_extractLsb', BitVec.getLsbD_and]
  interval_cases k <;> simp

end Sys2Proof
end

