-- ==== Sys2Proof/Laws/Ops.lean ====
section
/-! SUPPORT. What each shared operation can do, said once: the pair check, register and memory writes in the words of
Safety.lean, the reads of the host's lists. -/

namespace Sys2Proof.Machine

/-! Equality of states. -/

theorem State.regs_ext {s t : State} (h : ∀ r, t.reg r = s.reg r) : t.regs = s.regs := by
  apply Vector.ext
  intro i hi
  exact h ⟨i, hi⟩

theorem State.stop_self (st : State) : st.stop st.result = st := rfl

/-! The pair check. -/

theorem pairHigh_of_lt {r : Reg} (h : r.val + 1 < 16) : pairHigh r = some ⟨r.val + 1, h⟩ := by
  simp [pairHigh, h]

@[simp] theorem pairHigh_last : pairHigh 15 = none := by decide

theorem pairHigh_eq_some {r hi : Reg} : pairHigh r = some hi ↔ hi.val = r.val + 1 := by
  unfold pairHigh
  split
  · simp only [Option.some.injEq, Fin.ext_iff]
    exact eq_comm
  · constructor
    · intro h; cases h
    · intro h; have := hi.isLt; omega

theorem pairHigh_eq_none {r : Reg} : pairHigh r = none ↔ r = 15 := by
  revert r; decide

/-- The two registers of a pair differ. -/
theorem pair_ne {r hi : Reg} (h : hi.val = r.val + 1) : r ≠ hi := by
  intro e; rw [e] at h; omega

theorem State.withPair_valid (st : State) {r hi : Reg} (h : hi.val = r.val + 1) (k : Reg → State) :
    st.withPair r k = k hi := by
  simp [State.withPair, pairHigh_eq_some.2 h]

@[simp] theorem State.withPair_last (st : State) (k : Reg → State) : st.withPair 15 k = st.raise .invalidReg := rfl

/-- The pair check has two outcomes: InvalidReg of register 15, or the operation on a valid pair. -/
theorem State.withPair_cases (st : State) (r : Reg) (k : Reg → State) :
    (r = 15 ∧ st.withPair r k = st.raise .invalidReg) ∨
      ∃ hi : Reg, hi.val = r.val + 1 ∧ st.withPair r k = k hi := by
  cases h : pairHigh r with
  | none => exact .inl ⟨pairHigh_eq_none.1 h, by simp [State.withPair, h]⟩
  | some hi => exact .inr ⟨hi, pairHigh_eq_some.1 h, by simp [State.withPair, h]⟩

/-! Registers. -/

theorem State.reg_setPair (st : State) (lo hi q : Reg) (v : DWord) :
    (st.setPair lo hi v).reg q
      = if hi = q then v.extractLsb' 32 32 else if lo = q then v.extractLsb' 0 32 else st.reg q := by
  simp [State.setPair, State.reg_setReg]

theorem sameHost_refl (s : State) : SameHost s s := ⟨rfl, rfl, rfl, rfl⟩

theorem sameMem_refl (s : State) : SameMem s s := fun _ => rfl

/-- A register write changes that register alone. -/
theorem regWritten_setReg (s : State) (d : Reg) (v : Word) : RegWritten s (s.setReg d v) d v := by
  refine ⟨State.reg_setReg_self _ _ _, fun r hr => ?_, rfl, fun _ => rfl, rfl, sameHost_refl _, rfl, rfl⟩
  exact State.reg_setReg_ne _ (fun e => hr (by simp [e])) _

/-- A pair write changes the two registers alone. -/
theorem pairWritten_setReg (s : State) {d d1 : Reg} (h : d1.val = d.val + 1) (lo hi : Word) :
    PairWritten s ((s.setReg d lo).setReg d1 hi) d d1 lo hi := by
  refine ⟨?_, State.reg_setReg_self _ _ _, fun r hr => ?_, rfl, fun _ => rfl, rfl, sameHost_refl _, rfl, rfl⟩
  · rw [State.reg_setReg_ne _ (pair_ne h).symm, State.reg_setReg_self]
  · have h1 : d ≠ r := fun e => hr (by simp [e])
    have h2 : d1 ≠ r := fun e => hr (by simp [e])
    rw [State.reg_setReg_ne _ h2, State.reg_setReg_ne _ h1]

theorem pairWritten_setPair (s : State) {d d1 : Reg} (h : d1.val = d.val + 1) (v : DWord) :
    PairWritten s (s.setPair d d1 v) d d1 (v.extractLsb' 0 32) (v.extractLsb' 32 32) :=
  pairWritten_setReg s h _ _

theorem drawWritten_setReg (s : State) (d : Reg) (v : Word) : DrawWritten s (s.nextDraw.setReg d v) d v :=
  ⟨rfl, regWritten_setReg s d v⟩

theorem drawPairWritten_setPair (s : State) {d d1 : Reg} (h : d1.val = d.val + 1) (v : DWord) :
    DrawPairWritten s (s.nextDraw.setPair d d1 v) d d1 v :=
  ⟨rfl, pairWritten_setPair s h v⟩

/-! Outcomes. -/

theorem onlyResult_stop (s : State) (r : StepResult) : OnlyResult s (s.stop r) r :=
  ⟨rfl, fun _ _ => rfl, rfl, fun _ => rfl, sameHost_refl _, rfl, rfl⟩

/-- Taking an exception writes nothing but the outcome. -/
theorem exceptionTaken_raise (s : State) (e : OpException) : ExceptionTaken s (s.raise e) e :=
  ⟨_, rfl, onlyResult_stop _ _⟩

theorem isEngineFault_engineFault (e : OpException) (r : FaultRecord) : IsEngineFault (engineFault e r) := by
  cases e <;> trivial

/-! Memory. -/

theorem State.memRead_memWrite (st : State) (a b v : Word) :
    (st.memWrite a v).memRead b = if wordIndex a = wordIndex b then v else st.memRead b :=
  Memory.readWord_writeWord _ _ _ _

@[simp] theorem State.memRead_memWrite_self (st : State) (a v : Word) : (st.memWrite a v).memRead a = v := by
  simp [State.memRead_memWrite]

theorem inWord_iff (w : Word) (a : Nat) : InWord w a ↔ 4 * wordIndex w ≤ a ∧ a < 4 * wordIndex w + 4 := by
  rw [wordIndex_eq]; rfl

theorem State.readByte_memWrite_of_not_inWord (st : State) {w : Word} {a : Nat} (h : ¬ InWord w a) (v : Word) :
    Memory.readByte (st.memWrite w v).mem a = Memory.readByte st.mem a := by
  rw [inWord_iff] at h
  simp [Memory.readByte_writeWord, h]

/-- A word store changes the bytes of that word alone. -/
theorem wordStored_memWrite (s : State) (w v : Word) : WordStored s (s.memWrite w v) w v :=
  ⟨State.memRead_memWrite_self _ _ _, fun _ h => State.readByte_memWrite_of_not_inWord _ h _, rfl, rfl,
    sameHost_refl _, rfl, rfl⟩

/-- Two word stores at `w` and `w + 1` change the bytes of those words alone. -/
theorem pairStored_memWrite (s : State) (w v0 v1 : Word) :
    PairStored s ((s.memWrite w v0).memWrite (w + 1) v1) w v0 v1 := by
  refine ⟨?_, State.memRead_memWrite_self _ _ _, fun a h0 h1 => ?_, rfl, rfl, sameHost_refl _, rfl, rfl⟩
  · rw [State.memRead_memWrite, if_neg (wordIndex_succ_ne w).symm, State.memRead_memWrite_self]
  · rw [State.readByte_memWrite_of_not_inWord _ h1, State.readByte_memWrite_of_not_inWord _ h0]

theorem Memory.wf_memWrite {s : State} (h : Memory.wf s.mem) (a v : Word) : Memory.wf (s.memWrite a v).mem :=
  Memory.wf_writeWord h (wordIndex_lt a) v

end Sys2Proof.Machine
end

