-- ==== Sys2Proof/Laws/Step.lean ====
section
/-! SUPPORT. What a step can do, said once: an ended run, the refused configuration, an undefined opcode, or the decoded
instruction and the step tail; and that every instruction's meaning answers a next state. -/

namespace Sys2Proof.Machine

theorem State.begin_of_continued {s : State} (h : s.result = .continued) : s.begin = s := by
  cases s; simp_all [State.begin, State.stop]

/-- The step tail of a completed step. -/
theorem State.tail_of_ne_held {s : State} (h : s.result ≠ .held) : s.tail = s.setIp (s.ip + 1) := by
  unfold State.tail
  split
  · exact absurd ‹_› h
  · rfl

theorem State.tail_of_held {s : State} (h : s.result = .held) : s.tail = s := by
  simp [State.tail, h]

theorem State.tail_cases (s : State) : s.tail = s ∨ s.tail = s.setIp (s.ip + 1) := by
  unfold State.tail
  split
  · exact .inl rfl
  · exact .inr rfl

@[simp] theorem State.tail_mem (s : State) : s.tail.mem = s.mem := by
  rcases State.tail_cases s with h | h <;> simp [h]

@[simp] theorem State.tail_flags (s : State) : s.tail.flags = s.flags := by
  rcases State.tail_cases s with h | h <;> simp [h]

@[simp] theorem State.tail_result (s : State) : s.tail.result = s.result := by
  rcases State.tail_cases s with h | h <;> simp [h]

@[simp] theorem State.tail_inInts (s : State) : s.tail.inInts = s.inInts := by
  rcases State.tail_cases s with h | h <;> simp [h]

@[simp] theorem State.tail_inDoubles (s : State) : s.tail.inDoubles = s.inDoubles := by
  rcases State.tail_cases s with h | h <;> simp [h]

@[simp] theorem State.tail_inChars (s : State) : s.tail.inChars = s.inChars := by
  rcases State.tail_cases s with h | h <;> simp [h]

@[simp] theorem State.tail_output (s : State) : s.tail.output = s.output := by
  rcases State.tail_cases s with h | h <;> simp [h]

@[simp] theorem State.tail_draws (s : State) : s.tail.draws = s.draws := by
  rcases State.tail_cases s with h | h <;> simp [h]

@[simp] theorem State.tail_cfg (s : State) : s.tail.cfg = s.cfg := by
  rcases State.tail_cases s with h | h <;> simp [h]

/-- Every meaning answers a next state: no instruction stops the machine. -/
theorem exec_next (i : Instr) (s : State) : ∃ t, exec i s = .next t := by
  cases i <;> exact ⟨_, rfl⟩

theorem step_ended {s : State} (h : s.result.ended = true) : step s = .fault (.runEnded s.result) := by
  simp [step, h]

theorem step_checked {s : State} (h : s.result.ended = false) (hc : s.cfg.addressing = .checked) :
    step s = .refused .checkedAddressing := by
  simp [step, h, hc]

theorem step_of_decode {s : State} (h : Runs s) {i : Instr} (hd : decodeWith s.cfg.opcodeMap s.fetch = .ok i) {t : State}
    (he : exec i s.begin = .next t) : step s = .next t.tail := by
  simp [step, h.1, h.2, hd, he]

theorem step_of_undefined {s : State} (h : Runs s) {e : DecodeError} (hd : decodeWith s.cfg.opcodeMap s.fetch = .error e) :
    step s = .next s.begin.undefinedOpcode.tail := by
  simp [step, h.1, h.2, hd]

/-- A step does not read the outcome of the step before it. -/
theorem step_begin {s : State} (h : Runs s) : step s.begin = step s := by
  have h1 : s.begin.result.ended = false := rfl
  have h2 : s.begin.cfg = s.cfg := rfl
  have h3 : s.begin.fetch = s.fetch := rfl
  have h4 : s.begin.begin = s.begin := rfl
  unfold step
  rw [h1, h.1, h2, h3, h4]
  simp

/-- The spec's step (60_exceptions.md R330) is the machine's step with the answer taken apart. -/
theorem coreStep_eq {s : State} (h : Runs s) : coreStep s.cfg s.draws s.toCoreState s.toHostStreams =
    match step s with
    | .next t => .next t.answer
    | .fault f => .fault f
    | .refused r => .refused r := by
  rw [← step_begin h]
  rfl

/-- Where a step answers a next state, the state runs, and either the opcode is undefined or the decoded instruction ran
and the tail followed. -/
theorem step_next_cases {s s' : State} (h : step s = .next s') :
    Runs s ∧ ((∃ e, decodeWith s.cfg.opcodeMap s.fetch = .error e ∧ s' = s.begin.undefinedOpcode.tail) ∨
      ∃ i t, decodeWith s.cfg.opcodeMap s.fetch = .ok i ∧ exec i s.begin = .next t ∧ s' = t.tail) := by
  by_cases he : s.result.ended = true
  · rw [step_ended he] at h; cases h
  · have he' : s.result.ended = false := by simpa using he
    by_cases hc : s.cfg.addressing = .checked
    · rw [step_checked he' hc] at h; cases h
    · have hm : s.cfg.addressing = .modular := by
        cases hx : s.cfg.addressing
        · rfl
        · exact absurd hx hc
      refine ⟨⟨he', hm⟩, ?_⟩
      cases hd : decodeWith s.cfg.opcodeMap s.fetch with
      | error e =>
        rw [step_of_undefined ⟨he', hm⟩ hd] at h
        exact .inl ⟨e, rfl, by injection h with h; exact h.symm⟩
      | ok i =>
        obtain ⟨t, ht⟩ := exec_next i s.begin
        rw [step_of_decode ⟨he', hm⟩ hd ht] at h
        exact .inr ⟨i, t, rfl, ht, by injection h with h; exact h.symm⟩

/-- A state that runs has a next state, whatever stands at IP (70_reset_and_hazards.md R376: every state is runnable). -/
theorem step_of_runs {s : State} (h : Runs s) : ∃ t, step s = .next t := by
  cases hd : decodeWith s.cfg.opcodeMap s.fetch with
  | error e => exact ⟨_, step_of_undefined h hd⟩
  | ok i =>
    obtain ⟨t, ht⟩ := exec_next i s.begin
    exact ⟨_, step_of_decode h hd ht⟩

/-- The word placed by `withFetchWord` is the word the next step fetches. -/
theorem fetch_withFetchWord (s : State) (nbits w : Nat) : (s.withFetchWord nbits w).fetch = tableWord nbits w :=
  State.memRead_memWrite_self s s.ip _

theorem runs_withFetchWord (s : State) (nbits w : Nat) : Runs (s.withFetchWord nbits w) := ⟨rfl, rfl⟩

end Sys2Proof.Machine
end

