-- ==== Sys2Proof/Laws/Effect.lean ====
section
/-! SUPPORT. What an instruction can do to the state, said once for all 51: the cases that whole-machine rules go
through, instead of unfolding every meaning. -/

namespace Sys2Proof.Machine

/-- The shapes of a next state: registers written, a free value drawn, the flags compared, an exception taken by an
instruction that may raise it, an outcome set, one or two words stored, output appended, input taken. -/
inductive Effect (s : State) (i : Instr) : State → Prop
  | regs (f : Vector Word 16) : Effect s i { s with regs := f }
  | draw (f : Vector Word 16) : Effect s i { s with regs := f, draws := s.draws + 1 }
  | flags (rd : Reg) (b : Word) : IsCompare i → Effect s i (s.compare rd b)
  | raise (e : OpException) :
    (e = .invalidReg ∧ NamesInvalidPair i) ∨ (e = .divByZero ∧ IsDivide i) ∨ (e = .regOverflow ∧ IsDtoi i) →
      Effect s i (s.raise e)
  | stop (r : StepResult) : r = .terminate ∨ r = .warning ∨ r = .held → Effect s i (s.stop r)
  | store (f : Vector Word 16) (a v : Word) : WritesMemory i → Effect s i { s.memWrite a v with regs := f }
  | store2 (a v b w : Word) : WritesMemory i → Effect s i ((s.memWrite a v).memWrite b w)
  | emit (e : HostOutput) : IsSyscall i → Effect s i (s.emit e)
  | takeInt (f : Vector Word 16) (w : Word) (rest : List Word) : IsSyscall i → s.inInts = w :: rest →
      Effect s i { s with regs := f, inInts := rest }
  | takeDouble (f : Vector Word 16) (v : DWord) (rest : List DWord) : IsSyscall i → s.inDoubles = v :: rest →
      Effect s i { s with regs := f, inDoubles := rest }
  | takeChar (f : Vector Word 16) (w : Word) (rest : List Word) : IsSyscall i → s.inChars = w :: rest →
      Effect s i { s with regs := f, inChars := rest }

theorem syscallCode_readDouble {c : Word} : syscallCode c.toInt = .readDouble ↔ c = 101 := by
  have : c = 101 ↔ c.toInt = 101 := by rw [← BitVec.toInt_inj]; rfl
  rw [this]; unfold syscallCode; repeat' split
  all_goals simp <;> omega

theorem syscallCode_printDouble {c : Word} : syscallCode c.toInt = .printDouble ↔ c = 103 := by
  have : c = 103 ↔ c.toInt = 103 := by rw [← BitVec.toInt_inj]; rfl
  rw [this]; unfold syscallCode; repeat' split
  all_goals simp <;> omega

/-- The pair check adds InvalidReg to what the operation can do. -/
theorem effect_withPair {i : Instr} {s : State} (r : Reg) (k : Reg → State) (hn : r = 15 → NamesInvalidPair i)
    (hk : ∀ hi : Reg, hi.val = r.val + 1 → Effect s i (k hi)) :
    Effect s i (s.withPair r k) := by
  rcases State.withPair_cases s r k with ⟨hr, e⟩ | ⟨hi, hh, e⟩
  · rw [e]; exact .raise _ (.inl ⟨rfl, hn hr⟩)
  · rw [e]; exact hk hi hh

/-- What any instruction can do, by cases of `Effect`. -/
theorem exec_effect (i : Instr) (s t : State) (h : exec i s = .next t) : Effect s i t := by
  have hsys : ∀ rd c, Effect s (.syscall rd c) (s.syscall (syscallCode c.toInt) rd) := by
    intro rd c
    have h1 := @syscallCode_readDouble c
    have h2 := @syscallCode_printDouble c
    generalize syscallCode c.toInt = k at *
    cases k <;> simp only [State.syscall]
    · exact .stop _ (.inl rfl)
    · unfold State.readInt; split
      · exact .stop _ (.inr (.inr rfl))
      · exact .takeInt _ _ _ trivial ‹_›
    · apply effect_withPair
      · intro h; exact ⟨h, .inl (h1.1 rfl)⟩
      · intro hi _; unfold State.readDouble; split
        · exact .stop _ (.inr (.inr rfl))
        · exact .takeDouble _ _ _ trivial ‹_›
    · exact .emit _ trivial
    · apply effect_withPair
      · intro h; exact ⟨h, .inr (h2.1 rfl)⟩
      · intro hi _; exact .emit _ trivial
    · exact .emit _ trivial
    · unfold State.getChar; split
      · exact .stop _ (.inr (.inr rfl))
      · exact .takeChar _ _ _ trivial ‹_›
    · exact .stop _ (.inr (.inl rfl))
  have hsh : ∀ i op rd f c, Effect s i (s.shift op rd f c) := by
    intro i op rd f c
    unfold State.shift; split
    · exact .regs _
    · exact .draw _
  have hfp : ∀ i op rd rs, (rd = 15 ∨ rs = 15 → NamesInvalidPair i) → Effect s i (s.fpBinary op rd rs) := by
    intro i op rd rs hn
    unfold State.fpBinary
    apply effect_withPair _ _ (fun h => hn (.inl h))
    intro hi _; apply effect_withPair _ _ (fun h => hn (.inr h))
    intro _ _; split
    · exact .regs _
    · exact .draw _
  have hdiv : ∀ i rd v, (rd = 15 → NamesInvalidPair i) → IsDivide i → Effect s i (s.divide rd v) := by
    intro i rd v hn hd
    unfold State.divide
    apply effect_withPair _ _ hn
    intro hi _
    unfold State.divLaw
    simp only []
    split
    · exact .raise _ (.inr (.inl ⟨rfl, hd⟩))
    · split
      · exact .regs _
      · exact .raise _ (.inr (.inl ⟨rfl, hd⟩))
  have hj : ∀ i c a, Effect s i (s.jumpIf c a) := by
    intro i c a; cases c
    · exact .regs _
    · exact .regs _
  cases i <;> simp only [exec] at h <;> (injection h with h; subst h)
  case syscall => exact hsys _ _
  case halt => exact .stop _ (.inl rfl)
  case shl | shli | shr | shri => exact hsh _ _ _ _ _
  case addd | subd | muld | divd => exact hfp _ _ _ _ id
  case div | divi => exact hdiv _ _ _ id trivial
  case mul | muli => exact effect_withPair _ _ id fun _ _ => .regs _
  case itod => exact effect_withPair _ _ id fun _ _ => .regs _
  case dtoi =>
    refine effect_withPair _ _ id fun _ _ => ?_
    split
    · exact .draw _
    · exact .raise _ (.inr (.inr ⟨rfl, trivial⟩))
    · exact .regs _
  case load2 | loadr2 => exact effect_withPair _ _ id fun _ _ => .regs _
  case store2 | storer2 => exact effect_withPair _ _ id fun _ _ => .store2 _ _ _ _ trivial
  case store | storer => exact .store s.regs _ _ trivial
  case push => exact .store _ _ _ trivial
  case call | calli => exact .store _ _ _ trivial
  case cmp | cmpi => exact .flags _ _ trivial
  case jmp | jne | jeq | jle | jl | jge | jg => exact hj _ _ _
  all_goals exact .regs _

end Sys2Proof.Machine
end

