-- ==== Sys2Proof/Laws/Float.lean ====
section
/-! SUPPORT. Rounding: `roundEven` is the nearest natural number, the bits of a rounded result stand for the rounded
significand, and no finite double is nearer to the exact value. -/

namespace Sys2Proof.Machine

/-! Rounding to a natural number. -/

/-- `roundEven n d` is within half a `d`. -/
theorem Fp.roundEven_half (n : Nat) {d : Nat} (hd : 0 < d) :
    2 * n ≤ 2 * (d * Fp.roundEven n d) + d ∧ 2 * (d * Fp.roundEven n d) ≤ 2 * n + d := by
  have h := Nat.div_add_mod n d
  have hm := Nat.mod_lt n hd
  unfold Fp.roundEven
  generalize n / d = q at *
  generalize n % d = r at *
  split
  · omega
  · split
    · rw [Nat.mul_add]; omega
    · split
      · omega
      · rw [Nat.mul_add]; omega

/-- A tie rounds to the even neighbour. -/
theorem Fp.roundEven_tie (n : Nat) {d : Nat} (hd : 0 < d)
    (h : 2 * n = 2 * (d * Fp.roundEven n d) + d ∨ 2 * (d * Fp.roundEven n d) = 2 * n + d) :
    Fp.roundEven n d % 2 = 0 := by
  have hq := Nat.div_add_mod n d
  have hm := Nat.mod_lt n hd
  unfold Fp.roundEven at *
  generalize n / d = q at *
  generalize n % d = r at *
  split at h
  · omega
  · split at h
    · rw [Nat.mul_add] at h; omega
    · split at h
      · rename_i h1 h2 h3; simp [h1, h2, h3]
      · rename_i h1 h2 h3; simp only [h1, h2, h3, if_false]; omega

/-- No natural number is nearer. -/
theorem Fp.roundEven_nearest (n k : Nat) {d : Nat} (hd : 0 < d) :
    ((d * Fp.roundEven n d : Nat) - n : Int).natAbs ≤ ((d * k : Nat) - n : Int).natAbs := by
  have h := Fp.roundEven_half n hd
  by_cases hk : k = Fp.roundEven n d
  · rw [hk]
  · rcases Nat.lt_or_gt_of_ne hk with hlt | hgt
    · have : d * (k + 1) ≤ d * Fp.roundEven n d := Nat.mul_le_mul_left d hlt
      rw [Nat.mul_add] at this; omega
    · have : d * (Fp.roundEven n d + 1) ≤ d * k := Nat.mul_le_mul_left d hgt
      rw [Nat.mul_add] at this; omega

theorem Fp.roundEven_le (n : Nat) {d k : Nat} (hd : 0 < d) (h : n ≤ d * k) : Fp.roundEven n d ≤ k := by
  have hh := (Fp.roundEven_half n hd).2
  by_contra hc
  have : d * (k + 1) ≤ d * Fp.roundEven n d := Nat.mul_le_mul_left d (by omega)
  rw [Nat.mul_add] at this; omega

theorem Fp.le_roundEven (n : Nat) {d k : Nat} (hd : 0 < d) (h : d * k ≤ n) : k ≤ Fp.roundEven n d := by
  have hh := (Fp.roundEven_half n hd).1
  by_contra hc
  have : d * (Fp.roundEven n d + 1) ≤ d * k := Nat.mul_le_mul_left d (by omega)
  rw [Nat.mul_add] at this; omega

/-! Magnitudes. -/

/-- A magnitude below the second binade is its own bits. -/
theorem Fp.magOfBits_small {b : Nat} (h : b < 2 ^ 53) : Fp.magOfBits b = b := by
  unfold Fp.magOfBits
  split
  · rfl
  · have h1 : b / 2 ^ 52 = 1 := by omega
    rw [h1]
    have := Nat.div_add_mod b (2 ^ 52)
    simp only [Nat.sub_self, pow_zero, Nat.mul_one]; omega

/-- Exponent steps scale the significand: bits `s * 2^52 + m` with a 53-bit `m` stand for `m * 2^s`. -/
theorem Fp.magOfBits_scaled {s m : Nat} (h : s = 0 ∨ 2 ^ 52 ≤ m) (hm : m ≤ 2 ^ 53) :
    Fp.magOfBits (s * 2 ^ 52 + m) = m * 2 ^ s := by
  by_cases hlt : m < 2 ^ 52
  · have hs : s = 0 := by omega
    subst hs
    simp only [Nat.zero_mul, Nat.zero_add, pow_zero, Nat.mul_one]
    exact Fp.magOfBits_small (by omega)
  · unfold Fp.magOfBits
    by_cases hmax : m = 2 ^ 53
    · have hd : (s * 2 ^ 52 + m) / 2 ^ 52 = s + 2 := by omega
      have hr : (s * 2 ^ 52 + m) % 2 ^ 52 = 0 := by omega
      rw [hd, hr, if_neg (by omega), hmax]
      have : s + 2 - 1 = s + 1 := by omega
      rw [this, pow_succ]; ring
    · have hd : (s * 2 ^ 52 + m) / 2 ^ 52 = s + 1 := by omega
      have hr : (s * 2 ^ 52 + m) % 2 ^ 52 = m - 2 ^ 52 := by omega
      rw [hd, hr, if_neg (by omega)]
      have : s + 1 - 1 = s := by omega
      have h2 : 2 ^ 52 + (m - 2 ^ 52) = m := by omega
      rw [this, h2]

/-- Every magnitude is a multiple of `2^s`, or smaller than `2^52 * 2^s`. -/
theorem Fp.magOfBits_multiple_or_small (b s : Nat) :
    (∃ k, Fp.magOfBits b = k * 2 ^ s) ∨ Fp.magOfBits b < 2 ^ 52 * 2 ^ s := by
  unfold Fp.magOfBits
  split
  · rename_i h
    have hb : b < 2 ^ 52 := by omega
    exact .inr (hb.trans_le (Nat.le_mul_of_pos_right _ (by positivity)))
  · by_cases hs : s ≤ b / 2 ^ 52 - 1
    · obtain ⟨j, hj⟩ := Nat.exists_eq_add_of_le hs
      refine .inl ⟨(2 ^ 52 + b % 2 ^ 52) * 2 ^ j, ?_⟩
      rw [hj, pow_add]; ring
    · refine .inr ?_
      obtain ⟨j, hj⟩ := Nat.exists_eq_add_of_lt (Nat.lt_of_not_le hs)
      have hm : 2 ^ 52 + b % 2 ^ 52 < 2 ^ 53 := by omega
      calc (2 ^ 52 + b % 2 ^ 52) * 2 ^ (b / 2 ^ 52 - 1)
          < 2 ^ 53 * 2 ^ (b / 2 ^ 52 - 1) := Nat.mul_lt_mul_of_pos_right hm (by positivity)
        _ = 2 ^ 52 * 2 ^ (b / 2 ^ 52 - 1 + 1) := by rw [pow_succ]; ring
        _ ≤ 2 ^ 52 * 2 ^ s := Nat.mul_le_mul_left _ (Nat.pow_le_pow_right (by decide) (by omega))

/-! The rounded significand. -/

/-- The dropped bits leave a quotient below 2^53, and not below 2^52 where any are dropped. -/
theorem Fp.dropped_bounds (n : Nat) {d : Nat} (hd : 0 < d) :
    n < d * 2 ^ Fp.dropped n d * 2 ^ 53 ∧ (Fp.dropped n d = 0 ∨ d * 2 ^ Fp.dropped n d * 2 ^ 52 ≤ n) := by
  unfold Fp.dropped
  set L := Nat.log2 (n / d) with hL
  have hlt : n / d < 2 ^ (L + 1) := Nat.lt_log2_self
  have hup : n < d * 2 ^ (L + 1) := by
    have := Nat.lt_mul_of_div_lt hlt hd
    rwa [Nat.mul_comm] at this
  constructor
  · calc n < d * 2 ^ (L + 1) := hup
      _ ≤ d * 2 ^ (L - 52 + 53) := Nat.mul_le_mul_left _ (Nat.pow_le_pow_right (by decide) (by omega))
      _ = d * 2 ^ (L - 52) * 2 ^ 53 := by rw [pow_add]; ring
  · by_cases h : L ≤ 52
    · left; omega
    · right
      have hne : n / d ≠ 0 := by
        intro h0; rw [h0] at hL; simp at hL; omega
      have hle : 2 ^ L ≤ n / d := Nat.log2_self_le hne
      have hmul : d * 2 ^ L ≤ n := (Nat.mul_le_mul_left d hle).trans (Nat.mul_div_le n d)
      calc d * 2 ^ (L - 52) * 2 ^ 52 = d * 2 ^ (L - 52 + 52) := by rw [pow_add]; ring
        _ = d * 2 ^ L := by rw [Nat.sub_add_cancel (by omega)]
        _ ≤ n := hmul

theorem Fp.significand_bounds (n : Nat) {d : Nat} (hd : 0 < d) :
    Fp.roundEven n (d * 2 ^ Fp.dropped n d) ≤ 2 ^ 53 ∧
      (Fp.dropped n d = 0 ∨ 2 ^ 52 ≤ Fp.roundEven n (d * 2 ^ Fp.dropped n d)) := by
  have hpos : 0 < d * 2 ^ Fp.dropped n d := Nat.mul_pos hd (by positivity)
  have h := Fp.dropped_bounds n hd
  exact ⟨Fp.roundEven_le n hpos (Nat.le_of_lt h.1), h.2.imp_right (Fp.le_roundEven n hpos)⟩

/-- Bits 62:0 of a finite rounded result stand for the rounded significand, scaled. -/
theorem Fp.magOfBits_roundBits (n : Nat) {d : Nat} (hd : 0 < d) (hfin : Fp.roundBits n d < Fp.infBits) :
    Fp.magOfBits (Fp.roundBits n d) = Fp.roundEven n (d * 2 ^ Fp.dropped n d) * 2 ^ Fp.dropped n d := by
  have hb := Fp.significand_bounds n hd
  have heq : Fp.roundBits n d = Fp.dropped n d * 2 ^ 52 + Fp.roundEven n (d * 2 ^ Fp.dropped n d) := by
    unfold Fp.roundBits at *; omega
  rw [heq]
  exact Fp.magOfBits_scaled hb.2 hb.1

/-- No double's magnitude is nearer to `n / d` than a finite rounded result. -/
theorem Fp.roundBits_nearest (n c : Nat) {d : Nat} (hd : 0 < d) (hfin : Fp.roundBits n d < Fp.infBits) :
    ((d * Fp.magOfBits (Fp.roundBits n d) : Nat) - n : Int).natAbs ≤ ((d * Fp.magOfBits c : Nat) - n : Int).natAbs := by
  have hpos : 0 < d * 2 ^ Fp.dropped n d := Nat.mul_pos hd (by positivity)
  have hnear := fun k => Fp.roundEven_nearest n k hpos
  have hmul : ∀ k, d * (k * 2 ^ Fp.dropped n d) = d * 2 ^ Fp.dropped n d * k := fun k => by ring
  rw [Fp.magOfBits_roundBits n hd hfin, hmul]
  rcases Fp.magOfBits_multiple_or_small c (Fp.dropped n d) with ⟨k, hk⟩ | hsmall
  · rw [hk, hmul]; exact hnear k
  · rcases (Fp.dropped_bounds n hd).2 with h0 | hge
    · simpa [h0] using hnear (Fp.magOfBits c)
    · have h52 := hnear (2 ^ 52)
      have : d * Fp.magOfBits c ≤ d * (2 ^ 52 * 2 ^ Fp.dropped n d) := Nat.mul_le_mul_left _ hsmall.le
      rw [hmul] at this
      omega

/-- A rounded result is an infinity from half a unit past the largest finite double on, and only from there. -/
theorem Fp.roundBits_eq_infBits_iff (n : Nat) {d : Nat} (hd : 0 < d) :
    Fp.roundBits n d = Fp.infBits ↔ d * overflowBound ≤ n := by
  have hb := Fp.significand_bounds n hd
  have hq := Fp.dropped_bounds n hd
  have hround : Fp.roundBits n d = Fp.infBits ↔
      2047 * 2 ^ 52 ≤ Fp.dropped n d * 2 ^ 52 + Fp.roundEven n (d * 2 ^ Fp.dropped n d) := by
    unfold Fp.roundBits Fp.infBits; omega
  rw [hround]
  unfold overflowBound
  generalize hs : Fp.dropped n d = s at *
  have hpos : 0 < d * 2 ^ s := Nat.mul_pos hd (by positivity)
  have hlow : s ≤ 2044 → 2 ^ s ≤ 2 ^ 2044 := fun h => Nat.pow_le_pow_right (by decide) h
  have hmid : s = 2045 → 2 ^ s = 2 * 2 ^ 2044 := fun h => by rw [h, show (2045 : Nat) = 2044 + 1 from rfl, pow_succ']
  have hhigh : 2046 ≤ s → 4 * 2 ^ 2044 ≤ 2 ^ s := fun h => by
    calc 4 * 2 ^ 2044 = 2 ^ 2046 := by rw [show (2046 : Nat) = 2044 + 2 from rfl, pow_add]; ring
      _ ≤ 2 ^ s := Nat.pow_le_pow_right (by decide) h
  have hhalf := Fp.roundEven_half n hpos
  have htie := Fp.roundEven_tie n hpos
  generalize Fp.roundEven n (d * 2 ^ s) = m at *
  generalize (2 : Nat) ^ s = w at *
  generalize (2 : Nat) ^ 2044 = p at *
  rcases Nat.lt_trichotomy s 2045 with hlt | heq | hgt
  · have hle : d * w ≤ d * p := Nat.mul_le_mul_left _ (hlow (by omega))
    rw [show d * ((2 ^ 54 - 1) * p) = (2 ^ 54 - 1) * (d * p) by ring]
    generalize d * w = u at *
    generalize d * p = v at *
    constructor <;> intro h <;> omega
  · have hw : d * w = 2 * (d * p) := by rw [hmid heq]; ring
    rw [show d * ((2 ^ 54 - 1) * p) = (2 ^ 54 - 1) * (d * p) by ring]
    generalize d * w = u at *
    generalize d * p = v at *
    constructor
    · intro h
      have hm : m = 2 ^ 53 := by omega
      subst hm; omega
    · intro h
      by_contra hc
      have hm : m ≤ 2 ^ 53 - 1 := by omega
      have hum : u * m ≤ u * (2 ^ 53 - 1) := Nat.mul_le_mul_left _ hm
      have heven := htie (.inl (by omega))
      have hum2 : u * m ≤ u * (2 ^ 53 - 2) := Nat.mul_le_mul_left _ (by omega)
      omega
  · have hle : d * (4 * p) ≤ d * w := Nat.mul_le_mul_left _ (hhigh (by omega))
    rw [show d * ((2 ^ 54 - 1) * p) = (2 ^ 54 - 1) * (d * p) by ring]
    rw [show d * (4 * p) = 4 * (d * p) by ring] at hle
    generalize d * w = u at *
    generalize d * p = v at *
    constructor <;> intro h <;> omega

/-- Of two doubles equally near, the rounded result is the even one. -/
theorem Fp.roundBits_tie (n c : Nat) {d : Nat} (hd : 0 < d) (hfin : Fp.roundBits n d < Fp.infBits)
    (htie : ((d * Fp.magOfBits (Fp.roundBits n d) : Nat) - n : Int).natAbs =
      ((d * Fp.magOfBits c : Nat) - n : Int).natAbs)
    (hne : Fp.magOfBits c ≠ Fp.magOfBits (Fp.roundBits n d)) : Fp.roundBits n d % 2 = 0 := by
  have hpos : 0 < d * 2 ^ Fp.dropped n d := Nat.mul_pos hd (by positivity)
  have hnear := fun k => Fp.roundEven_nearest n k hpos
  have hmul : ∀ k, d * (k * 2 ^ Fp.dropped n d) = d * 2 ^ Fp.dropped n d * k := fun k => by ring
  have hbits : Fp.roundBits n d = Fp.dropped n d * 2 ^ 52 + Fp.roundEven n (d * 2 ^ Fp.dropped n d) := by
    unfold Fp.roundBits at *; omega
  have hev : ∀ k, k ≠ Fp.roundEven n (d * 2 ^ Fp.dropped n d) →
      ((d * 2 ^ Fp.dropped n d * Fp.roundEven n (d * 2 ^ Fp.dropped n d) : Nat) - n : Int).natAbs =
        ((d * 2 ^ Fp.dropped n d * k : Nat) - n : Int).natAbs →
      Fp.roundBits n d % 2 = 0 := by
    intro k hk he
    have hhalf := Fp.roundEven_half n hpos
    have ht := Fp.roundEven_tie n hpos
    rw [hbits]
    generalize Fp.roundEven n (d * 2 ^ Fp.dropped n d) = m at *
    generalize d * 2 ^ Fp.dropped n d = u at *
    have : m % 2 = 0 := by
      apply ht
      rcases Nat.lt_or_gt_of_ne hk with h | h
      · have : u * (k + 1) ≤ u * m := Nat.mul_le_mul_left _ h
        rw [Nat.mul_add] at this; omega
      · have : u * (m + 1) ≤ u * k := Nat.mul_le_mul_left _ h
        rw [Nat.mul_add] at this; omega
    omega
  rw [Fp.magOfBits_roundBits n hd hfin] at htie hne
  rw [hmul] at htie
  rcases Fp.magOfBits_multiple_or_small c (Fp.dropped n d) with ⟨k, hk⟩ | hsmall
  · rw [hk, hmul] at htie
    exact hev k (by rintro rfl; exact hne hk) htie
  · rcases (Fp.dropped_bounds n hd).2 with h0 | hge
    · refine hev (Fp.magOfBits c) ?_ ?_
      · simpa [h0] using hne
      · rw [htie, h0]; simp
    · exfalso
      have h52 := hnear (2 ^ 52)
      have : d * (Fp.magOfBits c + 1) ≤ d * (2 ^ 52 * 2 ^ Fp.dropped n d) := Nat.mul_le_mul_left _ hsmall
      rw [hmul, Nat.mul_add] at this
      omega

/-! Bit patterns: sign and bits 62:0 of packed, negated and NaN patterns. -/

theorem Fp.pack_toNat (s : Bool) (b : Nat) (hb : b < 2 ^ 63) : (Fp.pack s b).toNat = s.toNat * 2 ^ 63 + b := by
  unfold Fp.pack
  rw [BitVec.toNat_append, BitVec.toNat_ofNat, Nat.mod_eq_of_lt hb, ← Nat.shiftLeft_add_eq_or_of_lt hb,
    Nat.shiftLeft_eq]
  cases s <;> simp

theorem Fp.sign_pack (s : Bool) (b : Nat) : Fp.sign (Fp.pack s b) = s := by
  unfold Fp.sign Fp.pack; rw [BitVec.msb_append]; cases s <;> simp

theorem Fp.roundBits_le (n d : Nat) : Fp.roundBits n d ≤ Fp.infBits := Nat.min_le_right _ _

theorem Fp.low63_pack (s : Bool) (b : Nat) (hb : b < 2 ^ 63) : ((Fp.pack s b).extractLsb' 0 63).toNat = b := by
  rw [BitVec.extractLsb'_toNat, Fp.pack_toNat _ _ hb]; cases s <;> simp <;> omega

theorem Fp.expField_pack (s : Bool) (b : Nat) (hb : b < 2 ^ 63) : Fp.expField (Fp.pack s b) = b / 2 ^ 52 := by
  unfold Fp.expField
  rw [BitVec.extractLsb'_toNat, Fp.pack_toNat _ _ hb, Nat.shiftRight_eq_div_pow]; cases s <;> simp <;> omega

theorem Fp.fracField_pack (s : Bool) (b : Nat) (hb : b < 2 ^ 63) : Fp.fracField (Fp.pack s b) = b % 2 ^ 52 := by
  unfold Fp.fracField
  rw [BitVec.extractLsb'_toNat, Fp.pack_toNat _ _ hb]; cases s <;> simp <;> omega

theorem Fp.mag_pack (s : Bool) (b : Nat) (hb : b < 2 ^ 63) : Fp.mag (Fp.pack s b) = Fp.magOfBits b := by
  unfold Fp.mag; rw [Fp.low63_pack _ _ hb]

theorem Fp.expField_eq (a : DWord) : Fp.expField a = (a.extractLsb' 0 63).toNat / 2 ^ 52 := by
  unfold Fp.expField; simp only [BitVec.extractLsb'_toNat, Nat.shiftRight_eq_div_pow]; omega

theorem Fp.fracField_eq (a : DWord) : Fp.fracField a = (a.extractLsb' 0 63).toNat % 2 ^ 52 := by
  unfold Fp.fracField; simp only [BitVec.extractLsb'_toNat, Nat.shiftRight_eq_div_pow]; omega

theorem Fp.low63_lt (a : DWord) : (a.extractLsb' 0 63).toNat < 2 ^ 63 := BitVec.isLt _

theorem Fp.mag_eq (a : DWord) : Fp.mag a = Fp.magOfBits (a.extractLsb' 0 63).toNat := rfl

theorem Fp.magOfBits_eq_zero {b : Nat} : Fp.magOfBits b = 0 ↔ b = 0 := by
  unfold Fp.magOfBits; split
  · rfl
  · rename_i h
    constructor
    · intro e; exfalso
      have : 0 < (2 ^ 52 + b % 2 ^ 52) * 2 ^ (b / 2 ^ 52 - 1) := by positivity
      omega
    · rintro rfl; simp at h

theorem Fp.isZero_iff (a : DWord) : Fp.isZero a = true ↔ (a.extractLsb' 0 63).toNat = 0 := by
  unfold Fp.isZero; rw [Fp.mag_eq]; simp [Fp.magOfBits_eq_zero]

theorem Fp.isNaN_iff (a : DWord) : Fp.isNaN a = true ↔ Fp.infBits < (a.extractLsb' 0 63).toNat := by
  unfold Fp.isNaN Fp.infBits; rw [Fp.expField_eq, Fp.fracField_eq]; have := Fp.low63_lt a; simp; omega

theorem Fp.isInf_iff (a : DWord) : Fp.isInf a = true ↔ (a.extractLsb' 0 63).toNat = Fp.infBits := by
  unfold Fp.isInf Fp.infBits; rw [Fp.expField_eq, Fp.fracField_eq]; have := Fp.low63_lt a; simp; omega

theorem finiteDouble_iff (a : DWord) : FiniteDouble a ↔ (a.extractLsb' 0 63).toNat < Fp.infBits := by
  unfold FiniteDouble Fp.infBits; rw [Fp.expField_eq]; have := Fp.low63_lt a; omega

theorem Fp.neg_low63 (a : DWord) : (Fp.neg a).extractLsb' 0 63 = a.extractLsb' 0 63 := by
  unfold Fp.neg
  apply BitVec.eq_of_getLsbD_eq; intro i hi
  simp only [BitVec.getLsbD_extractLsb', BitVec.getLsbD_xor, Nat.zero_add]
  have h : (1 <<< 63 : DWord).getLsbD i = false := by
    show ((1#64) <<< 63).getLsbD i = false
    simp only [BitVec.getLsbD_shiftLeft, hi]; simp
  simp only [h]; simp

theorem Fp.sign_neg (a : DWord) : Fp.sign (Fp.neg a) = !Fp.sign a := by
  unfold Fp.neg Fp.sign; rw [BitVec.msb_xor]
  have : BitVec.msb (1 <<< 63 : DWord) = true := by decide
  rw [this]; simp

theorem Fp.neg_neg (a : DWord) : Fp.neg (Fp.neg a) = a := by unfold Fp.neg; rw [BitVec.xor_assoc]; simp

theorem Fp.mag_neg (a : DWord) : Fp.mag (Fp.neg a) = Fp.mag a := by rw [Fp.mag_eq, Fp.neg_low63, Fp.mag_eq]

theorem Fp.isNaN_neg (a : DWord) : Fp.isNaN (Fp.neg a) = Fp.isNaN a := by
  rw [Bool.eq_iff_iff, Fp.isNaN_iff, Fp.isNaN_iff, Fp.neg_low63]

theorem Fp.isInf_neg (a : DWord) : Fp.isInf (Fp.neg a) = Fp.isInf a := by
  rw [Bool.eq_iff_iff, Fp.isInf_iff, Fp.isInf_iff, Fp.neg_low63]

theorem finiteDouble_neg (a : DWord) : FiniteDouble (Fp.neg a) ↔ FiniteDouble a := by
  rw [finiteDouble_iff, finiteDouble_iff, Fp.neg_low63]

theorem Fp.value_neg (a : DWord) : Fp.value (Fp.neg a) = - Fp.value a := by
  unfold Fp.value; rw [Fp.sign_neg, Fp.mag_neg]; cases Fp.sign a <;> simp

/-- The NaN draw is a NaN pattern whatever the raw value (44_float.md R223). -/
theorem Fp.isNaN_asNaN (v : DWord) : Fp.isNaN (Fp.asNaN v) = true := by
  unfold Fp.asNaN
  split
  · assumption
  · have h1 : Fp.expField (v ||| 0x7FF8000000000000) = 2047 := by
      unfold Fp.expField
      have : (v ||| 0x7FF8000000000000).extractLsb' 52 11 = 0x7FF#11 := by
        apply BitVec.eq_of_getLsbD_eq; intro i hi
        simp only [BitVec.getLsbD_extractLsb', BitVec.getLsbD_or]
        interval_cases i <;> simp
      rw [this]; rfl
    have h2 : Fp.fracField (v ||| 0x7FF8000000000000) ≠ 0 := by
      unfold Fp.fracField
      intro h
      have h' : (v ||| 0x7FF8000000000000).extractLsb' 0 52 = 0 := BitVec.eq_of_toNat_eq (by rw [h]; rfl)
      have := congrArg (fun b => b.getLsbD 51) h'
      simp at this
    unfold Fp.isNaN; rw [h1]; simpa using h2

end Sys2Proof.Machine
end

