-- ==== Sys2Proof/Laws/PerInstr.lean ====
section
/-! SUPPORT. Statements about every instruction, one lemma for each constructor. -/

namespace Sys2Proof.Laws.OpcodeByte

/-- The opcode field (bits 31:24, 30_encoding.md R90) of an instruction's word is the number `OPCODE_MAP` gives it. -/
def Statement (i : Instr) : Prop := ∀ m : OpcodeMap, opcodeOf (encodeWith m i) = m.number i.op

theorem halt : Statement .halt := fun _ => opcodeOf_packRI _ _ _

theorem syscall (rd : Reg) (imm20 : Word) : Statement (.syscall rd imm20) := fun _ => opcodeOf_packRI _ _ _

theorem add (rd rs : Reg) (imm16 : Word) : Statement (.add rd rs imm16) := fun _ => opcodeOf_packRR _ _ _ _

theorem addi (rd : Reg) (imm20 : Word) : Statement (.addi rd imm20) := fun _ => opcodeOf_packRI _ _ _

theorem sub (rd rs : Reg) (imm16 : Word) : Statement (.sub rd rs imm16) := fun _ => opcodeOf_packRR _ _ _ _

theorem subi (rd : Reg) (imm20 : Word) : Statement (.subi rd imm20) := fun _ => opcodeOf_packRI _ _ _

theorem mul (rd rs : Reg) (imm16 : Word) : Statement (.mul rd rs imm16) := fun _ => opcodeOf_packRR _ _ _ _

theorem muli (rd : Reg) (imm20 : Word) : Statement (.muli rd imm20) := fun _ => opcodeOf_packRI _ _ _

theorem div (rd rs : Reg) (imm16 : Word) : Statement (.div rd rs imm16) := fun _ => opcodeOf_packRR _ _ _ _

theorem divi (rd : Reg) (imm20 : Word) : Statement (.divi rd imm20) := fun _ => opcodeOf_packRI _ _ _

theorem lc (rd : Reg) (imm20 : Word) : Statement (.lc rd imm20) := fun _ => opcodeOf_packRI _ _ _

theorem shl (rd rs : Reg) (imm16 : Word) : Statement (.shl rd rs imm16) := fun _ => opcodeOf_packRR _ _ _ _

theorem shli (rd : Reg) (imm20 : Word) : Statement (.shli rd imm20) := fun _ => opcodeOf_packRI _ _ _

theorem shr (rd rs : Reg) (imm16 : Word) : Statement (.shr rd rs imm16) := fun _ => opcodeOf_packRR _ _ _ _

theorem shri (rd : Reg) (imm20 : Word) : Statement (.shri rd imm20) := fun _ => opcodeOf_packRI _ _ _

theorem and (rd rs : Reg) (imm16 : Word) : Statement (.and rd rs imm16) := fun _ => opcodeOf_packRR _ _ _ _

theorem andi (rd : Reg) (imm20 : Word) : Statement (.andi rd imm20) := fun _ => opcodeOf_packRI _ _ _

theorem or (rd rs : Reg) (imm16 : Word) : Statement (.or rd rs imm16) := fun _ => opcodeOf_packRR _ _ _ _

theorem ori (rd : Reg) (imm20 : Word) : Statement (.ori rd imm20) := fun _ => opcodeOf_packRI _ _ _

theorem xor (rd rs : Reg) (imm16 : Word) : Statement (.xor rd rs imm16) := fun _ => opcodeOf_packRR _ _ _ _

theorem xori (rd : Reg) (imm20 : Word) : Statement (.xori rd imm20) := fun _ => opcodeOf_packRI _ _ _

theorem not (rd : Reg) : Statement (.not rd) := fun _ => opcodeOf_packRI _ _ _

theorem mov (rd rs : Reg) (imm16 : Word) : Statement (.mov rd rs imm16) := fun _ => opcodeOf_packRR _ _ _ _

theorem addd (rd rs : Reg) : Statement (.addd rd rs) := fun _ => opcodeOf_packRR _ _ _ _

theorem subd (rd rs : Reg) : Statement (.subd rd rs) := fun _ => opcodeOf_packRR _ _ _ _

theorem muld (rd rs : Reg) : Statement (.muld rd rs) := fun _ => opcodeOf_packRR _ _ _ _

theorem divd (rd rs : Reg) : Statement (.divd rd rs) := fun _ => opcodeOf_packRR _ _ _ _

theorem itod (rd rs : Reg) : Statement (.itod rd rs) := fun _ => opcodeOf_packRR _ _ _ _

theorem dtoi (rd rs : Reg) : Statement (.dtoi rd rs) := fun _ => opcodeOf_packRR _ _ _ _

theorem push (rd : Reg) (imm20 : Word) : Statement (.push rd imm20) := fun _ => opcodeOf_packRI _ _ _

theorem pop (rd : Reg) (imm20 : Word) : Statement (.pop rd imm20) := fun _ => opcodeOf_packRI _ _ _

theorem call (rd : Reg) (addr20 : Word) : Statement (.call rd addr20) := fun _ => opcodeOf_packRI _ _ _

theorem calli (addr20 : Word) : Statement (.calli addr20) := fun _ => opcodeOf_packMe _ _

theorem ret (addr20 : Word) : Statement (.ret addr20) := fun _ => opcodeOf_packMe _ _

theorem cmp (rd rs : Reg) : Statement (.cmp rd rs) := fun _ => opcodeOf_packRR _ _ _ _

theorem cmpi (rd : Reg) (imm20 : Word) : Statement (.cmpi rd imm20) := fun _ => opcodeOf_packRI _ _ _

theorem jmp (addr20 : Word) : Statement (.jmp addr20) := fun _ => opcodeOf_packMe _ _

theorem jne (addr20 : Word) : Statement (.jne addr20) := fun _ => opcodeOf_packMe _ _

theorem jeq (addr20 : Word) : Statement (.jeq addr20) := fun _ => opcodeOf_packMe _ _

theorem jle (addr20 : Word) : Statement (.jle addr20) := fun _ => opcodeOf_packMe _ _

theorem jl (addr20 : Word) : Statement (.jl addr20) := fun _ => opcodeOf_packMe _ _

theorem jge (addr20 : Word) : Statement (.jge addr20) := fun _ => opcodeOf_packMe _ _

theorem jg (addr20 : Word) : Statement (.jg addr20) := fun _ => opcodeOf_packMe _ _

theorem load (rd : Reg) (addr20 : Word) : Statement (.load rd addr20) := fun _ => opcodeOf_packRI _ _ _

theorem store (rd : Reg) (addr20 : Word) : Statement (.store rd addr20) := fun _ => opcodeOf_packRI _ _ _

theorem load2 (rd : Reg) (addr20 : Word) : Statement (.load2 rd addr20) := fun _ => opcodeOf_packRI _ _ _

theorem store2 (rd : Reg) (addr20 : Word) : Statement (.store2 rd addr20) := fun _ => opcodeOf_packRI _ _ _

theorem loadr (rd rs : Reg) (imm16 : Word) : Statement (.loadr rd rs imm16) := fun _ => opcodeOf_packRR _ _ _ _

theorem storer (rd rs : Reg) (imm16 : Word) : Statement (.storer rd rs imm16) := fun _ => opcodeOf_packRR _ _ _ _

theorem loadr2 (rd rs : Reg) (imm16 : Word) : Statement (.loadr2 rd rs imm16) := fun _ => opcodeOf_packRR _ _ _ _

theorem storer2 (rd rs : Reg) (imm16 : Word) : Statement (.storer2 rd rs imm16) := fun _ => opcodeOf_packRR _ _ _ _

end Sys2Proof.Laws.OpcodeByte
end

