-- ==== Sys2Proof/Tests/Slice0.lean ====
section
/-! SUPPORT. Tests: the checks of WellFormed, decoding words written out from the formats, the spec's own step vectors
(95_test_vectors.md), the launch states, and for every obligation with hypotheses a state that meets them. -/

namespace Sys2Proof.Tests

open Sys2Proof Sys2Proof.Machine

/-! Helpers. -/

/-- Whether every instruction of the list is ill-formed. -/
def allRefused (l : List Instr) : Bool := l.all (fun i => !i.wf)

/-- Whether each word decodes to its instruction. -/
def decodesTo (l : List (Nat × Instr)) : Bool := l.all (fun p => decodeTableWord 32 p.1 = some p.2)

/-- `s` with the listed registers and memory words set. -/
def update (s : State) (regs : List (Reg × Word)) (mem : List (Word × Word)) : State :=
  mem.foldl (fun s p => s.memWrite p.1 p.2) (regs.foldl (fun s p => s.setReg p.1 p.2) s)

/-- A start state of 95_test_vectors.md: what is listed is set, and the instruction's word stands at IP. -/
def start (s : State) (regs : List (Reg × Word)) (mem : List (Word × Word)) (w : Word) : State :=
  let t := update s regs mem
  t.memWrite t.ip w

/-- The step of `s` gives the outcome `r`, the listed registers and words, what `f` does to the rest, and nothing
else. -/
abbrev stepsTo (s : State) (f : State → State) (r : StepResult) (regs : List (Reg × Word))
    (mem : List (Word × Word)) : Prop :=
  nextState s = some (update { f s with result := r } regs mem)
where
  /-- The next state, where there is one. -/
  nextState (s : State) : Option State :=
    match step s with
    | .next t => some t
    | .fault _ => none
    | .refused _ => none

/-! WellFormed. -/

/-- One past the range of imm16 is refused in every instruction that has the field, and below it. -/
theorem test_wf_refuses_imm16 :
    allRefused [.add 0 0 0x8000, .sub 0 0 0x8000, .mul 0 0 0x8000, .div 0 0 0x8000, .shl 0 0 0x8000, .shr 0 0 0x8000,
      .and 0 0 0x8000, .or 0 0 0x8000, .xor 0 0 0x8000, .mov 0 0 0x8000, .loadr 0 0 0x8000, .storer 0 0 0x8000,
      .loadr2 0 0 0x8000, .storer2 0 0 0x8000, .add 0 0 0xFFFF7FFF] = true := by decide

/-- One past the range of imm20 is refused in every instruction that has the field, and below it. -/
theorem test_wf_refuses_imm20 :
    allRefused [.syscall 0 0x80000, .addi 0 0x80000, .subi 0 0x80000, .muli 0 0x80000, .divi 0 0x80000, .lc 0 0x80000,
      .shli 0 0x80000, .shri 0 0x80000, .andi 0 0x80000, .ori 0 0x80000, .xori 0 0x80000, .push 0 0x80000,
      .pop 0 0x80000, .cmpi 0 0x80000, .lc 0 0xFFF7FFFF] = true := by decide

/-- One past the range of addr20 is refused in every instruction that has the field, and below it. -/
theorem test_wf_refuses_addr20 :
    allRefused [.call 0 0x100000, .calli 0x100000, .ret 0x100000, .jmp 0x100000, .jne 0x100000, .jeq 0x100000,
      .jle 0x100000, .jl 0x100000, .jge 0x100000, .jg 0x100000, .load 0 0x100000, .store 0 0x100000,
      .load2 0 0x100000, .store2 0 0x100000, .jmp 0xFFFFFFFF] = true := by decide

/-- The ends of the ranges are well-formed. -/
theorem test_wf_accepts_ends :
    (Instr.add 0 0 0x7FFF).wf = true ∧ (Instr.add 0 0 0xFFFF8000).wf = true ∧ (Instr.lc 0 0x7FFFF).wf = true ∧
      (Instr.lc 0 0xFFF80000).wf = true ∧ (Instr.jmp 0xFFFFF).wf = true ∧ (Instr.call 15 0).wf = true := by decide

/-! Decoding words written out from 30_encoding.md R91 to R97. -/

/-- 40_system.md. -/
theorem test_decode_system :
    decodesTo [(0x00F80001, .halt),
      (0x01980001, .syscall 9 0xFFF80001)] = true := by decide

/-- 41_integer_arith.md. -/
theorem test_decode_integer_arith :
    decodesTo [(0x023B8001, .add 3 11 0xFFFF8001),
      (0x03980001, .addi 9 0xFFF80001),
      (0x043B8001, .sub 3 11 0xFFFF8001),
      (0x05980001, .subi 9 0xFFF80001),
      (0x063B8001, .mul 3 11 0xFFFF8001),
      (0x07980001, .muli 9 0xFFF80001),
      (0x083B8001, .div 3 11 0xFFFF8001),
      (0x09980001, .divi 9 0xFFF80001)] = true := by decide

/-- 42_register_load.md. -/
theorem test_decode_register_load :
    decodesTo [(0x0C980001, .lc 9 0xFFF80001),
      (0x183B8001, .mov 3 11 0xFFFF8001)] = true := by decide

/-- 43_shift_logic.md. -/
theorem test_decode_shift_logic :
    decodesTo [(0x0D3B8001, .shl 3 11 0xFFFF8001),
      (0x0E980001, .shli 9 0xFFF80001),
      (0x0F3B8001, .shr 3 11 0xFFFF8001),
      (0x10980001, .shri 9 0xFFF80001),
      (0x113B8001, .and 3 11 0xFFFF8001),
      (0x12980001, .andi 9 0xFFF80001),
      (0x133B8001, .or 3 11 0xFFFF8001),
      (0x14980001, .ori 9 0xFFF80001),
      (0x153B8001, .xor 3 11 0xFFFF8001),
      (0x16980001, .xori 9 0xFFF80001),
      (0x179F8001, .not 9)] = true := by decide

/-- 44_float.md. -/
theorem test_decode_float :
    decodesTo [(0x203B8001, .addd 3 11),
      (0x213B8001, .subd 3 11),
      (0x223B8001, .muld 3 11),
      (0x233B8001, .divd 3 11),
      (0x243B8001, .itod 3 11),
      (0x253B8001, .dtoi 3 11)] = true := by decide

/-- 46_stack.md. -/
theorem test_decode_stack :
    decodesTo [(0x26980001, .push 9 0xFFF80001),
      (0x27980001, .pop 9 0xFFF80001)] = true := by decide

/-- 47_calls.md. -/
theorem test_decode_calls :
    decodesTo [(0x28980001, .call 9 0x80001),
      (0x29680001, .calli 0x80001),
      (0x2A680001, .ret 0x80001)] = true := by decide

/-- 45_compare.md. -/
theorem test_decode_compare :
    decodesTo [(0x2B3B8001, .cmp 3 11),
      (0x2C980001, .cmpi 9 0xFFF80001)] = true := by decide

/-- 48_jumps.md. -/
theorem test_decode_jumps :
    decodesTo [(0x2E680001, .jmp 0x80001),
      (0x2F680001, .jne 0x80001),
      (0x30680001, .jeq 0x80001),
      (0x31680001, .jle 0x80001),
      (0x32680001, .jl 0x80001),
      (0x33680001, .jge 0x80001),
      (0x34680001, .jg 0x80001)] = true := by decide

/-- 49_memory_ops.md. -/
theorem test_decode_memory_ops :
    decodesTo [(0x40980001, .load 9 0x80001),
      (0x41980001, .store 9 0x80001),
      (0x42980001, .load2 9 0x80001),
      (0x43980001, .store2 9 0x80001),
      (0x443B8001, .loadr 3 11 0xFFFF8001),
      (0x453B8001, .storer 3 11 0xFFFF8001),
      (0x463B8001, .loadr2 3 11 0xFFFF8001),
      (0x473B8001, .storer2 3 11 0xFFFF8001)] = true := by decide

/-! Steps (95_test_vectors.md L2). -/

/-- T2: `HALT`. unused bits ignored, 30_encoding.md rule R99. -/
theorem test_halt_t2 :
    stepsTo (start State.reset [] [] 0x00ABCDEF)
      id .terminate [(15, 0x1)] [] := by decide

/-- T3: `HALT`. IP = a + 1 after HALT. -/
theorem test_halt_t3 :
    stepsTo (start State.reset [(15, 0x5)] [] 0x00000000)
      id .terminate [(15, 0x6)] [] := by decide

/-- T8: `SYSCALL r0 101`. HostReadDouble returns 1.5. -/
theorem test_syscall_t8 :
    stepsTo (start { State.reset with inDoubles := [0x3FF8000000000000] } [] [] 0x01000065)
      (fun s => { s with inDoubles := [] }) .continued [(0, 0), (1, 0x3FF80000), (15, 0x1)] [] := by decide

/-- T9: `SYSCALL r15 101`. pair checked before reading (D31); input not consumed. -/
theorem test_syscall_t9 :
    stepsTo (start { State.reset with inDoubles := [0x3FF8000000000000] } [] [] 0x01F00065)
      id (.invalidStateFault ⟨.invalidReg, 0, 0x01F00065⟩) [(15, 0x1)] [] := by decide

/-- T19: `ADD r0 r1 1`. wrap, D6. -/
theorem test_add_t19 :
    stepsTo (start State.reset [(0, 0x7FFFFFFF)] [] 0x02010001)
      id .continued [(0, 0x80000000), (15, 0x1)] [] := by decide

/-- T22: `ADD r15 r0 0`. jump to ip + k + 1. -/
theorem test_add_t22 :
    stepsTo (start State.reset [(15, 0xA), (0, 0x4)] [] 0x02F00000)
      id .continued [(15, 0xF)] [] := by decide

/-- T24: `ADDI r0 1048575`. imm20 = −1. -/
theorem test_addi_t24 :
    stepsTo (start State.reset [(0, 0)] [] 0x030FFFFF)
      id .continued [(0, 0xFFFFFFFF), (15, 0x1)] [] := by decide

/-- T27: `SUB r0 r1 1`. 0x80000000 − 1. -/
theorem test_sub_t27 :
    stepsTo (start State.reset [(0, 0x80000000)] [] 0x04010001)
      id .continued [(0, 0x7FFFFFFF), (15, 0x1)] [] := by decide

/-- T28: `SUB r0 r0 5`. d = s gives −imm16. -/
theorem test_sub_t28 :
    stepsTo (start State.reset [(0, 0x4D)] [] 0x04000005)
      id .continued [(0, 0xFFFFFFFB), (15, 0x1)] [] := by decide

/-- T30: `SUBI r3 1048575`. subtract −1. -/
theorem test_subi_t30 :
    stepsTo (start State.reset [(3, 0x5)] [] 0x053FFFFF)
      id .continued [(3, 0x6), (15, 0x1)] [] := by decide

/-- T35: `MUL r0 r2 0`. (−2^31)², the largest product. -/
theorem test_mul_t35 :
    stepsTo (start State.reset [(0, 0x80000000), (2, 0x80000000)] [] 0x06020000)
      id .continued [(0, 0), (1, 0x40000000), (15, 0x1)] [] := by decide

/-- T39: `MUL r14 r0 0`. high half 0 written to IP: next fetch at 1. -/
theorem test_mul_t39 :
    stepsTo (start State.reset [(15, 0x7), (0, 0x1), (14, 0x5)] [] 0x06E00000)
      id .continued [(14, 0x5), (15, 0x1)] [] := by decide

/-- T41: `MULI r0 1048575`. × −1 gives +2^31 in 64 bits. -/
theorem test_muli_t41 :
    stepsTo (start State.reset [(0, 0x80000000)] [] 0x070FFFFF)
      id .continued [(0, 0x80000000), (1, 0), (15, 0x1)] [] := by decide

/-- T45: `DIV r0 r2 0`. −7/2. -/
theorem test_div_t45 :
    stepsTo (start State.reset [(0, 0xFFFFFFF9), (1, 0xFFFFFFFF), (2, 0x2)] [] 0x08020000)
      id .continued [(0, 0xFFFFFFFD), (1, 0xFFFFFFFF), (15, 0x1)] [] := by decide

/-- T51: `DIV r0 r2 0`. sext_or: −2^31 / −1 = 2^31 does not fit. -/
theorem test_div_t51 :
    stepsTo (start State.reset [(0, 0x80000000), (1, 0), (2, 0xFFFFFFFF)] [] 0x08020000)
      id (.machineFault ⟨.divByZero, 0, 0x08020000⟩) [(15, 0x1)] [] := by decide

/-- T60: `DIVI r0 7`. -/
theorem test_divi_t60 :
    stepsTo (start State.reset [(0, 0x64)] [] 0x09000007)
      id .continued [(0, 0xE), (1, 0x2), (15, 0x1)] [] := by decide

/-- T62: `DIVI r0 1048575`. −2^31 / −1. -/
theorem test_divi_t62 :
    stepsTo (start State.reset [(0, 0x80000000)] [] 0x090FFFFF)
      id (.machineFault ⟨.divByZero, 0, 0x090FFFFF⟩) [(15, 0x1)] [] := by decide

/-- T66: `LC r0 524288`. field 0x80000 = −524288. -/
theorem test_lc_t66 :
    stepsTo (start State.reset [] [] 0x0C080000)
      id .continued [(0, 0xFFF80000), (15, 0x1)] [] := by decide

/-- T68: `LC r15 9`. next fetch at 10. -/
theorem test_lc_t68 :
    stepsTo (start State.reset [] [] 0x0CF00009)
      id .continued [(15, 0xA)] [] := by decide

/-- T72: `MOV r0 r15 0`. reads own address. -/
theorem test_mov_t72 :
    stepsTo (start State.reset [(15, 0x14)] [] 0x180F0000)
      id .continued [(0, 0x14), (15, 0x15)] [] := by decide

/-- T74: `MOV r1 r1 32767`. wrap. -/
theorem test_mov_t74 :
    stepsTo (start State.reset [(1, 0x7FFFFFFF)] [] 0x18117FFF)
      id .continued [(1, 0x80007FFE), (15, 0x1)] [] := by decide

/-- T76: `SHL r0 r1 1`. count r1 + 1 = 3. -/
theorem test_shl_t76 :
    stepsTo (start State.reset [(0, 0x3), (1, 0x2)] [] 0x0D010001)
      id .continued [(0, 0x18), (15, 0x1)] [] := by decide

/-- T77: `SHL r0 r1 0`. -/
theorem test_shl_t77 :
    stepsTo (start State.reset [(0, 0xFFFFFFFF), (1, 0x1F)] [] 0x0D010000)
      id .continued [(0, 0x80000000), (15, 0x1)] [] := by decide

/-- T82: `SHLI r0 4`. -/
theorem test_shli_t82 :
    stepsTo (start State.reset [(0, 0x12345678)] [] 0x0E000004)
      id .continued [(0, 0x23456780), (15, 0x1)] [] := by decide

/-- T85: `SHR r0 r1 0`. arithmetic. -/
theorem test_shr_t85 :
    stepsTo (start State.reset [(0, 0x80000000), (1, 0x1F)] [] 0x0F010000)
      id .continued [(0, 0xFFFFFFFF), (15, 0x1)] [] := by decide

/-- T86: `SHR r0 r1 0`. -/
theorem test_shr_t86 :
    stepsTo (start { State.reset with cfg := { defaultParams with shrKind := .logical } }
        [(0, 0x80000000), (1, 0x1F)] [] 0x0F010000)
      id .continued [(0, 0x1), (15, 0x1)] [] := by decide

/-- T89: `SHRI r0 2`. -/
theorem test_shri_t89 :
    stepsTo (start State.reset [(0, 0xFFFFFFF0)] [] 0x10000002)
      id .continued [(0, 0xFFFFFFFC), (15, 0x1)] [] := by decide

/-- T90: `SHRI r0 2`. -/
theorem test_shri_t90 :
    stepsTo (start { State.reset with cfg := { defaultParams with shrKind := .logical } }
        [(0, 0xFFFFFFF0)] [] 0x10000002)
      id .continued [(0, 0x3FFFFFFC), (15, 0x1)] [] := by decide

/-- T94: `AND r0 r1 1`. right operand 0x100. -/
theorem test_and_t94 :
    stepsTo (start State.reset [(0, 0xFFFF), (1, 0xFF)] [] 0x11010001)
      id .continued [(0, 0x100), (15, 0x1)] [] := by decide

/-- T97: `ANDI r0 524288`. imm20 = 0xFFF80000. -/
theorem test_andi_t97 :
    stepsTo (start State.reset [(0, 0x12345678)] [] 0x12080000)
      id .continued [(0, 0x12300000), (15, 0x1)] [] := by decide

/-- T99: `OR r0 r1 65535`. ORs −1. -/
theorem test_or_t99 :
    stepsTo (start State.reset [(0, 0), (1, 0)] [] 0x1301FFFF)
      id .continued [(0, 0xFFFFFFFF), (15, 0x1)] [] := by decide

/-- T101: `ORI r0 524288`. sets bits 31:19. -/
theorem test_ori_t101 :
    stepsTo (start State.reset [(0, 0x1)] [] 0x14080000)
      id .continued [(0, 0xFFF80001), (15, 0x1)] [] := by decide

/-- T102: `XOR r0 r1 0`. -/
theorem test_xor_t102 :
    stepsTo (start State.reset [(0, 0xFF00), (1, 0xFF0)] [] 0x15010000)
      id .continued [(0, 0xF0F0), (15, 0x1)] [] := by decide

/-- T104: `XORI r0 1048575`. -/
theorem test_xori_t104 :
    stepsTo (start State.reset [(0, 0xF)] [] 0x160FFFFF)
      id .continued [(0, 0xFFFFFFF0), (15, 0x1)] [] := by decide

/-- T106: `NOT r0`. -/
theorem test_not_t106 :
    stepsTo (start State.reset [(0, 0xFFFF)] [] 0x17000000)
      id .continued [(0, 0xFFFF0000), (15, 0x1)] [] := by decide

/-- T114: `ADDD r0 r2 0`. rounded: 0.30000000000000004. -/
theorem test_addd_t114 :
    stepsTo (start State.reset [(0, 0x9999999A), (1, 0x3FB99999), (2, 0x9999999A), (3, 0x3FC99999)] [] 0x20020000)
      id .continued [(0, 0x33333334), (1, 0x3FD33333), (15, 0x1)] [] := by decide +kernel

/-- T116: `ADDD r0 r2 0`. subnormals kept. -/
theorem test_addd_t116 :
    stepsTo (start State.reset [(0, 0x1), (1, 0), (2, 0x1), (3, 0)] [] 0x20020000)
      id .continued [(0, 0x2), (1, 0), (15, 0x1)] [] := by decide +kernel

/-- T121: `SUBD r0 r2 0`. -/
theorem test_subd_t121 :
    stepsTo (start State.reset [(0, 0), (1, 0x3FF00000), (2, 0), (3, 0x40080000)] [] 0x21020000)
      id .continued [(0, 0), (1, 0xC0000000), (15, 0x1)] [] := by decide +kernel

/-- T122: `MULD r0 r2 0`. -/
theorem test_muld_t122 :
    stepsTo (start State.reset [(0, 0), (1, 0x3FF80000), (2, 0), (3, 0x40020000)] [] 0x22020000)
      id .continued [(0, 0), (1, 0x400B0000), (15, 0x1)] [] := by decide +kernel

/-- T123: `MULD r0 r2 0`. sign of zero. -/
theorem test_muld_t123 :
    stepsTo (start State.reset [(0, 0), (1, 0x80000000), (2, 0), (3, 0x40140000)] [] 0x22020000)
      id .continued [(0, 0), (1, 0x80000000), (15, 0x1)] [] := by decide +kernel

/-- T128: `DIVD r0 r2 0`. 1/−0 = −∞. -/
theorem test_divd_t128 :
    stepsTo (start State.reset [(0, 0), (1, 0x3FF00000), (2, 0), (3, 0x80000000)] [] 0x23020000)
      id .continued [(0, 0), (1, 0xFFF00000), (15, 0x1)] [] := by decide +kernel

/-- T130: `DIVD r0 r2 0`. 1/3 rounded to nearest. -/
theorem test_divd_t130 :
    stepsTo (start State.reset [(0, 0), (1, 0x3FF00000), (2, 0), (3, 0x40080000)] [] 0x23020000)
      id .continued [(0, 0x55555555), (1, 0x3FD55555), (15, 0x1)] [] := by decide +kernel

/-- T134: `ITOD r0 r2 0`. -/
theorem test_itod_t134 :
    stepsTo (start State.reset [(2, 0x7FFFFFFF)] [] 0x24020000)
      id .continued [(0, 0xFFC00000), (1, 0x41DFFFFF), (15, 0x1)] [] := by decide +kernel

/-- T136: `ITOD r0 r0 0`. s = d. -/
theorem test_itod_t136 :
    stepsTo (start State.reset [(0, 0x5)] [] 0x24000000)
      id .continued [(0, 0), (1, 0x40140000), (15, 0x1)] [] := by decide +kernel

/-- T140: `DTOI r0 r2 0`. -/
theorem test_dtoi_t140 :
    stepsTo (start State.reset [(2, 0xFFC00000), (3, 0x41DFFFFF)] [] 0x25020000)
      id .continued [(0, 0x7FFFFFFF), (15, 0x1)] [] := by decide +kernel

/-- T144: `DTOI r0 r2 0`. truncates toward zero. -/
theorem test_dtoi_t144 :
    stepsTo (start State.reset [(2, 0xFFA00000), (3, 0xC1DFFFFF)] [] 0x25020000)
      id .continued [(0, 0x80000002), (15, 0x1)] [] := by decide +kernel

/-- T154: `CMP r0 r1 0`. signed. -/
theorem test_cmp_t154 :
    stepsTo (start State.reset [(0, 0xFFFFFFFF), (1, 0x1)] [] 0x2B010000)
      (fun s => { s with flags := 0x2 }) .continued [(15, 0x1)] [] := by decide

/-- T157: `CMP r0 r1 0`. bits 7:2 kept (D14). -/
theorem test_cmp_t157 :
    stepsTo (start { State.reset with flags := 0xFC } [(0, 0x2), (1, 0x2)] [] 0x2B010000)
      (fun s => { s with flags := 0xFD }) .continued [(15, 0x1)] [] := by decide

/-- T161: `CMPI r0 524288`. compare with −524288: left > right. -/
theorem test_cmpi_t161 :
    stepsTo (start { State.reset with flags := 0x2 } [(0, 0)] [] 0x2C080000)
      (fun s => { s with flags := 0 }) .continued [(15, 0x1)] [] := by decide

/-- T164: `PUSH r14 0`. pushes the decremented SP (D18). -/
theorem test_push_t164 :
    stepsTo (start State.reset [(14, 0x64)] [] 0x26E00000)
      id .continued [(14, 0x63), (15, 0x1)] [(0x63, 0x63)] := by decide

/-- T166: `PUSH r0 0`. SP wraps, store to word 0xFFFFF. -/
theorem test_push_t166 :
    stepsTo (start State.reset [(0, 0x1), (14, 0)] [] 0x26000000)
      id .continued [(14, 0xFFFFFFFF), (15, 0x1)] [(0xFFFFF, 0x1)] := by decide

/-- T168: `POP r1 1048575`. adds −1. -/
theorem test_pop_t168 :
    stepsTo (start State.reset [(14, 0xFFFFE)] [(0xFFFFE, 0x2A)] 0x271FFFFF)
      id .continued [(1, 0x29), (14, 0xFFFFF), (15, 0x1)] [] := by decide

/-- T169: `POP r14 0`. SP = loaded + 1 (D18). -/
theorem test_pop_t169 :
    stepsTo (start State.reset [(14, 0x32)] [(0x32, 0xC8)] 0x27E00000)
      id .continued [(14, 0xC9), (15, 0x1)] [] := by decide

/-- T172: `CALL r3 5`. -/
theorem test_call_t172 :
    stepsTo (start State.reset [(15, 0xA), (3, 0x64), (14, 0xFFFFF)] [] 0x28300005)
      id .continued [(14, 0xFFFFE), (15, 0x69)] [(0xFFFFE, 0xB)] := by decide

/-- T175: `CALL r14 0`. uses decremented SP: target 49. -/
theorem test_call_t175 :
    stepsTo (start State.reset [(15, 0x1), (14, 0x32)] [] 0x28E00000)
      id .continued [(14, 0x31), (15, 0x31)] [(0x31, 0x2)] := by decide

/-- T177: `CALLI 0`. IP −1 then 0. -/
theorem test_calli_t177 :
    stepsTo (start State.reset [(15, 0x3), (14, 0xFFFFF)] [] 0x29000000)
      id .continued [(14, 0xFFFFE), (15, 0)] [(0xFFFFE, 0x4)] := by decide

/-- T178: `RET 2`. -/
theorem test_ret_t178 :
    stepsTo (start State.reset [(14, 0xFFFFC)] [(0xFFFFC, 0x4)] 0x2A000002)
      id .continued [(14, 0xFFFFF), (15, 0x4)] [] := by decide

/-- T182: `JNE 9`. (EQ,MAJ)=(0,0). -/
theorem test_jne_t182 :
    stepsTo (start State.reset [(15, 0x4)] [] 0x2F000009)
      id .continued [(15, 0x9)] [] := by decide

/-- T184: `JLE 9`. (EQ,MAJ)=(0,0). -/
theorem test_jle_t184 :
    stepsTo (start State.reset [(15, 0x4)] [] 0x31000009)
      id .continued [(15, 0x5)] [] := by decide

/-- T187: `JG 9`. (EQ,MAJ)=(0,0). -/
theorem test_jg_t187 :
    stepsTo (start State.reset [(15, 0x4)] [] 0x34000009)
      id .continued [(15, 0x9)] [] := by decide

/-- T191: `JEQ 9`. (0,1). -/
theorem test_jeq_t191 :
    stepsTo (start { State.reset with flags := 0x2 } [(15, 0x4)] [] 0x30000009)
      id .continued [(15, 0x5)] [] := by decide

/-- T192: `JLE 9`. (0,1). -/
theorem test_jle_t192 :
    stepsTo (start { State.reset with flags := 0x2 } [(15, 0x4)] [] 0x31000009)
      id .continued [(15, 0x9)] [] := by decide

/-- T193: `JL 9`. (0,1). -/
theorem test_jl_t193 :
    stepsTo (start { State.reset with flags := 0x2 } [(15, 0x4)] [] 0x32000009)
      id .continued [(15, 0x5)] [] := by decide

/-- T194: `JGE 9`. (0,1). -/
theorem test_jge_t194 :
    stepsTo (start { State.reset with flags := 0x2 } [(15, 0x4)] [] 0x33000009)
      id .continued [(15, 0x5)] [] := by decide

/-- T196: `JL 9`. (0,1). -/
theorem test_jl_t196 :
    stepsTo (start { State.reset with flags := 0x2, cfg := { defaultParams with jlMode := .intended } }
        [(15, 0x4)] [] 0x32000009)
      id .continued [(15, 0x9)] [] := by decide

/-- T199: `JEQ 9`. (1,0). -/
theorem test_jeq_t199 :
    stepsTo (start { State.reset with flags := 0x1 } [(15, 0x4)] [] 0x30000009)
      id .continued [(15, 0x9)] [] := by decide

/-- T203: `JG 9`. (1,0). -/
theorem test_jg_t203 :
    stepsTo (start { State.reset with flags := 0x1 } [(15, 0x4)] [] 0x34000009)
      id .continued [(15, 0x5)] [] := by decide

/-- T206: `JNE 9`. (1,1). -/
theorem test_jne_t206 :
    stepsTo (start { State.reset with flags := 0x3 } [(15, 0x4)] [] 0x2F000009)
      id .continued [(15, 0x5)] [] := by decide

/-- T210: `JGE 9`. (1,1). -/
theorem test_jge_t210 :
    stepsTo (start { State.reset with flags := 0x3 } [(15, 0x4)] [] 0x33000009)
      id .continued [(15, 0x9)] [] := by decide

/-- T215: `JMP 1048575`. zero-extended target 0xFFFFF (D3). -/
theorem test_jmp_t215 :
    stepsTo (start State.reset [(15, 0x4)] [] 0x2E0FFFFF)
      id .continued [(15, 0xFFFFF)] [] := by decide

/-- T217: `LOAD r15 100`. jump: next fetch at 8. -/
theorem test_load_t217 :
    stepsTo (start State.reset [] [(0x64, 0x7)] 0x40F00064)
      id .continued [(15, 0x8)] [] := by decide

/-- T219: `STORE r15 100`. stores own address. -/
theorem test_store_t219 :
    stepsTo (start State.reset [(15, 0xC)] [] 0x41F00064)
      id .continued [(15, 0xD)] [(0x64, 0xC)] := by decide

/-- T221: `LOAD2 r0 1048575`. second word read from word 0. -/
theorem test_load2_t221 :
    stepsTo (start State.reset [(15, 0x5)] [(0, 0x2), (0xFFFFF, 0x1)] 0x420FFFFF)
      id .continued [(0, 0x1), (1, 0x2), (15, 0x6)] [] := by decide

/-- T222: `LOAD2 r15 10`. InvalidReg. -/
theorem test_load2_t222 :
    stepsTo (start State.reset [] [] 0x42F0000A)
      id (.invalidStateFault ⟨.invalidReg, 0, 0x42F0000A⟩) [(15, 0x1)] [] := by decide

/-- T224: `STORE2 r2 1048575`. writes 0xFFFFF and 0. -/
theorem test_store2_t224 :
    stepsTo (start State.reset [(15, 0x9), (2, 0x5), (3, 0x6)] [] 0x432FFFFF)
      id .continued [(15, 0xA)] [(0, 0x6), (0xFFFFF, 0x5)] := by decide

/-- T225: `STORE2 r15 300`. InvalidReg, nothing written. -/
theorem test_store2_t225 :
    stepsTo (start State.reset [] [] 0x43F0012C)
      id (.invalidStateFault ⟨.invalidReg, 0, 0x43F0012C⟩) [(15, 0x1)] [] := by decide

/-- T227: `LOADR r1 r2 65535`. address −1 reads 0xFFFFF. -/
theorem test_loadr_t227 :
    stepsTo (start State.reset [(2, 0)] [(0xFFFFF, 0x3)] 0x4412FFFF)
      id .continued [(1, 0x3), (15, 0x1)] [] := by decide

/-- T228: `LOADR r1 r2 0`. modular: 0x100005 ≡ 5. -/
theorem test_loadr_t228 :
    stepsTo (start State.reset [(2, 0x100005)] [(0x5, 0x1234)] 0x44120000)
      id .continued [(1, 0x1234), (15, 0x1)] [] := by decide

/-- T231: `STORER r1 r2 65535`. -/
theorem test_storer_t231 :
    stepsTo (start State.reset [(1, 0x9), (2, 0x64)] [] 0x4512FFFF)
      id .continued [(15, 0x1)] [(0x63, 0x9)] := by decide

/-- T234: `LOADR2 r0 r0 0`. s = d: address formed first. -/
theorem test_loadr2_t234 :
    stepsTo (start State.reset [(0, 0x12C)] [(0x12C, 0x1), (0x12D, 0x2)] 0x46000000)
      id .continued [(0, 0x1), (1, 0x2), (15, 0x1)] [] := by decide

/-- T235: `LOADR2 r0 r1 0`. s = d + 1. -/
theorem test_loadr2_t235 :
    stepsTo (start State.reset [(1, 0x12C)] [(0x12C, 0x1), (0x12D, 0x2)] 0x46010000)
      id .continued [(0, 0x1), (1, 0x2), (15, 0x1)] [] := by decide

/-- T238: `STORER2 r0 r5 0`. writes 0xFFFFF and 0. -/
theorem test_storer2_t238 :
    stepsTo (start State.reset [(15, 0x3), (0, 0x1), (1, 0x2), (5, 0xFFFFFFFF)] [] 0x47050000)
      id .continued [(15, 0x4)] [(0, 0x2), (0xFFFFF, 0x1)] := by decide

/-- T244: `(opcode 45)`. undefined: Error, only IP changes. -/
theorem test_undefined_t244 :
    stepsTo (start State.reset [(15, 0x3)] [] 0x2D123456)
      id .error [(15, 0x4)] [] := by decide

/-! Draws (T79, T92, T113, T146): the instruction completes, one draw is taken and IP advances. -/

/-- Whether the step of `s` continues at IP `ip` with one draw taken. -/
def draws (s : State) (ip : Word) : Bool :=
  match step s with
  | .next t => t.result = .continued && t.draws == s.draws + 1 && t.ip == ip
  | .fault _ => false
  | .refused _ => false

theorem test_shl_t79_draws : draws (start State.reset [(0, 5), (1, 32)] [] 0x0D010000) 1 = true := by decide

theorem test_shri_t92_draws : draws (start State.reset [(0, 1)] [] 0x10000020) 1 = true := by decide

theorem test_addd_t113_draws :
    draws (start State.reset [(1, 0x7FF00000), (3, 0xFFF00000)] [] 0x20020000) 1 = true := by decide +kernel

theorem test_dtoi_t146_draws : draws (start State.reset [(3, 0x7FF80000)] [] 0x25020000) 1 = true := by decide +kernel

/-! Launch states (95_test_vectors.md L2.12). -/

/-- The raw image of T255. -/
def image255 : List Byte :=
  [0, 0, 0, 1] ++ List.replicate 52 0 ++ [0, 0x0F, 0xFF, 0xFF, 0, 0, 0, 0, 2] ++ [0x0C, 0x10, 0, 7, 0, 0, 0, 0]

/-- The state an image or a text loads, where it does. -/
def loaded {ε : Type} : Except ε State → Option State
  | .ok s => some s
  | .error _ => none

/-- T255: what the image loads. -/
theorem test_raw_image_t255 :
    loaded (loadRawState defaultParams image255) =
      some (update { State.reset with flags := 2 } [(0, 1), (14, 0xFFFFF)] [(0, 0x0C100007)]) := by decide +kernel

/-- T256, T257: refused as launch states. -/
theorem test_raw_image_t256_t257 :
    loaded (loadRawState defaultParams (List.replicate 66 0)) = none ∧ loaded (loadRawState defaultParams (List.replicate 64 0)) = none := by
  decide +kernel

/-- `LC r0 1 HALT`. -/
def text258 : List Char := ['L', 'C', ' ', 'r', '0', ' ', '1', ' ', 'H', 'A', 'L', 'T']

/-- T258: what the text assembles to. -/
theorem test_assemble_t258 :
    loaded (assemble defaultParams text258) = some (update State.reset [(14, 0xFFFFF)] [(0, 0x0C000001)]) := by decide +kernel

/-- V7 with `; x` and an entry point: `JMP a` over `word`, then `a: HALT`, entered at `a`. -/
theorem test_assemble_label_and_entry :
    loaded (assemble defaultParams (['J', 'M', 'P', ' ', 'a', ' ', ';', 'x', '\n', 'w', 'o', 'r', 'd', ' ', 'a', ':', ' '] ++
      ['H', 'A', 'L', 'T', '\n', 'e', 'n', 'd', ' ', 'a'])) =
      some (update State.reset [(14, 0xFFFFF), (15, 2)] [(0, 0x2E000002)]) := by decide +kernel

/-- `LC r0 1 FOO`: the text fails at word 1, counted 2, with the word before it written and SP still 0. -/
def textFails : List Char := ['L', 'C', ' ', 'r', '0', ' ', '1', ' ', 'F', 'O', 'O']

/-- R125, R375: the reason, the 1-based address, and the partial writes that are not rolled back. -/
theorem test_assemble_keeps_partial_writes :
    (match assemble defaultParams textFails with
      | .ok _ => none
      | .error e => some e) =
      some { reason := .unknownOpcode, wordAddress := 2, target := update State.reset [] [(0, 0x0C000001)] } := by
  decide +kernel

/-! `OPCODE_MAP` (R10, D1). -/

/-- A map with the numbers of ADD and SUB exchanged. -/
def exchanged : OpcodeMap := { defaultOpcodeMap with add := 4, sub := 2 }

/-- Under it 0x04010003 is `ADD r0 r1 3`. -/
theorem test_step_follows_the_opcode_map :
    stepsTo (start { State.reset with cfg := { defaultParams with opcodeMap := exchanged } } [(0, 5), (1, 7)] []
        0x04010003)
      id .continued [(0, 15), (15, 1)] [] := by decide +kernel

/-! Witnesses: for each obligation with hypotheses, states and operands that meet them, at the ends of their ranges. -/

theorem witness_EncodedInstructionDecodesToItself :
    exchanged.wf ∧ defaultOpcodeMap.wf ∧ (Instr.addi 15 0xFFF80000).WellFormed ∧
      (Instr.storer2 14 15 0x7FFF).WellFormed ∧ (Instr.jmp 0xFFFFF).WellFormed := by decide

theorem witness_DecodedWordReencodes : decodeWith exchanged 0x2EFABCDE = .ok (.jmp 0xABCDE) ∧
    decodeWith defaultOpcodeMap 0x17912345 = .ok (.not 9) :=
  ⟨rfl, rfl⟩

theorem witness_UndefinedOpcodesAreRejected :
    UndefinedIn exchanged (opcodeOf 0x48123456) ∧ ¬ UndefinedIn exchanged (opcodeOf 0x47123456) ∧
      (∀ n ∈ [10, 11, 25, 31, 45, 53, 63, 72, 255], UndefinedOpcode n) ∧
      ∀ n ∈ [0, 9, 12, 24, 32, 44, 46, 52, 64, 71], ¬ UndefinedOpcode n :=
  ⟨by intro o; cases o <;> decide, fun h => h .storer2 (by decide), by simp [UndefinedOpcode],
    by simp [UndefinedOpcode]⟩

/-- `ADDI r0 1` at address 5. -/
def adds : State := start State.reset [(15, 5)] [] 0x03000001

/-- `SYSCALL r0 100` with no input. -/
def waits : State := start State.reset [] [] 0x01000064

theorem witness_StepRunsTheDecodedInstruction :
    (Runs adds ∧ decodeWith adds.cfg.opcodeMap (adds.memRead adds.ip) = .ok (.addi 0 1) ∧
      ∃ t, exec (.addi 0 1) { adds with result := .continued } = .next t ∧ t.result ≠ .held) ∧
    (Runs waits ∧ decodeWith waits.cfg.opcodeMap (waits.memRead waits.ip) = .ok (.syscall 0 100) ∧
      ∃ t, exec (.syscall 0 100) { waits with result := .continued } = .next t ∧ t.result = .held) :=
  ⟨⟨⟨rfl, rfl⟩, rfl, _, rfl, by decide⟩, ⟨rfl, rfl⟩, rfl, _, rfl, by decide⟩

/-- Opcode 72 at address 3. -/
def undefined72 : State := start State.reset [(15, 3)] [] 0x48123456

theorem witness_UndefinedOpcodeStepIsError :
    Runs undefined72 ∧ UndefinedIn undefined72.cfg.opcodeMap (opcodeOf (undefined72.memRead undefined72.ip)) :=
  ⟨⟨rfl, rfl⟩, by intro o; cases o <;> decide⟩

theorem witness_StepsStopOnlyAtEndedRunsAndTheCheckedMode :
    (State.reset.stop .terminate).result.ended = true ∧
    (State.reset.result.ended = false ∧
      ({ State.reset with cfg := { defaultParams with addressing := .checked } } : State).cfg.addressing = .checked) ∧
    Runs State.reset := ⟨rfl, ⟨rfl, rfl⟩, rfl, rfl⟩

theorem witness_RunLoopStopsAtTheFirstOutcome :
    (∃ t, step adds = .next t ∧ t.result = .continued) ∧
      ∃ t, step State.reset = .next t ∧ t.result.ended = true := ⟨⟨_, rfl, by decide⟩, _, rfl, by decide⟩

/-- `STORE r1 100` with a value in r1. -/
def stores : State := start State.reset [(1, 7)] [] 0x41100064

theorem witness_EveryStepKeepsMemoryCanonical :
    CanonicalMemory stores ∧ ∃ t, step stores = .next t ∧ t.memRead 100 = 7 :=
  ⟨by unfold CanonicalMemory; decide, _, rfl, by decide⟩

theorem witness_LaunchStatesAreCanonical : (loaded (loadRawState defaultParams image255)).isSome = true := by decide +kernel

/-- `CMP r0 r1` of 1 and 2 where both flags are not set and bits 7:2 are. -/
def compares : State := start { State.reset with flags := 0xFC } [(0, 1), (1, 2)] [] 0x2B010000

theorem witness_StepsKeepTheFlagsExclusive :
    FlagsExclusive compares ∧ ∃ t, step compares = .next t ∧ t.flags = 0xFE :=
  ⟨by unfold FlagsExclusive; decide, _, rfl, by decide⟩

theorem witness_ComparesWriteAndJumpsReadTheFlags :
    (∃ t, exec (.addi 0 1) adds = .next t) ∧ ¬ IsCompare (.addi 0 1) ∧ ¬ IsConditionalJump (.addi 0 1) ∧
      (∃ t, exec (.cmp 0 1) compares = .next t) ∧ IsCompare (.cmp 0 1) ∧
      (∃ t, exec (.jle 9) adds = .next t) ∧ IsConditionalJump (.jle 9) ∧ ¬ IsCompare (.jle 9) ∧
      equality 0xFC = equality adds.flags ∧ majority 0xFC = majority adds.flags :=
  ⟨⟨_, rfl⟩, id, id, ⟨_, rfl⟩, trivial, ⟨_, rfl⟩, trivial, id, rfl, rfl⟩

theorem witness_OnlyListedInstructionsReachMemory :
    ∃ t, exec (.addi 0 1) adds = .next t ∧ ¬ WritesMemory (.addi 0 1) ∧ ¬ ReadsMemory (.addi 0 1) ∧
      ¬ IsEngineFault t.result := ⟨_, rfl, id, id, id⟩

theorem witness_OnlySyscallReachesTheHost :
    (∃ t, exec (.addi 0 1) adds = .next t) ∧ ¬ IsSyscall (.addi 0 1) ∧ Runs adds ∧ ∃ t, step adds = .next t :=
  ⟨⟨_, rfl⟩, id, ⟨rfl, rfl⟩, _, rfl⟩

/-- `DIVI r0 0`. -/
def divides : State := start State.reset [(0, 5)] [] 0x09000000

theorem witness_ExceptionsHaveTheirRaisersAndClasses :
    divides.result = .continued ∧
      (∃ t r, exec (.divi 0 0) divides = .next t ∧ t.result = .machineFault r) ∧
      (∃ t r, exec (.muli 15 0) divides = .next t ∧ t.result = .invalidStateFault r) ∧
      NamesInvalidPair (.muli 15 0) ∧ ¬ NamesInvalidPair (.muli 14 0) :=
  ⟨rfl, ⟨_, _, rfl, rfl⟩, ⟨_, _, rfl, rfl⟩, rfl, by simp [NamesInvalidPair]⟩

theorem witness_FaultsArePreciseAndRecorded :
    divides.result = .continued ∧ ∃ t, exec (.divi 0 0) divides = .next t ∧ IsEngineFault t.result :=
  ⟨rfl, _, rfl, trivial⟩

/-- The pair premise of the pair instructions, at both ends of the valid pairs. -/
theorem witness_pairs :
    ((1 : Reg).val = (0 : Reg).val + 1 ∧ (15 : Reg).val = (14 : Reg).val + 1) ∧
      ∀ hi : Reg, hi.val ≠ (15 : Reg).val + 1 := by decide

theorem witness_MultiplyWritesTheSignedProduct : (15 : Reg).val = (14 : Reg).val + 1 := rfl

theorem witness_DivideFollowsTheDivisionLaw : (15 : Reg).val = (14 : Reg).val + 1 := rfl

/-- -7 divided by 2 is -3 with remainder -1; and the quotients -2^31 and 2^31 - 1. -/
theorem witness_DivideCompletesWhenTheQuotientFits :
    let law := fun (lo hi v : Word) (q r : Int) => v ≠ 0 ∧
      dividendValue .sextOr lo hi = v.toInt * q + r ∧ r.natAbs < v.toInt.natAbs ∧
      (r ≠ 0 → (0 < r ↔ 0 < dividendValue .sextOr lo hi)) ∧ -2147483648 ≤ q ∧ q ≤ 2147483647
    State.reset.cfg.divDividend = .sextOr ∧ law 0xFFFFFFF9 0xFFFFFFFF 2 (-3) (-1) ∧
      law 0x80000000 0 1 (-2147483648) 0 ∧ law 0x7FFFFFFF 0 1 2147483647 0 := by decide

/-- Counts 0 and 31, and 32 and -1 outside them, by immediate and by register plus immediate. -/
theorem witness_LeftShiftsMultiplyByAPowerOfTwo :
    let inside := fun c : Word => 0 ≤ c.toInt ∧ c.toInt ≤ 31
    inside 0 ∧ inside 31 ∧ ¬ inside 32 ∧ ¬ inside 0xFFFFFFFF ∧ inside (stores.reg 1 + 24) ∧
      ¬ inside (stores.reg 1 + 25) := by decide

theorem witness_RightShiftsDivideByAPowerOfTwo :
    let inside := fun c : Word => 0 ≤ c.toInt ∧ c.toInt ≤ 31
    inside 0 ∧ inside 31 ∧ ¬ inside 32 ∧ ¬ inside 0xFFFFFFFF ∧ inside (stores.reg 1 + 24) ∧
      ¬ inside (stores.reg 1 + 25) := by decide

theorem witness_DoubleOperationsWriteOnePair :
    (15 : Reg).val = (14 : Reg).val + 1 ∧ (1 : Reg).val = (0 : Reg).val + 1 := ⟨rfl, rfl⟩

theorem witness_FloatPairsAreChecked : ((15 : Reg) = 15 ∨ (0 : Reg) = 15) ∧ ((0 : Reg) = 15 ∨ (15 : Reg) = 15) := by
  decide

/-- 1.5 + 2.25, the largest double doubled, and 1 / 3. -/
theorem witness_DoubleResultsAreNearestTiesToEven :
    (FiniteDouble 0x3FF8000000000000 ∧ FiniteDouble 0x4002000000000000 ∧
      Fp.eval .addd 0x3FF8000000000000 0x4002000000000000 = some 0x400E000000000000 ∧
      FiniteDouble 0x400E000000000000) ∧
    (FiniteDouble 0x7FEFFFFFFFFFFFFF ∧
      Fp.eval .addd 0x7FEFFFFFFFFFFFFF 0x7FEFFFFFFFFFFFFF = some 0x7FF0000000000000 ∧
      ¬ FiniteDouble 0x7FF0000000000000) ∧
    (Fp.isZero 0x4008000000000000 = false ∧
      Fp.eval .divd 0x3FF0000000000000 0x4008000000000000 = some 0x3FD5555555555555) := by
  unfold FiniteDouble
  decide +kernel

theorem witness_NaNsComeFromInvalidOperations :
    Fp.eval .muld 0 0 = some 0 := by decide +kernel

/-- Each clause of the obligation: a zero, an infinity, a cancelling sum, each infinite operand. -/
theorem witness_ZerosAndInfinitiesHaveIeeeSigns :
    (Fp.mul 0x8000000000000000 0x4014000000000000 = some 0x8000000000000000) ∧
    (Fp.div 0x3FF0000000000000 0x8000000000000000 = some 0xFFF0000000000000 ∧ Fp.isZero 0x8000000000000000 = true) ∧
    (Fp.div 0xFFF0000000000000 0x3FF0000000000000 = some 0xFFF0000000000000) ∧
    (Fp.div 0x3FF0000000000000 0xFFF0000000000000 = some 0x8000000000000000) ∧
    (Fp.add 0x8000000000000000 0 = some 0 ∧ Fp.value 0x8000000000000000 + Fp.value 0 = 0) ∧
    (Fp.add 0x7FF0000000000000 0 = some 0x7FF0000000000000 ∧ Fp.add 0 0x7FF0000000000000 = some 0x7FF0000000000000) ∧
    (Fp.sub 0x400E000000000000 0x400E000000000000 = some 0 ∧ Fp.sub 0x8000000000000000 0 = some 0x8000000000000000 ∧
      Fp.value 0x8000000000000000 - Fp.value 0 = 0) ∧
    (Fp.sub 0x7FF0000000000000 0 = some 0x7FF0000000000000 ∧ Fp.sub 0 0x7FF0000000000000 = some 0xFFF0000000000000) ∧
    (Fp.mul 0x3FF0000000000000 0x7FF0000000000000 = some 0x7FF0000000000000) := by decide +kernel

theorem witness_IntegerToDoubleIsExact : (15 : Reg).val = (14 : Reg).val + 1 ∧ State.reset.reg 0 = 0 := ⟨rfl, rfl⟩

/-- The last value at the boundary, the first past it (T140, T141), an infinity and a NaN. -/
theorem witness_DoubleToIntegerTruncates :
    (3 : Reg).val = (2 : Reg).val + 1 ∧
    (FiniteDouble 0x41DFFFFFFFC00000 ∧ Fp.mag 0x41DFFFFFFFC00000 = 2147483647 * Fp.one) ∧
    (FiniteDouble 0x41DFFFFFFFC00001 ∧ 2147483647 * Fp.one < Fp.mag 0x41DFFFFFFFC00001) ∧
    Fp.isInf 0xFFF0000000000000 = true ∧ Fp.isNaN 0x7FF8000000000000 = true := by
  unfold FiniteDouble
  decide +kernel

theorem witness_JumpLessFollowsItsMode :
    State.reset.cfg.jlMode = .referenceNoop ∧
      ({ State.reset with cfg := { defaultParams with jlMode := .intended } } : State).cfg.jlMode = .intended :=
  ⟨rfl, rfl⟩

theorem witness_CompareThenJumpDecidesTheOrder :
    let s : State := { compares with cfg := { defaultParams with jlMode := .intended } }
    (∃ t, exec (.cmp 0 1) s = .next t) ∧ s.result = .continued ∧ s.cfg.jlMode = .intended :=
  ⟨⟨_, rfl⟩, rfl, rfl⟩

theorem witness_PopLoadsThenIncrementsTheStackPointer : (15 : Reg) ≠ 14 ∧ (14 : Reg) = 14 := by decide

theorem witness_PushThenPopRoundTrips :
    (0 : Reg) ≠ 14 ∧ (15 : Reg) ≠ 14 ∧ adds.result = .continued ∧
      ∃ t u, exec (.push 0 0) adds = .next t ∧ exec (.pop 15 0) t.tail = .next u :=
  ⟨by decide, by decide, rfl, _, _, rfl, rfl⟩

theorem witness_CallThenReturnComesBack :
    adds.result = .continued ∧ (∃ t u, exec (.calli 9) adds = .next t ∧ exec (.ret 0) t.tail = .next u) ∧
      ∃ t u, exec (.call 14 9) adds = .next t ∧ exec (.ret 0) t.tail = .next u :=
  ⟨rfl, ⟨_, _, rfl, rfl⟩, _, _, rfl, rfl⟩

theorem witness_PairLoadsWriteTwoRegisters : (15 : Reg).val = (14 : Reg).val + 1 := rfl

theorem witness_PairStoresWriteTwoWords : (15 : Reg).val = (14 : Reg).val + 1 := rfl

theorem witness_HaltTerminates :
    Runs State.reset ∧ decodeWith State.reset.cfg.opcodeMap (State.reset.memRead State.reset.ip) = .ok .halt := ⟨⟨rfl, rfl⟩, rfl⟩

theorem witness_SyscallOfUnknownCodeWarns :
    [(0xFFFFFFFF : Word), 1, 99, 104, 107, 0x7FFFF].all
      (fun code => decide (code.toInt ∉ [0, 100, 101, 102, 103, 105, 106])) = true := by decide

theorem witness_SyscallOutputIsAppended : (15 : Reg).val = (14 : Reg).val + 1 := rfl

theorem witness_SyscallInputIsTaken :
    (waits.supplyInt 5).inInts = 5 :: [] ∧ waits.inChars = [] ∧ (waits.supplyByte 0x7F 9).inChars = 0x7F :: [] ∧
      (waits.supplyByte 0x80 9).inChars = 9 :: [] ∧ (0x7F : Byte).toNat < 0x80 ∧ 0x80 ≤ (0x80 : Byte).toNat ∧
      (15 : Reg).val = (14 : Reg).val + 1 ∧ (waits.supplyDouble 9).inDoubles = 9 :: [] :=
  ⟨rfl, rfl, rfl, rfl, by decide, by decide, rfl, rfl⟩

/-- `SYSCALL r14 101` with no input. -/
def waits101 : State := start State.reset [] [] 0x01E00065

/-- `SYSCALL r15 106` with no input. -/
def waits106 : State := start State.reset [] [] 0x01F0006A

theorem witness_BlockingReadsAreHeldUntilInput :
    (Runs waits ∧ decodeWith waits.cfg.opcodeMap (waits.memRead waits.ip) = .ok (.syscall 0 100) ∧ waits.inInts = []) ∧
    (Runs waits101 ∧ decodeWith waits101.cfg.opcodeMap (waits101.memRead waits101.ip) = .ok (.syscall 14 101) ∧ (14 : Reg) ≠ 15 ∧
      waits101.inDoubles = []) ∧
    (Runs waits106 ∧ decodeWith waits106.cfg.opcodeMap (waits106.memRead waits106.ip) = .ok (.syscall 15 106) ∧ waits106.inChars = []) :=
  ⟨⟨⟨rfl, rfl⟩, rfl, rfl⟩, ⟨⟨rfl, rfl⟩, rfl, by decide, rfl⟩, ⟨rfl, rfl⟩, rfl, rfl⟩

/-- 65 bytes, the shortest image, and one with memory. -/
theorem witness_RawImageLoadsItsLayout :
    (loaded (loadRawState defaultParams (List.replicate 65 0))).isSome = true ∧
      (loaded (loadRawState defaultParams image255)).isSome = true := by decide +kernel

theorem witness_AssembledStateIsLaidOut : (0 : Reg) ≠ 14 ∧ (13 : Reg) ≠ 15 := by decide

/-- `LC r0 1` assembled, with the label `a` at 0 and the label `b` at 5. -/
def oneWord : Assembly :=
  { Assembly.empty defaultParams with words := [0x0C000001], labels := [(['a'], 0), (['b'], 5)] }

/-- `b` used at word 0, and then `c`, which nothing declares. -/
def useB : LabelUse := { address := 0, bits := 20, name := ['b'] }

def useC : LabelUse := { address := 0, bits := 20, name := ['c'] }

/-- A text that assembles, one that fails in the first pass, an item that fails after a word and one that writes a word, and
label resolution that fails after a use it resolves and that succeeds. -/
theorem witness_AssembledTextsLaunch :
    (∃ s, assemble defaultParams text258 = .ok s) ∧ (∃ e, assemble defaultParams textFails = .error e) ∧
      (∃ e, oneWord.items 1 [['F', 'O', 'O']] = .error e) ∧ oneWord.item ['F', 'O', 'O'] [] = .error .unknownOpcode ∧
      (∃ b, oneWord.item ['w', 'o', 'r', 'd'] [['x']] = .ok (b, [['x']])) ∧
      (∃ e, oneWord.patch [useB, useC] = .error e) ∧ ∃ b, oneWord.patch [useB] = .ok b :=
  ⟨⟨_, rfl⟩, ⟨_, rfl⟩, ⟨_, rfl⟩, by decide, ⟨_, rfl⟩, ⟨_, rfl⟩, _, rfl⟩

/-- R124, R125 (what a failed resolution leaves: log entry 30): the label resolved before the failing one stays OR'd in,
and the address of the failing word is counted from 1. -/
theorem test_patch_keeps_words :
    oneWord.patch [useB, useC] = .error
      { reason := .undeclaredLabel, wordAddress := 1, target := partialState defaultParams [0x0C000005] 0 } := by
  decide +kernel

end Sys2Proof.Tests
end

/-! # The flags (10_state.md R43) and the constructed state (R47)

Setting the flags commutes with every operation on the state but the compare, so an instruction that asks nothing of
the flags does the same whatever they are. -/

namespace Sys2Proof.Machine

/-- The same machine with the flags byte `f`. -/
def State.withFlags (st : State) (f : Byte) : State := { st with flags := f }

/-! Setting the flags commutes with the operations that branch; with the others it commutes by computation. -/

theorem State.withPair_withFlags (st : State) (f : Byte) (r : Reg) {k k' : Reg → State}
    (hk : ∀ hi, k' hi = (k hi).withFlags f) : (st.withFlags f).withPair r k' = (st.withPair r k).withFlags f := by
  unfold State.withPair
  cases pairHigh r with
  | none => rfl
  | some hi => exact hk hi

theorem State.multiply_withFlags (st : State) (f : Byte) (rd : Reg) (b : Word) :
    (st.withFlags f).multiply rd b = (st.multiply rd b).withFlags f :=
  st.withPair_withFlags f rd fun _ => rfl

theorem State.intToDouble_withFlags (st : State) (f : Byte) (rd rs : Reg) :
    (st.withFlags f).intToDouble rd rs = (st.intToDouble rd rs).withFlags f :=
  st.withPair_withFlags f rd fun _ => rfl

theorem State.loadPair_withFlags (st : State) (f : Byte) (rd : Reg) (a : Word) :
    (st.withFlags f).loadPair rd a = (st.loadPair rd a).withFlags f :=
  st.withPair_withFlags f rd fun _ => rfl

theorem State.storePair_withFlags (st : State) (f : Byte) (rd : Reg) (a : Word) :
    (st.withFlags f).storePair rd a = (st.storePair rd a).withFlags f :=
  st.withPair_withFlags f rd fun _ => rfl

theorem State.divLaw_withFlags (st : State) (f : Byte) (rd hi : Reg) (v : Word) :
    (st.withFlags f).divLaw rd hi v = (st.divLaw rd hi v).withFlags f := by
  have hregs : ∀ q, (st.withFlags f).reg q = st.reg q := fun _ => rfl
  have hcfg : (st.withFlags f).cfg = st.cfg := rfl
  simp only [State.divLaw, hregs, hcfg]
  split
  · rfl
  · split <;> rfl

theorem State.divide_withFlags (st : State) (f : Byte) (rd : Reg) (v : Word) :
    (st.withFlags f).divide rd v = (st.divide rd v).withFlags f :=
  st.withPair_withFlags f rd fun hi => st.divLaw_withFlags f rd hi v

theorem State.shift_withFlags (st : State) (f : Byte) (op : ShiftOp) (rd : Reg) (g : Word → Word → Word) (c : Word) :
    (st.withFlags f).shift op rd g c = (st.shift op rd g c).withFlags f := by
  unfold State.shift
  split <;> rfl

theorem State.fpBinary_withFlags (st : State) (f : Byte) (op : FpOp) (rd rs : Reg) :
    (st.withFlags f).fpBinary op rd rs = (st.fpBinary op rd rs).withFlags f := by
  refine st.withPair_withFlags f rd fun dhi => st.withPair_withFlags f rs fun shi => ?_
  have hpair : ∀ lo hi, (st.withFlags f).pair lo hi = st.pair lo hi := fun _ _ => rfl
  simp only [hpair]
  cases Fp.eval op (st.pair rd dhi) (st.pair rs shi) with
  | none => rfl
  | some r => rfl

theorem State.doubleToInt_withFlags (st : State) (f : Byte) (rd rs : Reg) :
    (st.withFlags f).doubleToInt rd rs = (st.doubleToInt rd rs).withFlags f := by
  refine st.withPair_withFlags f rs fun hi => ?_
  have hpair : (st.withFlags f).pair rs hi = st.pair rs hi := rfl
  simp only [hpair]
  cases Fp.toInt32 (st.pair rs hi) with
  | nan => rfl
  | overflow => rfl
  | value v => rfl

theorem State.syscall_withFlags (st : State) (f : Byte) (code : SyscallCode) (rd : Reg) :
    (st.withFlags f).syscall code rd = (st.syscall code rd).withFlags f := by
  have hints : (st.withFlags f).inInts = st.inInts := rfl
  have hdoubles : (st.withFlags f).inDoubles = st.inDoubles := rfl
  have hchars : (st.withFlags f).inChars = st.inChars := rfl
  cases code with
  | exit | printInt | putChar | unknown => rfl
  | readInt =>
    simp only [State.syscall, State.readInt, hints]
    split <;> rfl
  | getChar =>
    simp only [State.syscall, State.getChar, hchars]
    split <;> rfl
  | printDouble => exact st.withPair_withFlags f rd fun _ => rfl
  | readDouble =>
    refine st.withPair_withFlags f rd fun hi => ?_
    simp only [State.readDouble, hdoubles]
    split <;> rfl

theorem State.jumpIf_withFlags (st : State) (f : Byte) {c c' : Bool} (hc : c' = c) (addr20 : Word) :
    (st.withFlags f).jumpIf c' addr20 = (st.jumpIf c addr20).withFlags f := by
  subst hc
  cases c' <;> rfl

/-! The compare law and the jump conditions. -/

/-- The two bits a compare writes do not depend on the flags before it. -/
theorem compareFlags_bits_congr (f g : Byte) (a b : Word) :
    equality (compareFlags f a b) = equality (compareFlags g a b) ∧
      majority (compareFlags f a b) = majority (compareFlags g a b) := by
  obtain ⟨heqf, hmajf, -⟩ := compareFlags_bits f a b
  obtain ⟨heqg, hmajg, -⟩ := compareFlags_bits g a b
  exact ⟨heqf.trans heqg.symm, hmajf.trans hmajg.symm⟩

/-- JL's condition reads the two named bits alone, under either `JL_MODE`. -/
theorem jlCondition_congr (mode : JlMode) {f g : Byte} (heq : equality f = equality g)
    (hmaj : majority f = majority g) : jlCondition mode f = jlCondition mode g := by
  cases mode <;> simp only [jlCondition, heq, hmaj]

/-! The instructions. -/

/-- Only the compares write the flags. -/
theorem exec_flags_of_not_isCompare {i : Instr} {s t : State} (h : exec i s = .next t) (hc : ¬ IsCompare i) :
    t.flags = s.flags := by
  cases exec_effect i s t h with
  | flags rd b hi => exact absurd hi hc
  | _ => rfl

/-- An instruction that is neither a compare nor a conditional jump does not read the flags. -/
theorem exec_withFlags {i : Instr} {s t : State} (h : exec i s = .next t) (hc : ¬ IsCompare i)
    (hj : ¬ IsConditionalJump i) (f : Byte) : exec i (s.withFlags f) = .next (t.withFlags f) := by
  cases i <;> cases h
  case cmp | cmpi => exact absurd trivial hc
  case jne | jeq | jle | jl | jge | jg => exact absurd trivial hj
  case syscall => exact congrArg _ (s.syscall_withFlags f _ _)
  case shl | shli | shr | shri => exact congrArg _ (s.shift_withFlags f _ _ _ _)
  case div | divi => exact congrArg _ (s.divide_withFlags f _ _)
  case addd | subd | muld | divd => exact congrArg _ (s.fpBinary_withFlags f _ _ _)
  case dtoi => exact congrArg _ (s.doubleToInt_withFlags f _ _)
  case mul | muli => exact congrArg _ (s.multiply_withFlags f _ _)
  case itod => exact congrArg _ (s.intToDouble_withFlags f _ _)
  case load2 | loadr2 => exact congrArg _ (s.loadPair_withFlags f _ _)
  case store2 | storer2 => exact congrArg _ (s.storePair_withFlags f _ _)
  all_goals rfl

/-- A compare reads the registers alone: from other flags it writes the same two bits, and all else is the same. -/
theorem exec_withFlags_of_isCompare {i : Instr} {s t : State} (h : exec i s = .next t) (hc : IsCompare i) (f : Byte) :
    ∃ g, exec i (s.withFlags f) = .next (t.withFlags g) ∧ equality g = equality t.flags ∧
      majority g = majority t.flags := by
  cases i
  case cmp rd rs =>
    cases h
    exact ⟨compareFlags f (s.reg rd) (s.reg rs), rfl, compareFlags_bits_congr _ _ _ _⟩
  case cmpi rd imm20 =>
    cases h
    exact ⟨compareFlags f (s.reg rd) imm20, rfl, compareFlags_bits_congr _ _ _ _⟩
  all_goals exact False.elim hc

/-- A conditional jump reads bits 0 and 1 of the flags alone. -/
theorem exec_withFlags_of_isConditionalJump {i : Instr} {s t : State} (h : exec i s = .next t)
    (hj : IsConditionalJump i) {f : Byte} (heq : equality f = equality s.flags)
    (hmaj : majority f = majority s.flags) : exec i (s.withFlags f) = .next (t.withFlags f) := by
  have hjump : ∀ {c c' : Bool} (addr20 : Word), c' = c →
      (.next ((s.withFlags f).jumpIf c' addr20) : Result) = .next ((s.jumpIf c addr20).withFlags f) :=
    fun addr20 hc => congrArg _ (s.jumpIf_withFlags f hc addr20)
  cases i
  case jne addr20 => cases h; exact hjump addr20 (congrArg _ heq)
  case jeq addr20 => cases h; exact hjump addr20 heq
  case jle addr20 => cases h; exact hjump addr20 (congrArg₂ _ hmaj heq)
  case jl addr20 => cases h; exact hjump addr20 (jlCondition_congr s.cfg.jlMode heq hmaj)
  case jge addr20 => cases h; exact hjump addr20 (congrArg₂ _ (congrArg _ hmaj) heq)
  case jg addr20 => cases h; exact hjump addr20 (congrArg₂ _ (congrArg _ hmaj) (congrArg _ heq))
  all_goals exact False.elim hj

/-- Settles O14: the writers by the effects of an instruction; the readers because setting the flags commutes with every
operation but the compare and the conditions of the jumps, which read the two named bits. -/
theorem comparesWriteAndJumpsReadTheFlags : Obligations.ComparesWriteAndJumpsReadTheFlags :=
  ⟨fun _ _ _ h hc => exec_flags_of_not_isCompare h hc,
    fun _ _ _ f h hc hj => exec_withFlags h hc hj f,
    fun _ _ _ f h hc => exec_withFlags_of_isCompare h hc f,
    fun _ _ _ _ h hj heq hmaj => exec_withFlags_of_isConditionalJump h hj heq hmaj⟩

/-! The constructed state. -/

theorem equality_zero : equality 0 = false := by decide

theorem majority_zero : majority 0 = false := by decide

/-- A memory that lists no byte holds 0 in every word. -/
theorem Memory.readWord_nil (i : Nat) : Memory.readWord [] i = 0 := by
  have hbytes : wordOfBytes 0 0 0 0 = 0 := by decide
  exact hbytes

@[simp] theorem State.construct_memRead (cfg : Params) (a : Word) : (State.construct cfg).memRead a = 0 := by
  rw [State.memRead_eq, State.construct_mem, Memory.readWord_nil]

/-- Settles O9: what the zero-filled core reads as, register by register and word by word. -/
theorem constructedStateIsZero : Obligations.ConstructedStateIsZero :=
  ⟨State.reset_eq, fun cfg => ⟨State.construct_reg cfg, State.construct_reg cfg 14, State.construct_reg cfg 15,
    State.construct_flags cfg, equality_zero, majority_zero, State.construct_memRead cfg⟩⟩

end Sys2Proof.Machine

/-! # Memory (20_memory.md R63, R65, R67)

Replacing memory commutes with every operation that does not read or write it, but for taking an exception, whose record
holds the word that was fetched: so the operations that may raise agree unless they end in an engine fault. -/

namespace Sys2Proof.Machine

/-- The same machine with the memory `m`. -/
def State.withMem (st : State) (m : Memory) : State := { st with mem := m }

/-- Unless `t` ended in an engine fault, `u` is `t` with the memory `m`. -/
def AgreesUnlessFault (m : Memory) (t u : State) : Prop := ¬ IsEngineFault t.result → u = t.withMem m

theorem agreesUnlessFault_raise (st u : State) (m : Memory) (e : OpException) :
    AgreesUnlessFault m (st.raise e) u :=
  fun hf => absurd (isEngineFault_engineFault e _) hf

theorem agreesUnlessFault_withPair (st : State) (m : Memory) (r : Reg) {k k' : Reg → State}
    (hk : ∀ hi, AgreesUnlessFault m (k hi) (k' hi)) :
    AgreesUnlessFault m (st.withPair r k) ((st.withMem m).withPair r k') := by
  unfold State.withPair
  cases pairHigh r with
  | none => exact agreesUnlessFault_raise _ _ _ _
  | some hi => exact hk hi

/-! The operations that branch; the others commute by computation. -/

theorem agreesUnlessFault_multiply (st : State) (m : Memory) (rd : Reg) (b : Word) :
    AgreesUnlessFault m (st.multiply rd b) ((st.withMem m).multiply rd b) :=
  agreesUnlessFault_withPair st m rd fun _ _ => rfl

theorem agreesUnlessFault_intToDouble (st : State) (m : Memory) (rd rs : Reg) :
    AgreesUnlessFault m (st.intToDouble rd rs) ((st.withMem m).intToDouble rd rs) :=
  agreesUnlessFault_withPair st m rd fun _ _ => rfl

theorem agreesUnlessFault_divLaw (st : State) (m : Memory) (rd hi : Reg) (v : Word) :
    AgreesUnlessFault m (st.divLaw rd hi v) ((st.withMem m).divLaw rd hi v) := by
  have hregs : ∀ q, (st.withMem m).reg q = st.reg q := fun _ => rfl
  have hcfg : (st.withMem m).cfg = st.cfg := rfl
  simp only [State.divLaw, hregs, hcfg]
  split
  · exact agreesUnlessFault_raise _ _ _ _
  · split
    · exact fun _ => rfl
    · exact agreesUnlessFault_raise _ _ _ _

theorem agreesUnlessFault_divide (st : State) (m : Memory) (rd : Reg) (v : Word) :
    AgreesUnlessFault m (st.divide rd v) ((st.withMem m).divide rd v) :=
  agreesUnlessFault_withPair st m rd fun hi => agreesUnlessFault_divLaw st m rd hi v

theorem agreesUnlessFault_fpBinary (st : State) (m : Memory) (op : FpOp) (rd rs : Reg) :
    AgreesUnlessFault m (st.fpBinary op rd rs) ((st.withMem m).fpBinary op rd rs) := by
  refine agreesUnlessFault_withPair st m rd fun dhi => agreesUnlessFault_withPair st m rs fun shi => ?_
  have hpair : ∀ lo hi, (st.withMem m).pair lo hi = st.pair lo hi := fun _ _ => rfl
  simp only [hpair]
  cases Fp.eval op (st.pair rd dhi) (st.pair rs shi) with
  | none => exact fun _ => rfl
  | some r => exact fun _ => rfl

theorem agreesUnlessFault_doubleToInt (st : State) (m : Memory) (rd rs : Reg) :
    AgreesUnlessFault m (st.doubleToInt rd rs) ((st.withMem m).doubleToInt rd rs) := by
  refine agreesUnlessFault_withPair st m rs fun hi => ?_
  have hpair : (st.withMem m).pair rs hi = st.pair rs hi := rfl
  simp only [hpair]
  cases Fp.toInt32 (st.pair rs hi) with
  | nan => exact fun _ => rfl
  | overflow => exact agreesUnlessFault_raise _ _ _ _
  | value v => exact fun _ => rfl

theorem agreesUnlessFault_syscall (st : State) (m : Memory) (code : SyscallCode) (rd : Reg) :
    AgreesUnlessFault m (st.syscall code rd) ((st.withMem m).syscall code rd) := by
  have hints : (st.withMem m).inInts = st.inInts := rfl
  have hdoubles : (st.withMem m).inDoubles = st.inDoubles := rfl
  have hchars : (st.withMem m).inChars = st.inChars := rfl
  cases code with
  | exit | printInt | putChar | unknown => exact fun _ => rfl
  | readInt =>
    simp only [State.syscall, State.readInt, hints]
    split <;> exact fun _ => rfl
  | getChar =>
    simp only [State.syscall, State.getChar, hchars]
    split <;> exact fun _ => rfl
  | printDouble => exact agreesUnlessFault_withPair st m rd fun _ _ => rfl
  | readDouble =>
    refine agreesUnlessFault_withPair st m rd fun hi => ?_
    simp only [State.readDouble, hdoubles]
    split <;> exact fun _ => rfl

theorem State.shift_withMem (st : State) (m : Memory) (op : ShiftOp) (rd : Reg) (g : Word → Word → Word) (c : Word) :
    (st.withMem m).shift op rd g c = (st.shift op rd g c).withMem m := by
  unfold State.shift
  split <;> rfl

theorem State.jumpIf_withMem (st : State) (m : Memory) (c : Bool) (addr20 : Word) :
    (st.withMem m).jumpIf c addr20 = (st.jumpIf c addr20).withMem m := by
  cases c <;> rfl

/-! The instructions. -/

/-- Only the listed instructions write memory. -/
theorem exec_mem_of_not_writesMemory {i : Instr} {s t : State} (h : exec i s = .next t) (hw : ¬ WritesMemory i) :
    t.mem = s.mem := by
  cases exec_effect i s t h with
  | store f a v hi => exact absurd hi hw
  | store2 a v b w hi => exact absurd hi hw
  | _ => rfl

/-- An instruction that neither writes nor reads memory does the same whatever memory holds, unless it ends in an engine
fault. -/
theorem exec_withMem {i : Instr} {s t : State} (h : exec i s = .next t) (hw : ¬ WritesMemory i) (hr : ¬ ReadsMemory i)
    (hf : ¬ IsEngineFault t.result) (m : Memory) : exec i (s.withMem m) = .next (t.withMem m) := by
  cases i <;> cases h
  case store | store2 | storer | storer2 | push | call | calli => exact absurd trivial hw
  case load | load2 | loadr | loadr2 | pop | ret => exact absurd trivial hr
  case syscall => exact congrArg _ (agreesUnlessFault_syscall s m _ _ hf)
  case mul | muli => exact congrArg _ (agreesUnlessFault_multiply s m _ _ hf)
  case div | divi => exact congrArg _ (agreesUnlessFault_divide s m _ _ hf)
  case addd | subd | muld | divd => exact congrArg _ (agreesUnlessFault_fpBinary s m _ _ _ hf)
  case itod => exact congrArg _ (agreesUnlessFault_intToDouble s m _ _ hf)
  case dtoi => exact congrArg _ (agreesUnlessFault_doubleToInt s m _ _ hf)
  case shl | shli | shr | shri => exact congrArg _ (s.shift_withMem m _ _ _ _)
  case jne | jeq | jle | jl | jge | jg => exact congrArg _ (s.jumpIf_withMem m _ _)
  all_goals rfl

/-- Settles O15: the writers by the effects of an instruction; the readers because replacing memory commutes with every
operation of the other instructions that takes no exception. -/
theorem onlyListedInstructionsReachMemory : Obligations.OnlyListedInstructionsReachMemory :=
  ⟨fun _ _ _ h hw a => congrArg (Memory.readByte · a) (exec_mem_of_not_writesMemory h hw),
    fun _ _ _ m h hw hr hf => exec_withMem h hw hr hf m⟩

/-! Words and bytes. -/

/-- Two addresses select the same word exactly where their low 20 bits agree (R62). -/
theorem wordIndex_inj {a b : Word} : wordIndex a = wordIndex b ↔ a.extractLsb' 0 20 = b.extractLsb' 0 20 :=
  BitVec.toNat_inj

/-- Settles O19: a read after a write is decided by the word the two addresses select. -/
theorem wordReadsBackAtItsLowTwentyBits : Obligations.WordReadsBackAtItsLowTwentyBits := by
  intro s a b v
  rw [State.memRead_memWrite]
  simp only [wordIndex_inj]

theorem Memory.readByte_writeWord_of_lt (m : Memory) (i : Nat) (v : Word) (k : Nat) (hk : k < 4) :
    Memory.readByte (Memory.writeWord m i v) (4 * i + k) = byteOfWord v k := by
  rw [Memory.readByte_writeWord, if_pos (by omega), Nat.add_sub_cancel_left]

theorem Memory.readByte_writeWord_of_outside (m : Memory) {i a : Nat} (v : Word) (h : a < 4 * i ∨ 4 * i + 4 ≤ a) :
    Memory.readByte (Memory.writeWord m i v) a = Memory.readByte m a := by
  rw [Memory.readByte_writeWord, if_neg (by omega)]

/-- Settles O21: the byte order of a read is the definition's; a store writes byte `k` of the word at `4i + k`. -/
theorem wordsAreBigEndianInMemory : Obligations.WordsAreBigEndianInMemory := by
  intro m i v
  have hbyte := Memory.readByte_writeWord_of_lt m i v
  exact ⟨rfl, hbyte 0 (by decide), hbyte 1 (by decide), hbyte 2 (by decide), hbyte 3 (by decide),
    fun _ h => Memory.readByte_writeWord_of_outside m v h⟩

end Sys2Proof.Machine

/-!
# The system instructions

What SYSCALL does is its dispatch (40_system.md R131) on the sign-extended code; each code's statement names its branch of
`State.syscall` and cites the law of the operation there.
-/

namespace Sys2Proof.Machine

/-- SYSCALL in terms of its dispatch (R131). -/
theorem exec_syscall (rd : Reg) (code : Word) (s : State) :
    exec (.syscall rd code) s = .next (s.syscall (syscallCode code.toInt) rd) := rfl

theorem State.syscall_exit (s : State) (rd : Reg) : s.syscall .exit rd = s.stop .terminate := rfl

theorem syscallCode_zero : syscallCode (0 : Word).toInt = .exit := rfl

/-- Settles O53: code 0 dispatches to the exit, which sets the outcome and keeps the rest of the state. -/
theorem syscallZeroTerminates : Obligations.SyscallZeroTerminates := by
  intro s rd
  refine ⟨s.stop .terminate, ?_, onlyResult_stop s .terminate⟩
  rw [exec_syscall, syscallCode_zero, State.syscall_exit]

end Sys2Proof.Machine

/-!
# Integer arithmetic: sums, differences and products

ADD, ADDI, SUB and SUBI are one shared operation, `State.update`, and MUL and MULI another, `State.multiply`. What each
operation does is said once, for any right-hand operand; an instruction's equation names its operand.
-/

namespace Sys2Proof.Machine

theorem exec_add (rd rs : Reg) (imm : Word) (s : State) :
    exec (.add rd rs imm) s = .next (s.update rd (· + ·) (s.reg rs + imm)) := rfl

theorem exec_addi (rd : Reg) (imm : Word) (s : State) : exec (.addi rd imm) s = .next (s.update rd (· + ·) imm) := rfl

theorem exec_sub (rd rs : Reg) (imm : Word) (s : State) :
    exec (.sub rd rs imm) s = .next (s.update rd (· - ·) (s.reg rs + imm)) := rfl

theorem exec_subi (rd : Reg) (imm : Word) (s : State) : exec (.subi rd imm) s = .next (s.update rd (· - ·) imm) := rfl

theorem exec_mul (rd rs : Reg) (imm : Word) (s : State) :
    exec (.mul rd rs imm) s = .next (s.multiply rd (s.reg rs + imm)) := rfl

theorem exec_muli (rd : Reg) (imm : Word) (s : State) : exec (.muli rd imm) s = .next (s.multiply rd imm) := rfl

/-- The two-operand shape writes `f` of the old destination and the operand to the destination, and nothing else. -/
theorem regWritten_update (s : State) (rd : Reg) (f : Word → Word → Word) (b : Word) :
    RegWritten s (s.update rd f b) rd (f (s.reg rd) b) :=
  regWritten_setReg s rd _

theorem State.multiply_valid (s : State) {rd hi : Reg} (h : hi.val = rd.val + 1) (b : Word) :
    s.multiply rd b = s.setPair rd hi (product (s.reg rd) b) :=
  s.withPair_valid h _

theorem State.multiply_last (s : State) (b : Word) : s.multiply 15 b = s.raise .invalidReg :=
  s.withPair_last _

/-- On a valid pair the multiplication writes the two halves of the exact signed product (R154), and nothing else. -/
theorem multiply_writes_signed_product (s : State) {rd hi : Reg} (h : hi.val = rd.val + 1) (b : Word) :
    ∃ p : DWord, p.toInt = (s.reg rd).toInt * b.toInt ∧
      PairWritten s (s.multiply rd b) rd hi (p.extractLsb' 0 32) (p.extractLsb' 32 32) := by
  refine ⟨product (s.reg rd) b, product_toInt _ _, ?_⟩
  rw [State.multiply_valid s h]
  exact pairWritten_setPair s h _

/-- The pair check comes first: at register 15 the multiplication raises InvalidReg, whatever the operand. -/
theorem exceptionTaken_multiply_last (s : State) (b : Word) : ExceptionTaken s (s.multiply 15 b) .invalidReg := by
  rw [State.multiply_last]
  exact exceptionTaken_raise s _

/-- Settles O23: both instructions are `State.multiply`, by `x[s] + imm16` and by `imm20`. -/
theorem multiplyWritesTheSignedProduct : Obligations.MultiplyWritesTheSignedProduct :=
  ⟨fun s rd _ rs imm h =>
      ⟨⟨_, exec_mul rd rs imm s, multiply_writes_signed_product s h _⟩,
        ⟨_, exec_muli rd imm s, multiply_writes_signed_product s h _⟩⟩,
    fun s rs imm =>
      ⟨⟨_, exec_mul 15 rs imm s, exceptionTaken_multiply_last s _⟩,
        ⟨_, exec_muli 15 imm s, exceptionTaken_multiply_last s _⟩⟩⟩

/-- Settles O22: the four instructions are `State.update` with the sum or the difference and their operand. -/
theorem addAndSubtractWriteOneRegister : Obligations.AddAndSubtractWriteOneRegister :=
  fun s rd rs imm =>
    ⟨⟨_, exec_add rd rs imm s, regWritten_update s rd _ _⟩,
      ⟨_, exec_addi rd imm s, regWritten_update s rd _ _⟩,
      ⟨_, exec_sub rd rs imm s, regWritten_update s rd _ _⟩,
      ⟨_, exec_subi rd imm s, regWritten_update s rd _ _⟩⟩

end Sys2Proof.Machine

/-!
# Register load

LC and MOV are one register write, so their frame is the frame of `State.setReg`; an instruction's equation names the word
it writes.
-/

namespace Sys2Proof.Machine

theorem exec_lc (rd : Reg) (imm : Word) (s : State) : exec (.lc rd imm) s = .next (s.setReg rd imm) := rfl

theorem exec_mov (rd rs : Reg) (imm : Word) (s : State) :
    exec (.mov rd rs imm) s = .next (s.setReg rd (s.reg rs + imm)) := rfl

/-- Settles O26: both instructions are a single register write, of `imm20` and of `x[s] + imm16`. -/
theorem loadConstantAndMoveWriteOneRegister : Obligations.LoadConstantAndMoveWriteOneRegister :=
  fun s rd rs imm =>
    ⟨⟨_, exec_lc rd imm s, regWritten_setReg s rd _⟩,
      ⟨_, exec_mov rd rs imm s, regWritten_setReg s rd _⟩⟩

end Sys2Proof.Machine

/-!
# Logic

AND, OR, XOR and their immediate forms are one shared operation, `State.update`; its bits are said once, for any word
operation that works bit by bit. An instruction's equation names its word operation and its operand.
-/

namespace Sys2Proof.Machine

theorem exec_and (rd rs : Reg) (imm : Word) (s : State) :
    exec (.and rd rs imm) s = .next (s.update rd (· &&& ·) (s.reg rs + imm)) := rfl

theorem exec_andi (rd : Reg) (imm : Word) (s : State) : exec (.andi rd imm) s = .next (s.update rd (· &&& ·) imm) := rfl

theorem exec_or (rd rs : Reg) (imm : Word) (s : State) :
    exec (.or rd rs imm) s = .next (s.update rd (· ||| ·) (s.reg rs + imm)) := rfl

theorem exec_ori (rd : Reg) (imm : Word) (s : State) : exec (.ori rd imm) s = .next (s.update rd (· ||| ·) imm) := rfl

theorem exec_xor (rd rs : Reg) (imm : Word) (s : State) :
    exec (.xor rd rs imm) s = .next (s.update rd (· ^^^ ·) (s.reg rs + imm)) := rfl

theorem exec_xori (rd : Reg) (imm : Word) (s : State) : exec (.xori rd imm) s = .next (s.update rd (· ^^^ ·) imm) := rfl

/-- Where the word operation `g` is `f` on every bit, the two-operand shape writes `f` bit by bit, and nothing else. -/
theorem bitwiseWritten_update {g : Word → Word → Word} {f : Bool → Bool → Bool}
    (hbit : ∀ (x y : Word) (k : Nat), (g x y).getLsbD k = f (x.getLsbD k) (y.getLsbD k)) (s : State) (rd : Reg) (b : Word) :
    BitwiseWritten s (s.update rd g b) rd b f :=
  ⟨g (s.reg rd) b, regWritten_update s rd g b, fun k _ => hbit _ _ k⟩

theorem bitwiseWritten_and (s : State) (rd : Reg) (b : Word) :
    BitwiseWritten s (s.update rd (· &&& ·) b) rd b (fun x y => x && y) :=
  bitwiseWritten_update (fun _ _ _ => BitVec.getLsbD_and) s rd b

theorem bitwiseWritten_or (s : State) (rd : Reg) (b : Word) :
    BitwiseWritten s (s.update rd (· ||| ·) b) rd b (fun x y => x || y) :=
  bitwiseWritten_update (fun _ _ _ => BitVec.getLsbD_or) s rd b

theorem bitwiseWritten_xor (s : State) (rd : Reg) (b : Word) :
    BitwiseWritten s (s.update rd (· ^^^ ·) b) rd b (fun x y => x != y) :=
  bitwiseWritten_update (fun _ _ _ => BitVec.getLsbD_xor) s rd b

/-- Settles O29: each pair of instructions is `State.update` with one bitwise operation, by `x[s] + imm16` and by
`imm20`. -/
theorem logicIsBitwiseOnOneRegister : Obligations.LogicIsBitwiseOnOneRegister :=
  fun s rd rs imm =>
    ⟨⟨_, exec_and rd rs imm s, bitwiseWritten_and s rd _⟩,
      ⟨_, exec_andi rd imm s, bitwiseWritten_and s rd _⟩,
      ⟨_, exec_or rd rs imm s, bitwiseWritten_or s rd _⟩,
      ⟨_, exec_ori rd imm s, bitwiseWritten_or s rd _⟩,
      ⟨_, exec_xor rd rs imm s, bitwiseWritten_xor s rd _⟩,
      ⟨_, exec_xori rd imm s, bitwiseWritten_xor s rd _⟩⟩

end Sys2Proof.Machine

/-!
# Floating point: the pair checks

ADDD, SUBD, MULD and DIVD are one shared operation, `State.fpBinary`; ITOD is `State.intToDouble` and DTOI is
`State.doubleToInt`. What the pair check of each does at register 15 is said once per operation.
-/

namespace Sys2Proof.Machine

theorem exec_addd (rd rs : Reg) (s : State) : exec (.addd rd rs) s = .next (s.fpBinary .addd rd rs) := rfl

theorem exec_subd (rd rs : Reg) (s : State) : exec (.subd rd rs) s = .next (s.fpBinary .subd rd rs) := rfl

theorem exec_muld (rd rs : Reg) (s : State) : exec (.muld rd rs) s = .next (s.fpBinary .muld rd rs) := rfl

theorem exec_divd (rd rs : Reg) (s : State) : exec (.divd rd rs) s = .next (s.fpBinary .divd rd rs) := rfl

theorem exec_itod (rd rs : Reg) (s : State) : exec (.itod rd rs) s = .next (s.intToDouble rd rs) := rfl

theorem exec_dtoi (rd rs : Reg) (s : State) : exec (.dtoi rd rs) s = .next (s.doubleToInt rd rs) := rfl

/-- Either check of the two-operand operation raises InvalidReg: the left one at once, the right one after the left
passed (R221). -/
theorem State.fpBinary_last (s : State) (op : FpOp) {rd rs : Reg} (h : rd = 15 ∨ rs = 15) :
    s.fpBinary op rd rs = s.raise .invalidReg := by
  obtain rfl | rfl := h
  · exact s.withPair_last _
  · obtain ⟨-, hraise⟩ | ⟨_, -, hnext⟩ := s.withPair_cases rd _
    · exact hraise
    · exact hnext.trans (s.withPair_last _)

theorem State.intToDouble_last (s : State) (rs : Reg) : s.intToDouble 15 rs = s.raise .invalidReg :=
  s.withPair_last _

theorem State.doubleToInt_last (s : State) (rd : Reg) : s.doubleToInt rd 15 = s.raise .invalidReg :=
  s.withPair_last _

theorem exceptionTaken_fpBinary_last (s : State) (op : FpOp) {rd rs : Reg} (h : rd = 15 ∨ rs = 15) :
    ExceptionTaken s (s.fpBinary op rd rs) .invalidReg := by
  rw [State.fpBinary_last s op h]
  exact exceptionTaken_raise s _

theorem exceptionTaken_intToDouble_last (s : State) (rs : Reg) :
    ExceptionTaken s (s.intToDouble 15 rs) .invalidReg := by
  rw [State.intToDouble_last]
  exact exceptionTaken_raise s _

theorem exceptionTaken_doubleToInt_last (s : State) (rd : Reg) :
    ExceptionTaken s (s.doubleToInt rd 15) .invalidReg := by
  rw [State.doubleToInt_last]
  exact exceptionTaken_raise s _

/-- Settles O32: the four operations are `State.fpBinary`, which checks both pairs; ITOD checks its destination and DTOI
its source. -/
theorem floatPairsAreChecked : Obligations.FloatPairsAreChecked :=
  fun s rd rs =>
    ⟨fun h =>
      ⟨⟨_, exec_addd rd rs s, exceptionTaken_fpBinary_last s _ h⟩,
        ⟨_, exec_subd rd rs s, exceptionTaken_fpBinary_last s _ h⟩,
        ⟨_, exec_muld rd rs s, exceptionTaken_fpBinary_last s _ h⟩,
        ⟨_, exec_divd rd rs s, exceptionTaken_fpBinary_last s _ h⟩⟩,
      ⟨_, exec_itod 15 rs s, exceptionTaken_intToDouble_last s rs⟩,
      ⟨_, exec_dtoi rd 15 s, exceptionTaken_doubleToInt_last s rd⟩⟩

end Sys2Proof.Machine

/-!
# The return

RET pops into IP and moves SP twice (47_calls.md R273); in closed form that is one write of each register, both words
taken from the old state.
-/

namespace Sys2Proof.Machine

@[simp] theorem State.setReg_setReg_self (st : State) (r : Reg) (v w : Word) :
    (st.setReg r v).setReg r w = st.setReg r w := by
  simp [State.setReg]

@[simp] theorem State.setSp_setSp (st : State) (v w : Word) : (st.setSp v).setSp w = st.setSp w :=
  st.setReg_setReg_self 14 v w

@[simp] theorem State.sp_setSp (st : State) (v : Word) : (st.setSp v).sp = v := st.reg_setReg_self 14 v

@[simp] theorem State.ip_setIp (st : State) (v : Word) : (st.setIp v).ip = v := st.reg_setReg_self 15 v

@[simp] theorem State.sp_setIp (st : State) (v : Word) : (st.setIp v).sp = st.sp := st.reg_setReg_ne (by decide) v

@[simp] theorem State.ip_setSp (st : State) (v : Word) : (st.setSp v).ip = st.ip := st.reg_setReg_ne (by decide) v

/-- Writes of IP and SP leave every other register as before. -/
theorem sameRegsBut_setSp_setIp (s : State) (a p : Word) : SameRegsBut s ((s.setIp a).setSp p) [14, 15] := by
  intro r hr
  have hsp : 14 ≠ r := fun e => hr (by simp [← e])
  have hip : 15 ≠ r := fun e => hr (by simp [← e])
  rw [State.setSp_eq, State.setIp_eq, State.reg_setReg_ne _ hsp, State.reg_setReg_ne _ hip]

theorem sameBesideRegs_setSp_setIp (s : State) (a p : Word) : SameBesideRegs s ((s.setIp a).setSp p) :=
  ⟨rfl, sameMem_refl s, rfl, sameHost_refl s, rfl, rfl⟩

/-- The two moves of SP in RET are one, by one word and `addr20` more. -/
theorem exec_ret (addr : Word) (s : State) :
    exec (.ret addr) s = .next ((s.setIp (s.memRead s.sp - 1)).setSp (s.sp + 1 + addr)) := by
  simp [exec, execRet]

/-- Settles O46: RET in closed form writes IP and SP alone. -/
theorem returnPopsTheAddressAndDropsArguments : Obligations.ReturnPopsTheAddressAndDropsArguments := by
  intro s addr
  refine ⟨_, exec_ret addr s, ?_, State.sp_setSp _ _, sameRegsBut_setSp_setIp s _ _, sameBesideRegs_setSp_setIp s _ _⟩
  rw [State.ip_setSp, State.ip_setIp]

end Sys2Proof.Machine

/-!
# The jumps

Every jump is `State.jumpIf` at a Boolean condition on the flags, so one lemma gives the jump law of 48_jumps.md R280
for all of them; what is left of each is what its condition says of bits 0 and 1.
-/

namespace Sys2Proof.Machine

theorem exec_jmp (addr : Word) (s : State) : exec (.jmp addr) s = .next (s.jumpIf true addr) := rfl

theorem exec_jne (addr : Word) (s : State) : exec (.jne addr) s = .next (s.jumpIf (!equality s.flags) addr) := rfl

theorem exec_jeq (addr : Word) (s : State) : exec (.jeq addr) s = .next (s.jumpIf (equality s.flags) addr) := rfl

theorem exec_jle (addr : Word) (s : State) :
    exec (.jle addr) s = .next (s.jumpIf (majority s.flags || equality s.flags) addr) := rfl

theorem exec_jge (addr : Word) (s : State) :
    exec (.jge addr) s = .next (s.jumpIf (!majority s.flags || equality s.flags) addr) := rfl

theorem exec_jg (addr : Word) (s : State) :
    exec (.jg addr) s = .next (s.jumpIf (!majority s.flags && !equality s.flags) addr) := rfl

theorem State.jumpIf_true (st : State) (addr : Word) : st.jumpIf true addr = st.setReg 15 (addr - 1) := rfl

theorem State.jumpIf_false (st : State) (addr : Word) : st.jumpIf false addr = st := rfl

/-- A jump whose Boolean condition `c` decides `taken` obeys the jump law for `taken`. -/
theorem jumpLaw_jumpIf (s : State) (addr : Word) {c : Bool} {taken : Prop} (h : c = true ↔ taken) :
    JumpLaw s (s.jumpIf c addr) taken addr := by
  constructor
  · intro ht
    rw [h.mpr ht, State.jumpIf_true]
    exact regWritten_setReg s 15 _
  · intro hn
    rw [Bool.eq_false_iff.mpr (mt h.mp hn), State.jumpIf_false]

/-! What the conditions say of the flags: EQUALITY is bit 0 and MAJORITY is bit 1 (00_scope.md R13). -/

theorem equality_iff (f : Byte) : equality f = true ↔ f.getLsbD 0 = true := Iff.rfl

theorem majority_iff (f : Byte) : majority f = true ↔ f.getLsbD 1 = true := Iff.rfl

theorem not_equality_iff (f : Byte) : (!equality f) = true ↔ f.getLsbD 0 = false := .of_eq (Bool.not_eq_true' _)

theorem not_majority_iff (f : Byte) : (!majority f) = true ↔ f.getLsbD 1 = false := .of_eq (Bool.not_eq_true' _)

theorem jleCondition_iff (f : Byte) :
    (majority f || equality f) = true ↔ f.getLsbD 1 = true ∨ f.getLsbD 0 = true := by
  rw [Bool.or_eq_true, majority_iff, equality_iff]

theorem jgeCondition_iff (f : Byte) :
    (!majority f || equality f) = true ↔ f.getLsbD 1 = false ∨ f.getLsbD 0 = true := by
  rw [Bool.or_eq_true, not_majority_iff, equality_iff]

theorem jgCondition_iff (f : Byte) :
    (!majority f && !equality f) = true ↔ f.getLsbD 1 = false ∧ f.getLsbD 0 = false := by
  rw [Bool.and_eq_true, not_majority_iff, not_equality_iff]

/-- Settles O39: each jump is `State.jumpIf` at its condition, which says of bits 0 and 1 what the rule names. -/
theorem jumpsFollowTheirConditions : Obligations.JumpsFollowTheirConditions :=
  fun s addr =>
    ⟨⟨_, exec_jmp addr s, jumpLaw_jumpIf s addr (iff_of_true rfl trivial)⟩,
      ⟨_, exec_jne addr s, jumpLaw_jumpIf s addr (not_equality_iff s.flags)⟩,
      ⟨_, exec_jeq addr s, jumpLaw_jumpIf s addr (equality_iff s.flags)⟩,
      ⟨_, exec_jle addr s, jumpLaw_jumpIf s addr (jleCondition_iff s.flags)⟩,
      ⟨_, exec_jge addr s, jumpLaw_jumpIf s addr (jgeCondition_iff s.flags)⟩,
      ⟨_, exec_jg addr s, jumpLaw_jumpIf s addr (jgCondition_iff s.flags)⟩⟩

end Sys2Proof.Machine

/-!
# Loads and stores (49_memory_ops.md)

A single load is one register write and a single store one word write; the pair forms are `State.loadPair` and
`State.storePair`, whose two outcomes are said once for any base address. An instruction's equation names its address,
`addr20` or `x[s] + imm16`, taken from the state before it.
-/

namespace Sys2Proof.Machine

theorem exec_load (rd : Reg) (addr : Word) (s : State) :
    exec (.load rd addr) s = .next (s.setReg rd (s.memRead addr)) := rfl

theorem exec_loadr (rd rs : Reg) (imm : Word) (s : State) :
    exec (.loadr rd rs imm) s = .next (s.setReg rd (s.memRead (s.reg rs + imm))) := rfl

theorem exec_load2 (rd : Reg) (addr : Word) (s : State) : exec (.load2 rd addr) s = .next (s.loadPair rd addr) := rfl

theorem exec_loadr2 (rd rs : Reg) (imm : Word) (s : State) :
    exec (.loadr2 rd rs imm) s = .next (s.loadPair rd (s.reg rs + imm)) := rfl

theorem exec_store (rd : Reg) (addr : Word) (s : State) :
    exec (.store rd addr) s = .next (s.memWrite addr (s.reg rd)) := rfl

theorem exec_storer (rd rs : Reg) (imm : Word) (s : State) :
    exec (.storer rd rs imm) s = .next (s.memWrite (s.reg rs + imm) (s.reg rd)) := rfl

theorem exec_store2 (rd : Reg) (addr : Word) (s : State) : exec (.store2 rd addr) s = .next (s.storePair rd addr) := rfl

theorem exec_storer2 (rd rs : Reg) (imm : Word) (s : State) :
    exec (.storer2 rd rs imm) s = .next (s.storePair rd (s.reg rs + imm)) := rfl

theorem State.loadPair_valid (s : State) {rd hi : Reg} (h : hi.val = rd.val + 1) (a : Word) :
    s.loadPair rd a = (s.setReg rd (s.memRead a)).setReg hi (s.memRead (a + 1)) :=
  s.withPair_valid h _

theorem State.loadPair_last (s : State) (a : Word) : s.loadPair 15 a = s.raise .invalidReg :=
  s.withPair_last _

theorem State.storePair_valid (s : State) {rd hi : Reg} (h : hi.val = rd.val + 1) (a : Word) :
    s.storePair rd a = (s.memWrite a (s.reg rd)).memWrite (a + 1) (s.reg hi) :=
  s.withPair_valid h _

theorem State.storePair_last (s : State) (a : Word) : s.storePair 15 a = s.raise .invalidReg :=
  s.withPair_last _

theorem pairWritten_loadPair (s : State) {rd hi : Reg} (h : hi.val = rd.val + 1) (a : Word) :
    PairWritten s (s.loadPair rd a) rd hi (s.memRead a) (s.memRead (a + 1)) := by
  rw [State.loadPair_valid s h]
  exact pairWritten_setReg s h _ _

theorem exceptionTaken_loadPair_last (s : State) (a : Word) : ExceptionTaken s (s.loadPair 15 a) .invalidReg := by
  rw [State.loadPair_last]
  exact exceptionTaken_raise s _

theorem sameRegsBut_memWrite (s : State) (a v : Word) : SameRegsBut s (s.memWrite a v) [] :=
  fun r _ => s.reg_memWrite a v r

/-- On a valid pair the store writes the two words (R303, R307), both taken from the old registers, which it keeps. -/
theorem pairStored_storePair (s : State) {rd hi : Reg} (h : hi.val = rd.val + 1) (a : Word) :
    PairStored s (s.storePair rd a) a (s.reg rd) (s.reg hi) ∧ SameRegsBut s (s.storePair rd a) [] := by
  rw [State.storePair_valid s h]
  refine ⟨pairStored_memWrite s a _ _, fun r _ => ?_⟩
  rw [State.reg_memWrite, State.reg_memWrite]

/-- The pair check comes before both stores, so at register 15 nothing is stored. -/
theorem exceptionTaken_storePair_last (s : State) (a : Word) : ExceptionTaken s (s.storePair 15 a) .invalidReg := by
  rw [State.storePair_last]
  exact exceptionTaken_raise s _

/-- Settles O51: both instructions are `State.storePair`, at `addr20` and at `x[s] + imm16`. -/
theorem pairStoresWriteTwoWords : Obligations.PairStoresWriteTwoWords :=
  ⟨fun s rd _ rs addr imm h =>
      ⟨⟨_, exec_store2 rd addr s, pairStored_storePair s h _⟩,
        ⟨_, exec_storer2 rd rs imm s, pairStored_storePair s h _⟩⟩,
    fun s rs addr imm =>
      ⟨⟨_, exec_store2 15 addr s, exceptionTaken_storePair_last s _⟩,
        ⟨_, exec_storer2 15 rs imm s, exceptionTaken_storePair_last s _⟩⟩⟩

/-- Settles O48: both instructions are a single register write of the addressed word. -/
theorem loadsWriteOneRegister : Obligations.LoadsWriteOneRegister :=
  fun s rd rs addr imm =>
    ⟨⟨_, exec_load rd addr s, regWritten_setReg s rd _⟩,
      ⟨_, exec_loadr rd rs imm s, regWritten_setReg s rd _⟩⟩

/-- Settles O49: both instructions are `State.loadPair`, whose two addresses are fixed before either register is
written. -/
theorem pairLoadsWriteTwoRegisters : Obligations.PairLoadsWriteTwoRegisters :=
  ⟨fun s rd _ rs addr imm h =>
      ⟨⟨_, exec_load2 rd addr s, pairWritten_loadPair s h _⟩,
        ⟨_, exec_loadr2 rd rs imm s, pairWritten_loadPair s h _⟩⟩,
    fun s rs addr imm =>
      ⟨⟨_, exec_load2 15 addr s, exceptionTaken_loadPair_last s _⟩,
        ⟨_, exec_loadr2 15 rs imm s, exceptionTaken_loadPair_last s _⟩⟩⟩

/-- Settles O50: both instructions are a single word write of `x[d]`, which keeps every register. -/
theorem storesWriteOneWord : Obligations.StoresWriteOneWord :=
  fun s rd rs addr imm =>
    ⟨⟨_, exec_store rd addr s, wordStored_memWrite s _ _, sameRegsBut_memWrite s _ _⟩,
      ⟨_, exec_storer rd rs imm s, wordStored_memWrite s _ _, sameRegsBut_memWrite s _ _⟩⟩

end Sys2Proof.Machine

/-!
# Encoding and decoding

The encoder's word of an instruction carries the operation's number and the operand fields of its format, so decoding is
`Op.instr` of fields that the laws of the packed formats give back; and the word a decoded instruction encodes to is the
decoded word with the fields its format lacks cleared.
-/

namespace Sys2Proof

/-! From instruction to word and back. -/

/-- The fields of a well-formed instruction's word make the instruction again, format by format. -/
theorem Instr.op_instr_fieldsOf_encodeWith (m : OpcodeMap) {i : Instr} (h : i.WellFormed) :
    i.op.instr (fieldsOf (encodeWith m i)) = i := by
  cases i
  case halt => rfl
  case not => simp only [encodeWith, Instr.op, Op.instr, fieldsOf_packRI_rd]
  case addd | subd | muld | divd | itod | dtoi | cmp =>
    simp only [encodeWith, Instr.op, Op.instr, fieldsOf_packRR_rd, fieldsOf_packRR_rs]
  case add | sub | mul | div | shl | shr | and | or | xor | mov | loadr | storer | loadr2 | storer2 =>
    simp only [encodeWith, Instr.op, Op.instr, fieldsOf_packRR_rd, fieldsOf_packRR_rs, fieldsOf_packRR_imm16,
      signExtend_extract16 (of_decide_eq_true h)]
  case syscall | addi | subi | muli | divi | lc | shli | shri | andi | ori | xori | push | pop | cmpi =>
    simp only [encodeWith, Instr.op, Op.instr, fieldsOf_packRI_rd, fieldsOf_packRI_imm20,
      signExtend_extract20 (of_decide_eq_true h)]
  case call | load | store | load2 | store2 =>
    simp only [encodeWith, Instr.op, Op.instr, fieldsOf_packRI_rd, fieldsOf_packRI_addr20,
      setWidth_extract20 (of_decide_eq_true h)]
  case calli | ret | jmp | jne | jeq | jle | jl | jge | jg =>
    simp only [encodeWith, Instr.op, Op.instr, fieldsOf_packMe_addr20, setWidth_extract20 (of_decide_eq_true h)]

theorem decodeWith_encodeWith {m : OpcodeMap} (hm : m.wf) {i : Instr} (h : i.WellFormed) :
    decodeWith m (encodeWith m i) = .ok i := by
  have hop : m.opOf (opcodeOf (encodeWith m i)) = some i.op := by
    rw [opcodeOf_encodeWith, OpcodeMap.opOf_number hm]
  rw [decodeWith_of_opOf hop, Instr.op_instr_fieldsOf_encodeWith m h]

/-- The bytes that memory holds for a word decode as the word does. -/
theorem decodeBytesWith_bytesOfWord_append (m : OpcodeMap) (w : Word) (rest : List Byte) :
    decodeBytesWith m (bytesOfWord w ++ rest) = (decodeWith m w).map (fun i => (i, rest)) := by
  have hcons := decodeBytesWith_cons m (byteOfWord w 0) (byteOfWord w 1) (byteOfWord w 2) (byteOfWord w 3) rest
  rwa [Machine.wordOfBytes_byteOfWord] at hcons

/-- Settles O1: the opcode map gives the operation back, the format's laws the fields, and the four bytes the word. -/
theorem encodedInstructionDecodesToItself : Obligations.EncodedInstructionDecodesToItself := by
  intro m i hm h
  have hdec := decodeWith_encodeWith hm h
  refine ⟨hdec, fun rest => ?_⟩
  rw [decodeBytesWith_bytesOfWord_append, hdec]
  rfl

/-! From word to instruction and back. -/

/-- Every instruction made of a word's fields is well-formed: extension keeps an operand in its field's range. -/
theorem Op.wellFormed_instr_fieldsOf (o : Op) (w : Word) : (o.instr (fieldsOf w)).WellFormed := by
  cases o
  case halt | not | addd | subd | muld | divd | itod | dtoi | cmp => rfl
  case add | sub | mul | div | shl | shr | and | or | xor | mov | loadr | storer | loadr2 | storer2 =>
    exact decide_eq_true (fitsImm16_signExtend _)
  case syscall | addi | subi | muli | divi | lc | shli | shri | andi | ori | xori | push | pop | cmpi =>
    exact decide_eq_true (fitsImm20_signExtend _)
  case call | load | store | load2 | store2 | calli | ret | jmp | jne | jeq | jle | jl | jge | jg =>
    exact decide_eq_true (fitsAddr20_setWidth _)

theorem and_allUsed (w : Word) : w &&& 0xFFFFFFFF = w := BitVec.and_allOnes

/-- Packing a word's fields under its own opcode keeps the bits the operation uses and clears the others (R99). -/
theorem Op.encodeWith_instr_fieldsOf {m : OpcodeMap} {o : Op} {w : Word} (h : m.number o = opcodeOf w) :
    encodeWith m (o.instr (fieldsOf w)) = w &&& Machine.usedBits o := by
  cases o <;> simp only [Op.instr, encodeWith, Instr.op, h, Machine.usedBits]
  case halt => exact packRI_opcode w
  case not => exact packRI_fields_zero w
  case addd | subd | muld | divd | itod | dtoi | cmp => exact packRR_fields_zero w
  case add | sub | mul | div | shl | shr | and | or | xor | mov | loadr | storer | loadr2 | storer2 =>
    rw [packRR_fields (extract_imm16 w), and_allUsed]
  case syscall | addi | subi | muli | divi | lc | shli | shri | andi | ori | xori | push | pop | cmpi =>
    rw [packRI_fields (extract_imm20 w), and_allUsed]
  case call | load | store | load2 | store2 => rw [packRI_fields (extract_addr20 w), and_allUsed]
  case calli | ret | jmp | jne | jeq | jle | jl | jge | jg => exact packMe_fields (extract_addr20 w)

/-- Settles O2: a decoded instruction is its operation applied to the word's fields. -/
theorem decodedWordReencodes : Obligations.DecodedWordReencodes := by
  intro m w i h
  obtain ⟨o, ho, rfl⟩ := opOf_of_decodeWith h
  rw [Op.instr_op]
  exact ⟨o.wellFormed_instr_fieldsOf w, Op.encodeWith_instr_fieldsOf (OpcodeMap.number_of_opOf ho)⟩

/-! Words that decode and words that do not. -/

theorem decodeWith_ok_of_defined {m : OpcodeMap} {w : Word} (h : ¬ Machine.UndefinedIn m (opcodeOf w)) :
    ∃ i, decodeWith m w = .ok i := by
  obtain ⟨o, ho⟩ := Option.ne_none_iff_exists'.mp (mt OpcodeMap.opOf_eq_none_iff.mp h)
  exact ⟨_, decodeWith_of_opOf ho⟩

/-- Settles O3: decoding fails by name exactly where the map has no operation, and the default map's gaps are R100's. -/
theorem undefinedOpcodesAreRejected : Obligations.UndefinedOpcodesAreRejected :=
  ⟨fun _ _ => ⟨decodeWith_of_undefined, decodeWith_ok_of_defined⟩, undefinedIn_default_iff⟩

/-- Settles O4: the decoder evaluated on the six written-out words. -/
theorem writtenOutWordsDecode : Obligations.WrittenOutWordsDecode :=
  ⟨rfl, rfl, rfl, rfl, rfl, rfl⟩

end Sys2Proof

/-!
# Steps and runs

A step's forms are said once in the laws of the step; here they are put together into the run loop of 60_exceptions.md
R340, which goes on from the state a step answers and stays where no step answers one.
-/

namespace Sys2Proof.Machine

/-- The step tail as a choice: IP plus 1, but for a held step. -/
theorem State.tail_eq_ite (t : State) :
    t.tail = if t.result = .held then t else t.setReg 15 (t.reg 15 + 1) := by
  by_cases h : t.result = .held
  · rw [if_pos h, State.tail_of_held h]
  · rw [if_neg h, State.tail_of_ne_held h]
    rfl

/-- Settles O5: the step of a decoded word, with the tail written out. -/
theorem stepRunsTheDecodedInstruction : Obligations.StepRunsTheDecodedInstruction := by
  intro s t i hr hd he
  rw [step_of_decode hr hd he, State.tail_eq_ite]

/-- A completed step's tail writes IP alone. -/
theorem regWritten_tail {t : State} (h : t.result ≠ .held) : RegWritten t t.tail 15 (t.ip + 1) := by
  rw [State.tail_of_ne_held h]
  exact regWritten_setReg t 15 _

/-- Settles O6: the outcome is set to Error, and the tail writes IP alone. -/
theorem undefinedOpcodeStepIsError : Obligations.UndefinedOpcodeStepIsError := by
  intro s hr hu
  have hne : s.begin.undefinedOpcode.result ≠ .held := nofun
  obtain ⟨hip, hregs, hflags, hmem, hresult, hhost, hdraws, hcfg⟩ := regWritten_tail hne
  exact ⟨_, step_of_undefined hr (decodeWith_of_undefined hu), hresult, hip, hregs, hflags, hmem, hhost, hdraws, hcfg⟩

/-! The run loop. -/

theorem run_zero (s : State) : run 0 s = s := rfl

theorem run_succ_of_next {s t : State} (h : step s = .next t) (k : Nat) : run (k + 1) s = run k t := by
  simp only [run, h]

/-- The run loop stays at a state that answers no next state. -/
theorem run_of_no_next {s : State} (h : ∀ t, step s ≠ .next t) (k : Nat) : run k s = s := by
  cases k with
  | zero => rfl
  | succ k =>
    unfold run
    split
    · exact absurd ‹_› (h _)
    · rfl
    · rfl

theorem run_of_ended {s : State} (h : s.result.ended = true) (k : Nat) : run k s = s :=
  run_of_no_next (fun t => by rw [step_ended h]; exact nofun) k

theorem run_of_checked {s : State} (h : s.result.ended = false) (hc : s.cfg.addressing = .checked) (k : Nat) :
    run k s = s :=
  run_of_no_next (fun t => by rw [step_checked h hc]; exact nofun) k

/-- A run that ends with its first step stays at the state of that step. -/
theorem run_succ_of_ended {s t : State} (h : step s = .next t) (he : t.result.ended = true) (k : Nat) :
    run (k + 1) s = t := by
  rw [run_succ_of_next h, run_of_ended he]

theorem run_add (s : State) (j k : Nat) : run (j + k) s = run k (run j s) := by
  induction j generalizing s with
  | zero => rw [Nat.zero_add, run_zero]
  | succ j ih =>
    by_cases h : ∃ t, step s = .next t
    · obtain ⟨t, ht⟩ := h
      rw [Nat.add_right_comm, run_succ_of_next ht, run_succ_of_next ht, ih]
    · have hno : ∀ t, step s ≠ .next t := not_exists.mp h
      rw [run_of_no_next hno, run_of_no_next hno, run_of_no_next hno]

/-- Settles O7: the two stops of a step, where the run loop stays, and the next state everywhere else. -/
theorem stepsStopOnlyAtEndedRunsAndTheCheckedMode : Obligations.StepsStopOnlyAtEndedRunsAndTheCheckedMode :=
  ⟨fun _ k h => ⟨step_ended h, run_of_ended h k⟩, fun _ k h hc => ⟨step_checked h hc, run_of_checked h hc k⟩,
    fun _ => step_of_runs⟩

/-- Settles O8: runs join by induction on the steps of the first. -/
theorem runLoopStopsAtTheFirstOutcome : Obligations.RunLoopStopsAtTheFirstOutcome :=
  ⟨fun _ _ k h => run_succ_of_next h k, fun _ _ k h he => run_succ_of_ended h he k, run_add⟩

/-! HALT. -/

theorem exec_halt (s : State) : exec .halt s = .next (s.stop .terminate) := rfl

/-- A step whose instruction sets the outcome to Terminate ends the run well, one past the instruction. -/
theorem step_of_halt {s : State} (hr : Runs s) (hd : decodeWith s.cfg.opcodeMap s.fetch = .ok .halt) :
    ∃ t, step s = .next t ∧ EndsWell t ∧ RegWritten (s.stop .terminate) t 15 (s.ip + 1) ∧
      ∀ k, run (k + 1) s = t := by
  have hstep : step s = .next (s.stop .terminate).tail := step_of_decode hr hd (exec_halt s.begin)
  have hend : EndsWell (s.stop .terminate).tail := State.tail_result _
  have hne : (s.stop .terminate).result ≠ .held := nofun
  exact ⟨_, hstep, hend, regWritten_tail hne, run_succ_of_ended hstep (by rw [hend]; rfl)⟩

/-- Settles O52: HALT sets the outcome; its step then writes IP alone. -/
theorem haltTerminates : Obligations.HaltTerminates := by
  intro s
  refine ⟨⟨_, exec_halt s, onlyResult_stop s _⟩, fun hr hd => ?_⟩
  obtain ⟨t, hstep, hend, ⟨hip, hregs, -⟩, hrun⟩ := step_of_halt hr hd
  exact ⟨t, hstep, hend, hip, hregs, hrun⟩

theorem runs_reset : Runs State.reset := ⟨rfl, rfl⟩

/-- The zero word is HALT under the default map, so that is what an unloaded machine fetches (R372). -/
theorem decode_fetch_reset : decodeWith State.reset.cfg.opcodeMap State.reset.fetch = .ok .halt := rfl

/-- Settles O10: the reset state fetches a zero word, which is HALT. -/
theorem unloadedMachineHaltsAtOnce : Obligations.UnloadedMachineHaltsAtOnce := by
  obtain ⟨t, hstep, hend, ⟨hip, hregs, hflags, hmem, -⟩, hrun⟩ := step_of_halt runs_reset decode_fetch_reset
  exact ⟨t, hstep, hend, hip, hregs, hflags, hmem, hend, hrun⟩

end Sys2Proof.Machine

/-!
# What every step keeps

`Effect` lists what an instruction can do; a rule about every step is a rule about its cases, carried over the step tail
and the undefined opcode, which change the outcome and IP alone.
-/

namespace Sys2Proof.Machine

/-! Canonical memory. -/

/-- Every effect keeps memory canonical: only stores write memory, each at a reduced address. -/
theorem Effect.canonicalMemory {s t : State} {i : Instr} (he : Effect s i t) (h : CanonicalMemory s) :
    CanonicalMemory t := by
  cases he with
  | store f a v => exact Memory.wf_memWrite h a v
  | store2 a v b w => exact Memory.wf_memWrite (Memory.wf_memWrite h a v) b w
  | _ => exact h

theorem canonicalMemory_tail {t : State} (h : CanonicalMemory t) : CanonicalMemory t.tail := by
  unfold CanonicalMemory
  rwa [State.tail_mem]

/-- Settles O11: by the effects of an instruction. -/
theorem everyStepKeepsMemoryCanonical : Obligations.EveryStepKeepsMemoryCanonical := by
  intro s t h hstep
  obtain ⟨-, ⟨-, -, rfl⟩ | ⟨i, u, -, hu, rfl⟩⟩ := step_next_cases hstep
  · exact canonicalMemory_tail h
  · exact canonicalMemory_tail ((exec_effect i s.begin u hu).canonicalMemory h)

theorem canonicalMemory_construct (cfg : Params) : CanonicalMemory (State.construct cfg) :=
  Memory.wf_ofBytes 0 [] (Nat.zero_le _)

/-! Raw images. -/

/-- The machine a raw image describes (70_reset_and_hazards.md R374). -/
def rawState (cfg : Params) (image : List Byte) : State :=
  { State.construct cfg with
    regs := Vector.ofFn fun i : Fin 16 => rawRegister image i.val
    flags := image.getD 64 0
    mem := Memory.ofBytes 0 (image.drop 65) }

/-- An image loads exactly when its length is right, and then as the machine it describes. -/
theorem loadRawState_eq_ok_iff {cfg : Params} {image : List Byte} {s : State} :
    loadRawState cfg image = .ok s ↔
      (65 ≤ image.length ∧ (image.length - 65) % 4 = 0 ∧ image.length ≤ 65 + 2 ^ 22) ∧ s = rawState cfg image := by
  have hbytes : Config.memBytes = 2 ^ 22 := rfl
  unfold loadRawState
  rw [hbytes]
  split
  · exact iff_of_false nofun (by omega)
  · split
    · exact iff_of_false nofun (by omega)
    · split
      · exact iff_of_false nofun (by omega)
      · constructor
        · intro h
          cases h
          exact ⟨by omega, rfl⟩
        · rintro ⟨-, rfl⟩
          rfl

/-- Settles O12: constructed memory is empty, and a loaded image has at most 2^22 bytes of memory. -/
theorem launchStatesAreCanonical : Obligations.LaunchStatesAreCanonical := by
  refine ⟨canonicalMemory_construct _, canonicalMemory_construct, fun cfg image s h => ?_⟩
  obtain ⟨⟨-, -, hlen⟩, rfl⟩ := loadRawState_eq_ok_iff.mp h
  have hfits : 0 + (image.drop 65).length ≤ Config.memBytes := by
    rw [List.length_drop]
    unfold Config.memBytes
    omega
  exact Memory.wf_ofBytes 0 _ hfits

theorem rawState_reg (cfg : Params) (image : List Byte) (r : Reg) :
    (rawState cfg image).reg r = rawRegister image r.val := by
  simp [rawState, State.reg]

theorem rawState_readByte (cfg : Params) (image : List Byte) (k : Nat) :
    Memory.readByte (rawState cfg image).mem k = image.getD (65 + k) 0 := by
  have hread := Memory.readByte_ofBytes 0 k (image.drop 65)
  rw [Nat.zero_add] at hread
  rw [show (rawState cfg image).mem = Memory.ofBytes 0 (image.drop 65) from rfl, hread]
  simp [List.getD_eq_getElem?_getD]

/-- Settles O58: which images load, and what each part of the machine they describe reads as. -/
theorem rawImageLoadsItsLayout : Obligations.RawImageLoadsItsLayout := by
  intro cfg image
  constructor
  · constructor
    · rintro ⟨s, h⟩
      exact (loadRawState_eq_ok_iff.mp h).1
    · exact fun h => ⟨_, loadRawState_eq_ok_iff.mpr ⟨h, rfl⟩⟩
  · intro s h
    obtain ⟨-, rfl⟩ := loadRawState_eq_ok_iff.mp h
    exact ⟨rfl, rfl, rawState_reg cfg image, rfl, rawState_readByte cfg image⟩

/-! The flags. -/

/-- The flags after an instruction are the flags before it, or what a compare makes of them. -/
theorem Effect.flags_cases {s t : State} {i : Instr} (he : Effect s i t) :
    t.flags = s.flags ∨ ∃ a b, t.flags = compareFlags s.flags a b := by
  cases he with
  | flags rd b => exact .inr ⟨_, _, rfl⟩
  | _ => exact .inl rfl

theorem step_flags_cases {s t : State} (h : step s = .next t) :
    t.flags = s.flags ∨ ∃ a b, t.flags = compareFlags s.flags a b := by
  obtain ⟨-, ⟨-, -, rfl⟩ | ⟨i, u, -, hu, rfl⟩⟩ := step_next_cases h
  · exact .inl (State.tail_flags _)
  · rw [State.tail_flags]
    exact (exec_effect i s.begin u hu).flags_cases

/-- No two words are equal and in strict order at once. -/
theorem compareFlags_exclusive (f : Byte) (a b : Word) :
    ¬ (equality (compareFlags f a b) = true ∧ majority (compareFlags f a b) = true) := by
  obtain ⟨heq, hmaj, -⟩ := compareFlags_bits f a b
  rw [heq, hmaj, decide_eq_true_iff, decide_eq_true_iff]
  omega

/-- Settles O13: a step leaves the flags or compares, and a compare sets one of the two bits at most and keeps the
others. -/
theorem stepsKeepTheFlagsExclusive : Obligations.StepsKeepTheFlagsExclusive := by
  intro s t h
  unfold FlagsExclusive
  obtain hsame | ⟨a, b, hcmp⟩ := step_flags_cases h
  · rw [hsame]
    exact ⟨id, rfl⟩
  · rw [hcmp]
    exact ⟨fun _ => compareFlags_exclusive _ a b, (compareFlags_bits s.flags a b).2.2⟩

end Sys2Proof.Machine

/-!
# Exceptions and the host's streams

`Effect` names the raisers of each exception and the one instruction that takes input or appends output. That an
instruction other than SYSCALL does not read the streams holds because replacing them commutes with every operation.
-/

namespace Sys2Proof.Machine

/-! Exceptions (60_exceptions.md R334, R335). -/

theorem State.divide_last (s : State) (v : Word) : s.divide 15 v = s.raise .invalidReg :=
  s.withPair_last _

/-- SYSCALL checks the pair before any input or output (D31). -/
theorem exec_syscall_last (s : State) {code : Word} (h : code = 101 ∨ code = 103) :
    exec (.syscall 15 code) s = .next (s.raise .invalidReg) := by
  obtain rfl | rfl := h <;> rfl

/-- An instruction that names a pair at register 15 raises InvalidReg, before anything else it might do. -/
theorem exec_of_namesInvalidPair {i : Instr} (h : NamesInvalidPair i) (s : State) :
    exec i s = .next (s.raise .invalidReg) := by
  cases i
  case mul | muli => cases h; exact congrArg Host.Outcome.next (s.multiply_last _)
  case div | divi => cases h; exact congrArg Host.Outcome.next (s.divide_last _)
  case addd | subd | muld | divd => exact congrArg Host.Outcome.next (s.fpBinary_last _ h)
  case itod => cases h; exact congrArg Host.Outcome.next (s.intToDouble_last _)
  case dtoi => cases h; exact congrArg Host.Outcome.next (s.doubleToInt_last _)
  case load2 | loadr2 => cases h; exact congrArg Host.Outcome.next (s.loadPair_last _)
  case store2 | storer2 => cases h; exact congrArg Host.Outcome.next (s.storePair_last _)
  case syscall =>
    obtain ⟨rfl, hcode⟩ := h
    exact exec_syscall_last s hcode
  all_goals exact False.elim h

/-- From a state that is not at fault, an instruction ends in an engine fault only by taking an exception it may raise. -/
theorem Effect.raised_of_isEngineFault {s t : State} {i : Instr} (he : Effect s i t) (hs : s.result = .continued)
    (hf : IsEngineFault t.result) : ∃ e, t = s.raise e ∧
      ((e = .invalidReg ∧ NamesInvalidPair i) ∨ (e = .divByZero ∧ IsDivide i) ∨ (e = .regOverflow ∧ IsDtoi i)) := by
  have hcontinued : ¬ IsEngineFault s.result := by
    rw [hs]
    exact id
  cases he with
  | raise e hi => exact ⟨e, rfl, hi⟩
  | stop r hr => obtain rfl | rfl | rfl := hr <;> exact False.elim hf
  | _ => exact absurd hf hcontinued

/-- Settles O18: an engine fault is a taken exception, which writes the outcome alone. -/
theorem faultsArePreciseAndRecorded : Obligations.FaultsArePreciseAndRecorded := by
  intro i s t hs h hf
  obtain ⟨e, rfl, -⟩ := (exec_effect i s t h).raised_of_isEngineFault hs hf
  exact ⟨rfl, e, rfl⟩

/-- An outcome InvalidStateFault comes of InvalidReg, taken by an instruction that names a pair at register 15. -/
theorem invalidReg_of_invalidStateFault {i : Instr} {s t : State} {r : FaultRecord} (hs : s.result = .continued)
    (h : exec i s = .next t) (hr : t.result = .invalidStateFault r) :
    r.exception = .invalidReg ∧ NamesInvalidPair i := by
  have hf : IsEngineFault t.result := by
    rw [hr]
    trivial
  obtain ⟨e, rfl, ⟨rfl, hi⟩ | ⟨rfl, -⟩ | ⟨rfl, -⟩⟩ := (exec_effect i s t h).raised_of_isEngineFault hs hf <;> cases hr
  exact ⟨rfl, hi⟩

/-- An outcome MachineFault comes of DivByZero in a division or of RegOverflow in DTOI. -/
theorem divByZero_or_regOverflow_of_machineFault {i : Instr} {s t : State} {r : FaultRecord}
    (hs : s.result = .continued) (h : exec i s = .next t) (hr : t.result = .machineFault r) :
    (r.exception = .divByZero ∧ IsDivide i) ∨ (r.exception = .regOverflow ∧ IsDtoi i) := by
  have hf : IsEngineFault t.result := by
    rw [hr]
    trivial
  obtain ⟨e, rfl, ⟨rfl, -⟩ | ⟨rfl, hi⟩ | ⟨rfl, hi⟩⟩ := (exec_effect i s t h).raised_of_isEngineFault hs hf <;> cases hr
  · exact .inl ⟨rfl, hi⟩
  · exact .inr ⟨rfl, hi⟩

/-- Settles O17: the raisers by the effects of an instruction, and InvalidReg by the pair checks. -/
theorem exceptionsHaveTheirRaisersAndClasses : Obligations.ExceptionsHaveTheirRaisersAndClasses := by
  intro i s t hs h
  refine ⟨⟨?_, fun hi => ?_⟩, fun r hr => (invalidReg_of_invalidStateFault hs h hr).1,
    fun r hr => divByZero_or_regOverflow_of_machineFault hs h hr⟩
  · rintro ⟨r, hr⟩
    exact (invalidReg_of_invalidStateFault hs h hr).2
  · rw [exec_of_namesInvalidPair hi] at h
    cases h
    exact ⟨_, rfl⟩

/-! The streams (R330, R343). -/

/-- The same machine beside the streams `io`. -/
def State.withStreams (st : State) (io : HostStreams) : State := { st with toHostStreams := io }

/-! Replacing the streams commutes with the operations that branch; with the others it commutes by computation. -/

theorem State.withPair_withStreams (st : State) (io : HostStreams) (r : Reg) {k k' : Reg → State}
    (hk : ∀ hi, k' hi = (k hi).withStreams io) :
    (st.withStreams io).withPair r k' = (st.withPair r k).withStreams io := by
  unfold State.withPair
  cases pairHigh r with
  | none => rfl
  | some hi => exact hk hi

theorem State.multiply_withStreams (st : State) (io : HostStreams) (rd : Reg) (b : Word) :
    (st.withStreams io).multiply rd b = (st.multiply rd b).withStreams io :=
  st.withPair_withStreams io rd fun _ => rfl

theorem State.intToDouble_withStreams (st : State) (io : HostStreams) (rd rs : Reg) :
    (st.withStreams io).intToDouble rd rs = (st.intToDouble rd rs).withStreams io :=
  st.withPair_withStreams io rd fun _ => rfl

theorem State.loadPair_withStreams (st : State) (io : HostStreams) (rd : Reg) (a : Word) :
    (st.withStreams io).loadPair rd a = (st.loadPair rd a).withStreams io :=
  st.withPair_withStreams io rd fun _ => rfl

theorem State.storePair_withStreams (st : State) (io : HostStreams) (rd : Reg) (a : Word) :
    (st.withStreams io).storePair rd a = (st.storePair rd a).withStreams io :=
  st.withPair_withStreams io rd fun _ => rfl

theorem State.divLaw_withStreams (st : State) (io : HostStreams) (rd hi : Reg) (v : Word) :
    (st.withStreams io).divLaw rd hi v = (st.divLaw rd hi v).withStreams io := by
  have hregs : ∀ q, (st.withStreams io).reg q = st.reg q := fun _ => rfl
  have hcfg : (st.withStreams io).cfg = st.cfg := rfl
  simp only [State.divLaw, hregs, hcfg]
  split
  · rfl
  · split <;> rfl

theorem State.divide_withStreams (st : State) (io : HostStreams) (rd : Reg) (v : Word) :
    (st.withStreams io).divide rd v = (st.divide rd v).withStreams io :=
  st.withPair_withStreams io rd fun hi => st.divLaw_withStreams io rd hi v

theorem State.shift_withStreams (st : State) (io : HostStreams) (op : ShiftOp) (rd : Reg) (g : Word → Word → Word)
    (c : Word) : (st.withStreams io).shift op rd g c = (st.shift op rd g c).withStreams io := by
  unfold State.shift
  split <;> rfl

theorem State.fpBinary_withStreams (st : State) (io : HostStreams) (op : FpOp) (rd rs : Reg) :
    (st.withStreams io).fpBinary op rd rs = (st.fpBinary op rd rs).withStreams io := by
  refine st.withPair_withStreams io rd fun dhi => st.withPair_withStreams io rs fun shi => ?_
  have hpair : ∀ lo hi, (st.withStreams io).pair lo hi = st.pair lo hi := fun _ _ => rfl
  simp only [hpair]
  cases Fp.eval op (st.pair rd dhi) (st.pair rs shi) with
  | none => rfl
  | some r => rfl

theorem State.doubleToInt_withStreams (st : State) (io : HostStreams) (rd rs : Reg) :
    (st.withStreams io).doubleToInt rd rs = (st.doubleToInt rd rs).withStreams io := by
  refine st.withPair_withStreams io rs fun hi => ?_
  have hpair : (st.withStreams io).pair rs hi = st.pair rs hi := rfl
  simp only [hpair]
  cases Fp.toInt32 (st.pair rs hi) with
  | nan => rfl
  | overflow => rfl
  | value v => rfl

theorem State.jumpIf_withStreams (st : State) (io : HostStreams) (c : Bool) (addr20 : Word) :
    (st.withStreams io).jumpIf c addr20 = (st.jumpIf c addr20).withStreams io := by
  cases c <;> rfl

/-- An instruction other than SYSCALL does the same whatever the streams are. -/
theorem exec_withStreams {i : Instr} {s t : State} (h : exec i s = .next t) (hi : ¬ IsSyscall i) (io : HostStreams) :
    exec i (s.withStreams io) = .next (t.withStreams io) := by
  cases i <;> cases h
  case syscall => exact absurd trivial hi
  case shl | shli | shr | shri => exact congrArg _ (s.shift_withStreams io _ _ _ _)
  case div | divi => exact congrArg _ (s.divide_withStreams io _ _)
  case addd | subd | muld | divd => exact congrArg _ (s.fpBinary_withStreams io _ _ _)
  case dtoi => exact congrArg _ (s.doubleToInt_withStreams io _ _)
  case mul | muli => exact congrArg _ (s.multiply_withStreams io _ _)
  case itod => exact congrArg _ (s.intToDouble_withStreams io _ _)
  case load2 | loadr2 => exact congrArg _ (s.loadPair_withStreams io _ _)
  case store2 | storer2 => exact congrArg _ (s.storePair_withStreams io _ _)
  case jne | jeq | jle | jl | jge | jg => exact congrArg _ (s.jumpIf_withStreams io _ _)
  all_goals rfl

theorem Effect.sameHost {s t : State} {i : Instr} (he : Effect s i t) (hi : ¬ IsSyscall i) : SameHost s t := by
  cases he with
  | emit e h => exact absurd h hi
  | takeInt f w rest h => exact absurd h hi
  | takeDouble f v rest h => exact absurd h hi
  | takeChar f w rest h => exact absurd h hi
  | _ => exact sameHost_refl s

/-- The streams only move on: input is taken from the front, output is appended, and the parameters stay. -/
def StreamsAdvance (s t : State) : Prop :=
  t.inInts <:+ s.inInts ∧ t.inDoubles <:+ s.inDoubles ∧ t.inChars <:+ s.inChars ∧ s.output <+: t.output ∧ t.cfg = s.cfg

theorem streamsAdvance_refl (s : State) : StreamsAdvance s s :=
  ⟨List.suffix_rfl, List.suffix_rfl, List.suffix_rfl, List.prefix_rfl, rfl⟩

theorem suffix_of_eq_cons {α : Type} {l rest : List α} {x : α} (h : l = x :: rest) : rest <:+ l := by
  rw [h]
  exact List.suffix_cons x rest

theorem Effect.streamsAdvance {s t : State} {i : Instr} (he : Effect s i t) : StreamsAdvance s t := by
  cases he with
  | emit e => exact ⟨List.suffix_rfl, List.suffix_rfl, List.suffix_rfl, List.prefix_append _ _, rfl⟩
  | takeInt f w rest _ h => exact ⟨suffix_of_eq_cons h, List.suffix_rfl, List.suffix_rfl, List.prefix_rfl, rfl⟩
  | takeDouble f v rest _ h => exact ⟨List.suffix_rfl, suffix_of_eq_cons h, List.suffix_rfl, List.prefix_rfl, rfl⟩
  | takeChar f w rest _ h => exact ⟨List.suffix_rfl, List.suffix_rfl, suffix_of_eq_cons h, List.prefix_rfl, rfl⟩
  | _ => exact streamsAdvance_refl s

theorem streamsAdvance_tail {s t : State} (h : StreamsAdvance s t) : StreamsAdvance s t.tail := by
  unfold StreamsAdvance
  rwa [State.tail_inInts, State.tail_inDoubles, State.tail_inChars, State.tail_output, State.tail_cfg]

theorem step_streamsAdvance {s t : State} (h : step s = .next t) : StreamsAdvance s t := by
  obtain ⟨-, ⟨-, -, rfl⟩ | ⟨i, u, -, hu, rfl⟩⟩ := step_next_cases h
  · exact streamsAdvance_tail (streamsAdvance_refl s)
  · exact streamsAdvance_tail (exec_effect i s.begin u hu).streamsAdvance

/-- The parameters and what a step answers are all of a machine. -/
theorem State.ext_of_answer {t u : State} (hcfg : t.cfg = u.cfg) (h : t.answer = u.answer) : t = u := by
  obtain ⟨core, io, result, draws, cfg⟩ := t
  cases hcfg
  cases h
  rfl

/-- The machine's step and the spec's step (R330) say the same of a state that runs. -/
theorem step_eq_next_iff_coreStep {s : State} (hr : Runs s) (t : State) : step s = .next t ↔
    t.cfg = s.cfg ∧ coreStep s.cfg s.draws s.toCoreState s.toHostStreams = .next t.answer := by
  obtain ⟨u, hu⟩ := step_of_runs hr
  obtain ⟨-, -, -, -, hcfg⟩ := step_streamsAdvance hu
  rw [coreStep_eq hr, hu]
  constructor
  · intro h
    cases h
    exact ⟨hcfg, rfl⟩
  · rintro ⟨htcfg, h⟩
    rw [State.ext_of_answer (htcfg.trans hcfg.symm) (Host.Outcome.next.inj h).symm]

/-- Settles O16: the effects that reach the streams are SYSCALL's, and replacing the streams commutes with every other
instruction. -/
theorem onlySyscallReachesTheHost : Obligations.OnlySyscallReachesTheHost :=
  ⟨fun i s t h hi => (exec_effect i s t h).sameHost hi,
    fun _ _ _ io h hi => exec_withStreams h hi io,
    fun _ _ => step_streamsAdvance,
    fun _ t hr => step_eq_next_iff_coreStep hr t⟩

end Sys2Proof.Machine

/-!
# Division

The division law asks for a quotient and a remainder; truncated division gives them, and they are the only ones. DIV and
DIVI are the shared operation `State.divide`, by their own divisors.
-/

namespace Sys2Proof.Machine

/-- `q` and `r` are the quotient toward zero and the remainder, with the dividend's sign, of `n` by `v` (R158). -/
def IsTruncatedDivision (n v q r : Int) : Prop :=
  n = v * q + r ∧ r.natAbs < v.natAbs ∧ (r ≠ 0 → (0 < r ↔ 0 < n))

theorem isTruncatedDivision_tdiv_tmod (n : Int) {v : Int} (hv : v ≠ 0) :
    IsTruncatedDivision n v (n.tdiv v) (n.tmod v) := by
  refine ⟨(Int.mul_tdiv_add_tmod n v).symm, ?_, fun hr => ?_⟩
  · rw [Int.natAbs_tmod]
    exact Nat.mod_lt _ (Int.natAbs_pos.mpr hv)
  · have hsign := Int.sign_tmod n v
    split at hsign
    · exact absurd (Int.sign_eq_zero_iff_zero.mp hsign) hr
    · rw [← Int.sign_eq_one_iff_pos, ← Int.sign_eq_one_iff_pos, hsign]

theorem IsTruncatedDivision.eq_tdiv_tmod {n v q r : Int} (h : IsTruncatedDivision n v q r) (hv : v ≠ 0) :
    n.tdiv v = q ∧ n.tmod v = r := by
  obtain ⟨hn, hlt, hsign⟩ := h
  by_cases hpos : 0 < n
  · exact (Int.tdiv_tmod_unique hpos.le hv).mpr ⟨by rw [hn, add_comm], by omega, by omega⟩
  · exact (Int.tdiv_tmod_unique' (not_lt.mp hpos) hv).mpr ⟨by rw [hn, add_comm], by omega, by omega⟩

/-! The division law on a state. -/

theorem toInt_ne_zero {v : Word} (h : v ≠ 0) : v.toInt ≠ 0 :=
  fun he => h (BitVec.toInt_inj.mp he)

theorem State.divLaw_zero (s : State) (rd hi : Reg) : s.divLaw rd hi 0 = s.raise .divByZero := by
  simp [State.divLaw]

/-- For a divisor that is not 0, the law writes the quotient and the remainder exactly where the quotient fits. -/
theorem State.divLaw_of_isTruncatedDivision (s : State) {rd hi : Reg} {v : Word} {q r : Int} (hv : v ≠ 0)
    (h : IsTruncatedDivision (dividendValue s.cfg.divDividend (s.reg rd) (s.reg hi)) v.toInt q r) :
    s.divLaw rd hi v = if FitsInt32 q then (s.setReg rd (BitVec.ofInt 32 q)).setReg hi (BitVec.ofInt 32 r)
      else s.raise .divByZero := by
  obtain ⟨hq, hr⟩ := h.eq_tdiv_tmod (toInt_ne_zero hv)
  simp only [State.divLaw, if_neg hv, dividend_toInt, hq, hr]

theorem pairWritten_divLaw (s : State) {rd hi : Reg} (h : hi.val = rd.val + 1) {v : Word} {q r : Int} (hv : v ≠ 0)
    (hd : IsTruncatedDivision (dividendValue s.cfg.divDividend (s.reg rd) (s.reg hi)) v.toInt q r)
    (hfit : FitsInt32 q) : PairWritten s (s.divLaw rd hi v) rd hi (BitVec.ofInt 32 q) (BitVec.ofInt 32 r) := by
  rw [s.divLaw_of_isTruncatedDivision hv hd, if_pos hfit]
  exact pairWritten_setReg s h _ _

theorem exceptionTaken_divLaw_of_not_fits (s : State) {rd hi : Reg} {v : Word} {q r : Int} (hv : v ≠ 0)
    (hd : IsTruncatedDivision (dividendValue s.cfg.divDividend (s.reg rd) (s.reg hi)) v.toInt q r)
    (hfit : ¬ FitsInt32 q) : ExceptionTaken s (s.divLaw rd hi v) .divByZero := by
  rw [s.divLaw_of_isTruncatedDivision hv hd, if_neg hfit]
  exact exceptionTaken_raise s _

theorem divisionLaw_divLaw (s : State) {rd hi : Reg} (h : hi.val = rd.val + 1) (v : Word) :
    DivisionLaw s (s.divLaw rd hi v) rd hi v := by
  constructor
  · rintro rfl
    rw [State.divLaw_zero]
    exact exceptionTaken_raise s _
  · intro hv
    have hd := isTruncatedDivision_tdiv_tmod (dividendValue s.cfg.divDividend (s.reg rd) (s.reg hi)) (toInt_ne_zero hv)
    have ⟨hn, hlt, hsign⟩ := hd
    exact ⟨_, _, hn, hlt, hsign, pairWritten_divLaw s h hv hd, exceptionTaken_divLaw_of_not_fits s hv hd⟩

/-! The instructions. -/

theorem State.divide_valid (s : State) {rd hi : Reg} (h : hi.val = rd.val + 1) (v : Word) :
    s.divide rd v = s.divLaw rd hi v :=
  s.withPair_valid h _

theorem exceptionTaken_divide_last (s : State) (v : Word) : ExceptionTaken s (s.divide 15 v) .invalidReg := by
  rw [State.divide_last]
  exact exceptionTaken_raise s _

/-- DIV's divisor under either `DIV_IMM16` (R159, D33). -/
theorem State.divisor_eq_ite (s : State) (rs : Reg) (imm : Word) :
    s.divisor rs imm = if s.cfg.divImm16 = .added then s.reg rs + imm else s.reg rs := by
  unfold State.divisor
  cases s.cfg.divImm16 <;> rfl

theorem exec_div (rd rs : Reg) (imm : Word) (s : State) :
    exec (.div rd rs imm) s =
      .next (s.divide rd (if s.cfg.divImm16 = .added then s.reg rs + imm else s.reg rs)) := by
  rw [← State.divisor_eq_ite]
  rfl

theorem exec_divi (rd : Reg) (imm : Word) (s : State) : exec (.divi rd imm) s = .next (s.divide rd imm) := rfl

/-- Settles O24: both instructions are the pair check and then the law, by their own divisors. -/
theorem divideFollowsTheDivisionLaw : Obligations.DivideFollowsTheDivisionLaw := by
  constructor
  · intro s rd hi rs imm h
    have hlaw : ∀ v, DivisionLaw s (s.divide rd v) rd hi v := fun v => by
      rw [State.divide_valid s h]
      exact divisionLaw_divLaw s h v
    exact ⟨⟨_, exec_div rd rs imm s, hlaw _⟩, ⟨_, exec_divi rd imm s, hlaw _⟩⟩
  · exact fun s rs imm =>
      ⟨⟨_, exec_div 15 rs imm s, exceptionTaken_divide_last s _⟩,
        ⟨_, exec_divi 15 imm s, exceptionTaken_divide_last s _⟩⟩

/-- Settles O25: the quotient and remainder named are the ones that truncated division gives. -/
theorem divideCompletesWhenTheQuotientFits : Obligations.DivideCompletesWhenTheQuotientFits := by
  intro s rd hi rs imm v q r h hv hn hlt hsign hlow hhigh
  have hwritten : PairWritten s (s.divide rd v) rd hi (BitVec.ofInt 32 q) (BitVec.ofInt 32 r) := by
    rw [State.divide_valid s h]
    exact pairWritten_divLaw s h hv ⟨hn, hlt, hsign⟩ ⟨hlow, hhigh⟩
  constructor
  · intro hdivisor
    refine ⟨_, exec_div rd rs imm s, ?_⟩
    rwa [hdivisor]
  · rintro rfl
    exact ⟨_, exec_divi rd imm s, hwritten⟩

end Sys2Proof.Machine

/-!
# Shifts, NOT, addresses and compares

The four shifts are `State.shift`, whose two outcomes are said once for any word operation; a compare is the compare law
on the flags byte; an address acts by its word index alone.
-/

namespace Sys2Proof.Machine

/-! Shifts (43_shift_logic.md R191 to R195). -/

theorem exec_shl (rd rs : Reg) (imm : Word) (s : State) :
    exec (.shl rd rs imm) s = .next (s.shift .shl rd shiftLeftWord (s.reg rs + imm)) := rfl

theorem exec_shli (rd : Reg) (imm : Word) (s : State) :
    exec (.shli rd imm) s = .next (s.shift .shli rd shiftLeftWord imm) := rfl

theorem exec_shr (rd rs : Reg) (imm : Word) (s : State) :
    exec (.shr rd rs imm) s = .next (s.shift .shr rd (shiftRightWord s.cfg.shrKind) (s.reg rs + imm)) := rfl

theorem exec_shri (rd : Reg) (imm : Word) (s : State) :
    exec (.shri rd imm) s = .next (s.shift .shri rd (shiftRightWord s.cfg.shrKind) imm) := rfl

/-- A count in range: the word operation is written, and nothing else. -/
theorem regWritten_shift (s : State) (op : ShiftOp) (rd : Reg) (f : Word → Word → Word) {c : Word}
    (h : ShiftInRange c) : RegWritten s (s.shift op rd f c) rd (f (s.reg rd) c) := by
  rw [State.shift, if_pos h]
  exact regWritten_setReg s rd _

/-- A count out of range: a draw is written, and nothing else. -/
theorem drawWritten_shift (s : State) (op : ShiftOp) (rd : Reg) (f : Word → Word → Word) {c : Word}
    (h : ¬ ShiftInRange c) : DrawWritten s (s.shift op rd f c) rd (Config.shiftOob s.draws op (s.reg rd) c) := by
  rw [State.shift, if_neg h]
  exact drawWritten_setReg s rd _

theorem shiftLeftWord_toNat (x c : Word) : (shiftLeftWord x c).toNat = x.toNat * 2 ^ c.toNat % 2 ^ 32 := by
  rw [shiftLeftWord, BitVec.toNat_shiftLeft, Nat.shiftLeft_eq]

theorem rightShifted_shiftRightWord (kind : ShrKind) (x c : Word) :
    RightShifted kind x (shiftRightWord kind x c) c.toNat := by
  cases kind with
  | arithmetic =>
    change (x.sshiftRight c.toNat).toInt = x.toInt / 2 ^ c.toNat
    rw [BitVec.toInt_sshiftRight, Int.shiftRight_eq_div_pow, Nat.cast_pow, Nat.cast_ofNat]
  | logical =>
    change (x >>> c.toNat).toNat = x.toNat / 2 ^ c.toNat
    rw [BitVec.toNat_ushiftRight, Nat.shiftRight_eq_div_pow]

/-- Settles O27: both instructions are `State.shift` to the left, by `x[s] + imm16` and by `imm20`. -/
theorem leftShiftsMultiplyByAPowerOfTwo : Obligations.LeftShiftsMultiplyByAPowerOfTwo :=
  fun s rd rs imm =>
    ⟨fun h => ⟨_, _, exec_shl rd rs imm s, regWritten_shift s _ rd _ h, shiftLeftWord_toNat _ _⟩,
      fun h => ⟨_, exec_shl rd rs imm s, drawWritten_shift s _ rd _ h⟩,
      fun h => ⟨_, _, exec_shli rd imm s, regWritten_shift s _ rd _ h, shiftLeftWord_toNat _ _⟩,
      fun h => ⟨_, exec_shli rd imm s, drawWritten_shift s _ rd _ h⟩⟩

/-- Settles O28: both instructions are `State.shift` to the right as `SHR_KIND` names, by `x[s] + imm16` and by
`imm20`. -/
theorem rightShiftsDivideByAPowerOfTwo : Obligations.RightShiftsDivideByAPowerOfTwo :=
  fun s rd rs imm =>
    ⟨fun h => ⟨_, _, exec_shr rd rs imm s, regWritten_shift s _ rd _ h, rightShifted_shiftRightWord _ _ _⟩,
      fun h => ⟨_, exec_shr rd rs imm s, drawWritten_shift s _ rd _ h⟩,
      fun h => ⟨_, _, exec_shri rd imm s, regWritten_shift s _ rd _ h, rightShifted_shiftRightWord _ _ _⟩,
      fun h => ⟨_, exec_shri rd imm s, drawWritten_shift s _ rd _ h⟩⟩

/-! NOT (R203). -/

theorem exec_not (rd : Reg) (s : State) : exec (.not rd) s = .next (s.setReg rd (~~~ s.reg rd)) := rfl

theorem bitwiseWritten_not (s : State) (rd : Reg) :
    BitwiseWritten s (s.setReg rd (~~~ s.reg rd)) rd 0 (fun x _ => !x) := by
  refine ⟨_, regWritten_setReg s rd _, fun k hk => ?_⟩
  rw [BitVec.getLsbD_not, decide_eq_true hk, Bool.true_and]

theorem State.setReg_reg_self (s : State) (r : Reg) : s.setReg r (s.reg r) = s := by
  simp [State.setReg, State.reg]

/-- Settles O30: the second complement writes the first register back. -/
theorem notComplementsOneRegister : Obligations.NotComplementsOneRegister := by
  intro s rd
  refine ⟨_, exec_not rd s, bitwiseWritten_not s rd, _, exec_not rd _, ?_⟩
  rw [State.reg_setReg_self, BitVec.not_not, State.setReg_setReg_self, State.setReg_reg_self]

/-! Addresses (20_memory.md R62). -/

theorem wordIndex_ofNat_mod (a : Word) : wordIndex (BitVec.ofNat 32 (a.toNat % 2 ^ 20)) = wordIndex a := by
  rw [wordIndex_eq, wordIndex_eq, BitVec.toNat_ofNat]
  unfold Config.memWords
  omega

/-- Settles O20: reads and writes use an address through its word index alone, which reduction keeps. -/
theorem addressesAreModular : Obligations.AddressesAreModular := by
  intro s a v
  unfold State.memRead State.memWrite
  rw [wordIndex_ofNat_mod]
  exact ⟨rfl, rfl⟩

/-! Compares (45_compare.md). -/

theorem exec_cmp (rd rs : Reg) (s : State) : exec (.cmp rd rs) s = .next (s.compare rd (s.reg rs)) := rfl

theorem exec_cmpi (rd : Reg) (imm : Word) (s : State) : exec (.cmpi rd imm) s = .next (s.compare rd imm) := rfl

theorem onlyFlags_compare (s : State) (rd : Reg) (b : Word) : OnlyFlags s (s.compare rd b) :=
  ⟨fun _ _ => rfl, sameMem_refl s, rfl, sameHost_refl s, rfl, rfl⟩

theorem equality_compareFlags_iff (f : Byte) (a b : Word) :
    equality (compareFlags f a b) = true ↔ a.toInt = b.toInt := by
  rw [(compareFlags_bits f a b).1, decide_eq_true_iff]

theorem majority_compareFlags_iff (f : Byte) (a b : Word) :
    majority (compareFlags f a b) = true ↔ a.toInt < b.toInt := by
  rw [(compareFlags_bits f a b).2.1, decide_eq_true_iff]

theorem compareFlags_high (f : Byte) (a b : Word) : (compareFlags f a b).extractLsb' 2 6 = f.extractLsb' 2 6 :=
  (compareFlags_bits f a b).2.2

/-- Settles O38: both instructions are the compare law, with `x[s]` and with `imm20`. -/
theorem comparesWriteTwoFlagBits : Obligations.ComparesWriteTwoFlagBits :=
  fun s rd rs imm =>
    ⟨⟨_, exec_cmp rd rs s, onlyFlags_compare s rd _, equality_compareFlags_iff _ _ _, majority_compareFlags_iff _ _ _,
        compareFlags_high _ _ _⟩,
      ⟨_, exec_cmpi rd imm s, onlyFlags_compare s rd _, equality_compareFlags_iff _ _ _,
        majority_compareFlags_iff _ _ _, compareFlags_high _ _ _⟩⟩

/-! JL (48_jumps.md R285). -/

theorem exec_jl (addr : Word) (s : State) :
    exec (.jl addr) s = .next (s.jumpIf (jlCondition s.cfg.jlMode s.flags) addr) := rfl

/-- The reference's condition `MAJORITY && !MAJORITY` never holds. -/
theorem jlCondition_referenceNoop (f : Byte) : jlCondition .referenceNoop f = false := Bool.and_not_self _

theorem jlCondition_intended_iff (f : Byte) :
    jlCondition .intended f = true ↔ f.getLsbD 1 = true ∧ f.getLsbD 0 = false := by
  rw [jlCondition, Bool.and_eq_true, majority_iff, not_equality_iff]

/-- Settles O40: JL is `State.jumpIf` at the condition of its mode. -/
theorem jumpLessFollowsItsMode : Obligations.JumpLessFollowsItsMode := by
  intro s addr
  refine ⟨_, exec_jl addr s, fun hmode => ?_, fun hmode => ?_⟩
  · rw [hmode, jlCondition_referenceNoop, State.jumpIf_false]
  · rw [hmode]
    exact jumpLaw_jumpIf s addr (jlCondition_intended_iff s.flags)

/-! A compare and then a conditional jump (R288), with the step tail after each. -/

/-- The tail after a jump of a state that is not held: the target where the jump was taken, else the next word. -/
theorem State.ip_tail_jumpIf {s : State} (h : s.result ≠ .held) (c : Bool) (addr : Word) :
    (s.jumpIf c addr).tail.ip = if c = true then addr else s.ip + 1 := by
  have hne : (s.jumpIf c addr).result ≠ .held := by
    cases c <;> exact h
  rw [State.tail_of_ne_held hne, State.ip_setIp]
  cases c with
  | true => exact (congrArg (· + 1) (State.ip_setIp s (addr - 1))).trans (BitVec.sub_add_cancel addr 1)
  | false => rfl

/-- A jump, at a condition that decides `p`, right after the step of a compare. -/
theorem ip_tail_jumpIf_tail_compare {s : State} (hs : s.result = .continued) (rd : Reg) (b addr : Word) {c : Bool}
    {p : Prop} [Decidable p] (h : c = true ↔ p) :
    ((s.compare rd b).tail.jumpIf c addr).tail.ip = if p then addr else s.ip + 2 := by
  have hne : (s.compare rd b).tail.result ≠ .held := by
    rw [State.tail_result, State.compare_result, hs]
    exact nofun
  have hip : (s.compare rd b).tail.ip = s.ip + 1 := by
    rw [State.tail_of_ne_held (by rwa [State.tail_result] at hne), State.ip_setIp]
    rfl
  rw [State.ip_tail_jumpIf hne, hip, BitVec.add_assoc]
  simp only [h]
  rfl

/-! What the conditions say of the words a compare was given. -/

theorem not_majority_compareFlags_iff (f : Byte) (a b : Word) :
    (!majority (compareFlags f a b)) = true ↔ b.toInt ≤ a.toInt := by
  rw [Bool.not_eq_true', ← Bool.not_eq_true, majority_compareFlags_iff, not_lt]

theorem not_equality_compareFlags_iff (f : Byte) (a b : Word) :
    (!equality (compareFlags f a b)) = true ↔ a.toInt ≠ b.toInt := by
  rw [Bool.not_eq_true', ← Bool.not_eq_true, equality_compareFlags_iff]

theorem jleCondition_compareFlags_iff (f : Byte) (a b : Word) :
    (majority (compareFlags f a b) || equality (compareFlags f a b)) = true ↔ a.toInt ≤ b.toInt := by
  rw [Bool.or_eq_true, majority_compareFlags_iff, equality_compareFlags_iff, le_iff_lt_or_eq]

theorem jlCondition_compareFlags_iff (f : Byte) (a b : Word) :
    jlCondition .intended (compareFlags f a b) = true ↔ a.toInt < b.toInt := by
  rw [jlCondition, Bool.and_eq_true, majority_compareFlags_iff, not_equality_compareFlags_iff, and_iff_left_iff_imp]
  exact ne_of_lt

theorem jgeCondition_compareFlags_iff (f : Byte) (a b : Word) :
    (!majority (compareFlags f a b) || equality (compareFlags f a b)) = true ↔ b.toInt ≤ a.toInt := by
  rw [Bool.or_eq_true, not_majority_compareFlags_iff, equality_compareFlags_iff, or_iff_left_iff_imp]
  exact ge_of_eq

theorem jgCondition_compareFlags_iff (f : Byte) (a b : Word) :
    (!majority (compareFlags f a b) && !equality (compareFlags f a b)) = true ↔ b.toInt < a.toInt := by
  rw [Bool.and_eq_true, not_majority_compareFlags_iff, not_equality_compareFlags_iff, lt_iff_le_and_ne, ne_comm]

/-- Settles O41: the flags a compare leaves, read by each jump's condition, decide the order the jump names. -/
theorem compareThenJumpDecidesTheOrder : Obligations.CompareThenJumpDecidesTheOrder := by
  intro s t rd rs addr hcmp hs
  cases hcmp
  have hflags : (s.compare rd (s.reg rs)).tail.flags = compareFlags s.flags (s.reg rd) (s.reg rs) := State.tail_flags _
  have hcfg : (s.compare rd (s.reg rs)).tail.cfg = s.cfg := State.tail_cfg _
  refine ⟨⟨_, exec_jle addr _, ip_tail_jumpIf_tail_compare hs rd _ addr ?_⟩,
    fun hintended => ⟨_, exec_jl addr _, ip_tail_jumpIf_tail_compare hs rd _ addr ?_⟩,
    ⟨_, exec_jge addr _, ip_tail_jumpIf_tail_compare hs rd _ addr ?_⟩,
    ⟨_, exec_jg addr _, ip_tail_jumpIf_tail_compare hs rd _ addr ?_⟩,
    ⟨_, exec_jeq addr _, ip_tail_jumpIf_tail_compare hs rd _ addr ?_⟩,
    ⟨_, exec_jne addr _, (ip_tail_jumpIf_tail_compare hs rd _ addr (p := s.reg rd ≠ s.reg rs) ?_).trans (ite_not ..)⟩⟩
    <;> rw [hflags]
  · exact jleCondition_compareFlags_iff _ _ _
  · rw [hcfg, hintended]
    exact jlCondition_compareFlags_iff _ _ _
  · exact jgeCondition_compareFlags_iff _ _ _
  · exact jgCondition_compareFlags_iff _ _ _
  · rw [equality_compareFlags_iff, BitVec.toInt_inj]
  · rw [not_equality_compareFlags_iff, ne_eq, BitVec.toInt_inj]

end Sys2Proof.Machine

/-!
# The stack and calls

PUSH, CALL and CALLI are the shared operation `State.push`, which decrements SP and stores at the new SP; POP and RET
load from there. The round trips put the two together over the step tail between them (D16).
-/

namespace Sys2Proof.Machine

theorem State.reg_setSp (s : State) (v : Word) (r : Reg) :
    (s.setSp v).reg r = if r = 14 then v else s.reg r := by
  rw [State.setSp_eq, State.reg_setReg]
  simp only [eq_comm]

theorem State.reg_setIp_ne (s : State) {r : Reg} (h : r ≠ 15) (v : Word) : (s.setIp v).reg r = s.reg r :=
  s.reg_setReg_ne h.symm v

/-! Pushing. -/

/-- A push in closed form: the stored word is that of the state with SP already decremented (D18). -/
theorem State.push_eq (s : State) (f : State → Word) :
    s.push f = (s.setSp (s.sp - 1)).memWrite (s.sp - 1) (f (s.setSp (s.sp - 1))) := by
  simp only [State.push, State.sp_setSp]

theorem State.reg_push (s : State) (f : State → Word) (r : Reg) :
    (s.push f).reg r = if r = 14 then s.sp - 1 else s.reg r := by
  rw [State.push_eq, State.reg_memWrite, State.reg_setSp]

theorem State.sp_push (s : State) (f : State → Word) : (s.push f).sp = s.sp - 1 := s.reg_push f 14

theorem sameRegsBut_push (s : State) (f : State → Word) : SameRegsBut s (s.push f) [14] :=
  fun r hr => by rw [State.reg_push, if_neg (by simpa using hr)]

theorem wordStored_push (s : State) (f : State → Word) :
    WordStored s (s.push f) (s.sp - 1) (f (s.setSp (s.sp - 1))) := by
  rw [State.push_eq]
  exact wordStored_memWrite (s.setSp (s.sp - 1)) _ _

theorem exec_push (rd : Reg) (imm : Word) (s : State) :
    exec (.push rd imm) s = .next (s.push fun st => st.reg rd + imm) := rfl

/-- Settles O42: PUSH is the push of `x[rd] + imm20`. -/
theorem pushStoresAtTheDecrementedStackPointer : Obligations.PushStoresAtTheDecrementedStackPointer := by
  intro s rd imm
  have hstored := wordStored_push s fun st => st.reg rd + imm
  simp only [State.reg_setSp] at hstored
  exact ⟨_, exec_push rd imm s, s.sp_push _, sameRegsBut_push s _, hstored⟩

/-! Popping. -/

theorem exec_pop (rd : Reg) (imm : Word) (s : State) : exec (.pop rd imm) s =
    .next ((s.setReg rd (s.memRead s.sp + imm)).setSp ((s.setReg rd (s.memRead s.sp + imm)).sp + 1)) := rfl

theorem State.sp_setReg_ne (s : State) {r : Reg} (h : r ≠ 14) (v : Word) : (s.setReg r v).sp = s.sp :=
  s.reg_setReg_ne h v

/-- Settles O43: POP is a register write and then an increment of SP, which for `rd = 14` reads what was just written. -/
theorem popLoadsThenIncrementsTheStackPointer : Obligations.PopLoadsThenIncrementsTheStackPointer := by
  intro s rd imm
  refine ⟨_, exec_pop rd imm s, fun h => ⟨?_, ?_⟩, ?_, fun r hr => ?_, rfl, sameMem_refl s, rfl, sameHost_refl s, rfl, rfl⟩
  · rw [State.reg_setSp, if_neg h, State.reg_setReg_self]
  · rw [State.sp_setSp, State.sp_setReg_ne s h]
  · rintro rfl
    rw [State.sp_setSp]
    exact congrArg (· + 1) (s.reg_setReg_self 14 _)
  · have hrd : rd ≠ r := fun e => hr (by simp [e])
    have hsp : r ≠ 14 := fun e => hr (by simp [e])
    rw [State.reg_setSp, if_neg hsp, State.reg_setReg_ne _ hrd]

/-! Calling. -/

theorem exec_call (rd : Reg) (addr : Word) (s : State) : exec (.call rd addr) s =
    .next ((s.push fun st => st.ip + 1).setIp ((s.push fun st => st.ip + 1).reg rd + addr - 1)) := rfl

theorem exec_calli (addr : Word) (s : State) :
    exec (.calli addr) s = .next ((s.push fun st => st.ip + 1).setIp (addr - 1)) := rfl

/-- What both calls leave, whatever their target: the return address at the decremented SP, and registers 14 and 15
alone written. -/
def ReturnAddressPushed (s t : State) : Prop :=
  t.sp = s.sp - 1 ∧ SameRegsBut s t [14, 15] ∧ WordStored s t (s.sp - 1) (s.ip + 1)

theorem returnAddressPushed_push_setIp (s : State) (target : Word) :
    ReturnAddressPushed s ((s.push fun st => st.ip + 1).setIp target) := by
  refine ⟨?_, fun r hr => ?_, ?_⟩
  · rw [State.sp_setIp, State.sp_push]
  · have hsp : r ≠ 14 := fun e => hr (by simp [e])
    have hip : r ≠ 15 := fun e => hr (by simp [e])
    rw [State.reg_setIp_ne _ hip, State.reg_push, if_neg hsp]
  · have hstored := wordStored_push s fun st => st.ip + 1
    rw [State.ip_setSp] at hstored
    exact hstored

/-- Settles O45: both calls push the return address and then write IP with their own target, less 1. -/
theorem callsPushTheReturnAddress : Obligations.CallsPushTheReturnAddress := by
  intro s rd addr
  constructor
  · obtain ⟨hsp, hregs, hstored⟩ := returnAddressPushed_push_setIp s ((s.push fun st => st.ip + 1).reg rd + addr - 1)
    refine ⟨_, exec_call rd addr s, hsp, ?_, hregs, hstored⟩
    rw [State.ip_setIp, State.reg_push]
  · obtain ⟨hsp, hregs, hstored⟩ := returnAddressPushed_push_setIp s (addr - 1)
    exact ⟨_, exec_calli addr s, hsp, State.ip_setIp _ _, hregs, hstored⟩

theorem returnAddressPushed_of_call {s t : State} {rd : Reg} {addr : Word}
    (h : exec (.calli addr) s = .next t ∨ exec (.call rd addr) s = .next t) : ReturnAddressPushed s t := by
  obtain h | h := h <;> cases h <;> exact returnAddressPushed_push_setIp s _

/-! Round trips. -/

@[simp] theorem State.memRead_tail (t : State) (w : Word) : t.tail.memRead w = t.memRead w := by
  rw [State.memRead_eq, State.tail_mem, State.memRead_eq]

theorem State.reg_tail_ne (t : State) {r : Reg} (h : r ≠ 15) : t.tail.reg r = t.reg r := by
  obtain htail | htail := t.tail_cases <;> rw [htail]
  exact t.reg_setIp_ne h _

@[simp] theorem State.sp_tail (t : State) : t.tail.sp = t.sp := t.reg_tail_ne (by decide)

/-- Settles O44: POP reads the word that PUSH stored, since the tail between them keeps memory and SP. -/
theorem pushThenPopRoundTrips : Obligations.PushThenPopRoundTrips := by
  intro s t u rd rq hrd hrq _ hpush hpop
  obtain ⟨t', ht', hsp, hregs, hread, -⟩ := pushStoresAtTheDecrementedStackPointer s rd 0
  obtain rfl := Host.Outcome.next.inj (ht'.symm.trans hpush)
  obtain ⟨u', hu', hne, -, hregs', -⟩ := popLoadsThenIncrementsTheStackPointer t'.tail rq 0
  obtain rfl := Host.Outcome.next.inj (hu'.symm.trans hpop)
  obtain ⟨hload, hsp'⟩ := hne hrq
  have hspu : u'.sp = s.sp := by
    rw [hsp', State.sp_tail, hsp, BitVec.sub_add_cancel]
  refine ⟨?_, hspu, fun r hr => ?_⟩
  · rw [hload, State.sp_tail, hsp, State.memRead_tail, hread, if_neg hrd, add_zero, add_zero]
  · have hq : r ≠ rq := fun e => hr (by simp [e])
    have hip : r ≠ 15 := fun e => hr (by simp [e])
    by_cases h14 : r = 14
    · rw [h14]
      exact hspu
    · rw [hregs' r (by simp [hq, h14]), State.reg_tail_ne _ hip, hregs r (by simp [h14])]

/-- Settles O47: RET reads the return address that the call stored, since the tail between them keeps memory and SP. -/
theorem callThenReturnComesBack : Obligations.CallThenReturnComesBack := by
  intro s t u rd addr hs hcall hret
  obtain ⟨hsp, hregs, hread, -, -, hresult, -⟩ := returnAddressPushed_of_call hcall
  obtain ⟨u', hu', hip, hsp', hregs', -, -, hresult', -⟩ := returnPopsTheAddressAndDropsArguments t.tail 0
  obtain rfl := Host.Outcome.next.inj (hu'.symm.trans hret)
  have hne : u'.result ≠ .held := by
    rw [hresult', State.tail_result, hresult, hs]
    exact nofun
  have hspu : u'.sp = s.sp := by
    rw [hsp', State.sp_tail, hsp, BitVec.sub_add_cancel, add_zero]
  refine ⟨?_, ?_, fun r hr => ?_⟩
  · rw [State.tail_of_ne_held hne, State.ip_setIp, hip, State.sp_tail, hsp, State.memRead_tail, hread,
      BitVec.sub_add_cancel]
  · rw [State.sp_tail, hspu]
  · have h15 : r ≠ 15 := by simpa using hr
    rw [State.reg_tail_ne _ h15]
    by_cases h14 : r = 14
    · rw [h14]
      exact hspu
    · rw [hregs' r (by simp [h14, h15]), State.reg_tail_ne _ h15, hregs r (by simp [h14, h15])]

end Sys2Proof.Machine

/-!
# SYSCALL's input and output

Each code's statement is the law of its operation at the dispatched branch: `State.emit` for output, and for input a read
of the first supplied value, which is held while there is none (40_system.md; log entries 3 and 4).
-/

namespace Sys2Proof.Machine

/-! The dispatch. -/

theorem syscallCode_readInt : syscallCode (100 : Word).toInt = .readInt := rfl

theorem syscallCode_printInt : syscallCode (102 : Word).toInt = .printInt := rfl

theorem syscallCode_putChar : syscallCode (105 : Word).toInt = .putChar := rfl

theorem syscallCode_getChar : syscallCode (106 : Word).toInt = .getChar := rfl

theorem syscallCode_unknown {code : Int} (h : code ∉ [0, 100, 101, 102, 103, 105, 106]) :
    syscallCode code = .unknown := by
  simp only [List.mem_cons, List.not_mem_nil, or_false, not_or] at h
  obtain ⟨h0, h100, h101, h102, h103, h105, h106⟩ := h
  simp only [syscallCode, h0, h100, h101, h102, h103, h105, h106, if_false]

/-- Settles O54: a code outside the table dispatches to the Warning, which sets the outcome alone. -/
theorem syscallOfUnknownCodeWarns : Obligations.SyscallOfUnknownCodeWarns := by
  intro s rd code h
  refine ⟨s.stop .warning, ?_, onlyResult_stop s _⟩
  rw [exec_syscall, syscallCode_unknown h]
  rfl

/-! Output. -/

theorem exec_printInt (rd : Reg) (s : State) :
    exec (.syscall rd 102) s = .next (s.emit (.printInt (s.reg rd).toInt)) := by
  rw [exec_syscall, syscallCode_printInt]
  rfl

theorem exec_printDouble (s : State) {rd hi : Reg} (h : hi.val = rd.val + 1) :
    exec (.syscall rd 103) s = .next (s.emit (.printDouble (s.reg hi ++ s.reg rd))) := by
  rw [exec_syscall, syscallCode_printDouble.mpr rfl]
  exact congrArg Host.Outcome.next (s.withPair_valid h _)

theorem exec_putChar (rd : Reg) (s : State) :
    exec (.syscall rd 105) s = .next (s.emit (.putChar ((s.reg rd).extractLsb' 0 8))) := by
  rw [exec_syscall, syscallCode_putChar]
  rfl

theorem outputAppended_emit (s : State) (e : HostOutput) : OutputAppended s (s.emit e) e :=
  ⟨rfl, fun _ _ => rfl, rfl, sameMem_refl s, rfl, sameHost_refl s, rfl, rfl⟩

/-- Settles O55: the printing codes are `State.emit` of their value, code 103 after its pair check. -/
theorem syscallOutputIsAppended : Obligations.SyscallOutputIsAppended :=
  ⟨fun s rd => ⟨⟨_, exec_printInt rd s, outputAppended_emit s _⟩, ⟨_, exec_putChar rd s, outputAppended_emit s _⟩⟩,
    fun s _ _ h => ⟨_, exec_printDouble s h, outputAppended_emit s _⟩,
    fun s => ⟨_, exec_syscall_last s (.inr rfl), exceptionTaken_raise s _⟩⟩

/-! Input: the first value of the list, or a hold. -/

theorem exec_readInt (rd : Reg) {s : State} {w : Word} {rest : List Word} (h : s.inInts = w :: rest) :
    exec (.syscall rd 100) s = .next (({ s with inInts := rest } : State).setReg rd w) := by
  rw [exec_syscall, syscallCode_readInt]
  simp only [State.syscall, State.readInt, h]

theorem exec_readInt_hold (rd : Reg) {s : State} (h : s.inInts = []) : exec (.syscall rd 100) s = .next s.hold := by
  rw [exec_syscall, syscallCode_readInt]
  simp only [State.syscall, State.readInt, h]

theorem exec_readDouble {rd hi : Reg} (hp : hi.val = rd.val + 1) {s : State} {v : DWord} {rest : List DWord}
    (h : s.inDoubles = v :: rest) :
    exec (.syscall rd 101) s = .next (({ s with inDoubles := rest } : State).setPair rd hi v) := by
  rw [exec_syscall, syscallCode_readDouble.mpr rfl]
  simp only [State.syscall, State.withPair_valid s hp, State.readDouble, h]

theorem exec_readDouble_hold {rd hi : Reg} (hp : hi.val = rd.val + 1) {s : State} (h : s.inDoubles = []) :
    exec (.syscall rd 101) s = .next s.hold := by
  rw [exec_syscall, syscallCode_readDouble.mpr rfl]
  simp only [State.syscall, State.withPair_valid s hp, State.readDouble, h]

theorem exec_getChar (rd : Reg) {s : State} {w : Word} {rest : List Word} (h : s.inChars = w :: rest) :
    exec (.syscall rd 106) s = .next (({ s with inChars := rest } : State).setReg rd w) := by
  rw [exec_syscall, syscallCode_getChar]
  simp only [State.syscall, State.getChar, h]

theorem exec_getChar_hold (rd : Reg) {s : State} (h : s.inChars = []) : exec (.syscall rd 106) s = .next s.hold := by
  rw [exec_syscall, syscallCode_getChar]
  simp only [State.syscall, State.getChar, h]

/-! What the host supplies to an empty list. -/

theorem State.inInts_supplyInt {s : State} (h : s.inInts = []) (w : Word) : (s.supplyInt w).inInts = [w] := by
  simp [State.supplyInt, h]

theorem State.inDoubles_supplyDouble {s : State} (h : s.inDoubles = []) (v : DWord) :
    (s.supplyDouble v).inDoubles = [v] := by
  simp [State.supplyDouble, h]

theorem State.inChars_supplyByte {s : State} (h : s.inChars = []) (b : Byte) (high : Word) :
    (s.supplyByte b high).inChars = [charWord b high] := by
  simp [State.supplyByte, h]

theorem charWord_of_lt {b : Byte} (h : b.toNat < 0x80) (high : Word) : (charWord b high).toNat = b.toNat := by
  rw [charWord, if_pos h, BitVec.toNat_setWidth]
  omega

theorem charWord_of_le {b : Byte} (h : 0x80 ≤ b.toNat) (high : Word) : charWord b high = high :=
  if_neg (not_lt.mpr h)

/-- Settles O56: a reading code is a write of the first supplied value; restoring the list leaves that write alone. -/
theorem syscallInputIsTaken : Obligations.SyscallInputIsTaken := by
  refine ⟨fun s rd w rest => ⟨fun h => ?_, fun h => ?_⟩, fun s rd hi v rest hp h => ?_, fun s rd b high h => ?_,
    fun s => ⟨_, exec_syscall_last s (.inl rfl), exceptionTaken_raise s _⟩⟩
  · exact ⟨_, exec_readInt rd h, rfl, regWritten_setReg s rd w⟩
  · exact ⟨_, exec_getChar rd h, rfl, regWritten_setReg s rd w⟩
  · exact ⟨_, exec_readDouble hp h, rfl, pairWritten_setPair s hp v⟩
  · refine ⟨_, exec_getChar rd (State.inChars_supplyByte h b high), rfl, fun hlt => ?_, fun hle => ?_⟩
    · rw [State.reg_setReg_self, charWord_of_lt hlt]
    · rw [State.reg_setReg_self, charWord_of_le hle]

/-! Holding (00_scope.md R8). -/

/-- A held state steps as the state it was held in. -/
theorem step_hold {s : State} (hr : Runs s) : step s.hold = step s := by
  have hheld : Runs s.hold := ⟨rfl, hr.2⟩
  rw [← step_begin hheld, ← step_begin hr]
  rfl

theorem run_of_step_self {t : State} (h : step t = .next t) (k : Nat) : run k t = t := by
  induction k with
  | zero => rfl
  | succ k ih => rw [run_succ_of_next h, ih]

/-- A step whose instruction is held is held, and what the host supplies meanwhile acts as if supplied before. -/
theorem heldStep_of_exec_hold {s : State} {i : Instr} (hr : Runs s)
    (hd : decodeWith s.cfg.opcodeMap (s.memRead s.ip) = .ok i) (he : exec i s.begin = .next s.begin.hold) :
    HeldStep s := by
  have hstep : step s = .next s.hold := by
    rw [step_of_decode hr hd he, State.tail_of_held rfl]
    rfl
  have hself : step s.hold = .next s.hold := (step_hold hr).trans hstep
  exact ⟨_, hstep, onlyResult_stop s _, ⟨rfl, hr.2⟩, run_of_step_self hself,
    fun w => step_hold (s := s.supplyInt w) hr, fun v => step_hold (s := s.supplyDouble v) hr,
    fun b high => step_hold (s := s.supplyByte b high) hr⟩

/-- Settles O57: with an empty list the code holds; with one value supplied it reads that value and leaves the list
empty. -/
theorem blockingReadsAreHeldUntilInput : Obligations.BlockingReadsAreHeldUntilInput := by
  intro s rd hr
  refine ⟨fun hd h => ⟨heldStep_of_exec_hold hr hd (exec_readInt_hold rd h), fun w => ?_⟩, fun hd hrd h => ?_,
    fun hd h => ⟨heldStep_of_exec_hold hr hd (exec_getChar_hold rd h), fun b high => ?_⟩⟩
  · have he := exec_readInt rd (s := (s.supplyInt w).begin) (State.inInts_supplyInt h w)
    exact ⟨_, step_of_decode (s := s.supplyInt w) hr hd he, State.tail_result _, State.tail_inInts _⟩
  · obtain ⟨hi, hp⟩ : ∃ hi : Reg, hi.val = rd.val + 1 := by
      obtain ⟨hi, hhi⟩ := Option.ne_none_iff_exists'.mp (mt pairHigh_eq_none.mp hrd)
      exact ⟨hi, pairHigh_eq_some.mp hhi⟩
    refine ⟨heldStep_of_exec_hold hr hd (exec_readDouble_hold hp h), fun v => ?_⟩
    have he := exec_readDouble hp (s := (s.supplyDouble v).begin) (State.inDoubles_supplyDouble h v)
    exact ⟨_, step_of_decode (s := s.supplyDouble v) hr hd he, State.tail_result _, State.tail_inDoubles _⟩
  · have he := exec_getChar rd (s := (s.supplyByte b high).begin) (State.inChars_supplyByte h b high)
    exact ⟨_, step_of_decode (s := s.supplyByte b high) hr hd he, State.tail_result _, State.tail_inChars _⟩

end Sys2Proof.Machine

/-!
# Assembled states

What `assembledState` and `partialState` hold is said for any list of words that fits memory; that the words of the two
passes fit, whether assembling succeeds or fails, is carried through the first pass by `Assembly.Extends` and through the
second by `Assembly.Resolved`.
-/

namespace Sys2Proof.Machine

/-! The states (70_reset_and_hazards.md R375). -/

theorem readWord_ofBytes_flatMap (words : List Word) (i : Nat) :
    Memory.readWord (Memory.ofBytes 0 (words.flatMap bytesOfWord)) i = words.getD i 0 := by
  have hbyte : ∀ k < 4, Memory.readByte (Memory.ofBytes 0 (words.flatMap bytesOfWord)) (4 * i + k) =
      byteOfWord (words.getD i 0) k := fun k hk => by
    rw [← flatMap_bytesOfWord_getD words i hk, ← Memory.readByte_ofBytes 0, Nat.zero_add]
  rw [Memory.readWord, ← Nat.add_zero (4 * i), hbyte 0 (by decide), Nat.add_zero, hbyte 1 (by decide),
    hbyte 2 (by decide), hbyte 3 (by decide), wordOfBytes_byteOfWord]

theorem partialState_readWord (cfg : Params) (words : List Word) (entry : Word) (i : Nat) :
    Memory.readWord (partialState cfg words entry).mem i = words.getD i 0 :=
  readWord_ofBytes_flatMap words i

/-- Words that fit memory are laid out in canonical form. -/
theorem canonicalMemory_partialState (cfg : Params) {words : List Word} (h : words.length ≤ Config.memWords)
    (entry : Word) : CanonicalMemory (partialState cfg words entry) := by
  refine Memory.wf_ofBytes 0 _ ?_
  rw [length_flatMap_bytesOfWord]
  unfold Config.memBytes
  unfold Config.memWords at h
  omega

theorem partialState_sp (cfg : Params) (words : List Word) (entry : Word) : (partialState cfg words entry).sp = 0 :=
  partialState_reg cfg words entry (by decide)

theorem assembledState_sp (cfg : Params) (words : List Word) (entry : Word) :
    (assembledState cfg words entry).sp = 0xFFFFF :=
  State.sp_setSp _ _

theorem assembledState_ip (cfg : Params) (words : List Word) (entry : Word) :
    (assembledState cfg words entry).ip = entry :=
  (State.ip_setSp _ _).trans (partialState_ip cfg words entry)

/-- An assembled state is the state of the partial writes in every register but SP. -/
theorem assembledState_reg (cfg : Params) (words : List Word) (entry : Word) {r : Reg} (h : r ≠ 14) :
    (assembledState cfg words entry).reg r = (partialState cfg words entry).reg r :=
  (State.reg_setSp _ _ _).trans (if_neg h)

theorem assembledState_reg_zero (cfg : Params) (words : List Word) (entry : Word) {r : Reg} (hsp : r ≠ 14)
    (hip : r ≠ 15) : (assembledState cfg words entry).reg r = 0 := by
  rw [assembledState_reg cfg words entry hsp, partialState_reg cfg words entry hip]

/-- Settles O59: the words by their bytes in memory, the registers by the two writes of IP and SP. -/
theorem assembledStateIsLaidOut : Obligations.AssembledStateIsLaidOut := by
  intro cfg words entry
  refine ⟨assembledState_ip cfg words entry, assembledState_sp cfg words entry,
    fun r hsp hip => assembledState_reg_zero cfg words entry hsp hip, rfl, partialState_readWord cfg words entry,
    partialState_sp cfg words entry, fun r hr => ?_, rfl, sameMem_refl _, rfl, sameHost_refl _, rfl, rfl⟩
  exact (assembledState_reg cfg words entry (by simpa using hr)).symm

/-! The first pass. -/

theorem Assembly.items_nil (a : Assembly) (fuel : Nat) : a.items fuel [] = .ok a := by
  cases fuel <;> rfl

theorem Assembly.items_cons_of_ok {a b : Assembly} {t : Token} {rest rest' : List Token}
    (h : a.item t rest = .ok (b, rest')) (fuel : Nat) : a.items (fuel + 1) (t :: rest) = b.items fuel rest' := by
  simp only [Assembly.items, h]

theorem Assembly.items_cons_of_error {a : Assembly} {t : Token} {rest : List Token} {r : AssemblyReason}
    (h : a.item t rest = .error r) (fuel : Nat) :
    a.items (fuel + 1) (t :: rest) = .error (a.failure r a.words.length) := by
  simp only [Assembly.items, h]

/-- A first pass that fails fails at what the items before the failing one made, and keeps it. -/
theorem Assembly.items_error {a : Assembly} {fuel : Nat} {tokens : List Token} {e : AssemblyError}
    (h : a.items fuel tokens = .error e) :
    ∃ (b : Assembly) (r : AssemblyReason), a.Extends b ∧ e = b.failure r b.words.length := by
  induction fuel generalizing a tokens with
  | zero => cases tokens <;> cases h
  | succ fuel ih =>
    cases tokens with
    | nil => cases h
    | cons t rest =>
      cases hi : a.item t rest with
      | error r =>
        rw [Assembly.items_cons_of_error hi] at h
        cases h
        exact ⟨a, r, .rfl' a, rfl⟩
      | ok p =>
        obtain ⟨b, rest'⟩ := p
        rw [Assembly.items_cons_of_ok hi] at h
        obtain ⟨c, r, hbc, he⟩ := ih h
        exact ⟨c, r, (Assembly.item_extends hi).trans hbc, he⟩

/-! The second pass. -/

/-- The second pass that fails resolves every use before the failing one, and keeps that. -/
theorem Assembly.patch_error {a : Assembly} {uses : List LabelUse} {e : AssemblyError} (h : a.patch uses = .error e) :
    ∃ before u after words, uses = before ++ u :: after ∧ a.Resolved before words ∧ a.Unresolvable u ∧
      e.target = partialState a.cfg words a.entry ∧ e.wordAddress = u.address + 1 := by
  induction uses generalizing a with
  | nil => cases h
  | cons u us ih =>
    unfold Assembly.patch at h
    split at h
    next hnone =>
      cases h
      refine ⟨[], u, us, a.words, rfl, .none a, fun v hv => ?_, rfl, rfl⟩
      rw [hnone] at hv
      cases hv
    next v hsome =>
      split at h
      next hfit =>
        obtain ⟨before, w, after, words, rfl, hres, hun, htarget, haddr⟩ := ih h
        exact ⟨u :: before, w, after, words, rfl, hres.cons hsome hfit, hun, htarget, haddr⟩
      next hlarge =>
        cases h
        refine ⟨[], u, us, a.words, rfl, .none a, fun v' hv => ?_, rfl, rfl⟩
        rw [hsome] at hv
        cases hv
        exact not_lt.mp hlarge

/-! Both passes. -/

theorem empty_fits (cfg : Params) : (Assembly.empty cfg).words.length ≤ Config.memWords := Nat.zero_le _

/-- Assembling a text is the first pass, then the second on its label uses. -/
theorem assemble_ok {cfg : Params} {source : List Char} {s : State} (h : assemble cfg source = .ok s) :
    ∃ a b, (Assembly.empty cfg).items (tokenize false [] source).length (tokenize false [] source) = .ok a ∧
      a.patch a.uses = .ok b ∧ s = assembledState cfg b.words b.entry := by
  obtain ⟨a, ha, h⟩ := Except.ok_of_bind h
  obtain ⟨b, hb, h⟩ := Except.ok_of_bind h
  exact ⟨a, b, ha, hb, (Except.ok.inj h).symm⟩

/-- A text that fails does so in one of the passes. -/
theorem assemble_error {cfg : Params} {source : List Char} {e : AssemblyError} (h : assemble cfg source = .error e) :
    (Assembly.empty cfg).items (tokenize false [] source).length (tokenize false [] source) = .error e ∨
      ∃ a, (Assembly.empty cfg).items (tokenize false [] source).length (tokenize false [] source) = .ok a ∧
        a.patch a.uses = .error e := by
  simp only [assemble] at h
  cases ha : (Assembly.empty cfg).items (tokenize false [] source).length (tokenize false [] source) with
  | error e' =>
    rw [ha] at h
    exact .inl (congrArg Except.error (Except.error.inj h))
  | ok a =>
    rw [ha] at h
    refine .inr ⟨a, rfl, ?_⟩
    cases hb : a.patch a.uses with
    | error e' =>
      simp only [bind, Except.bind, hb] at h
      exact congrArg Except.error (Except.error.inj h)
    | ok b =>
      simp only [bind, Except.bind, hb] at h
      cases h

/-- The state a failed assembly leaves is the partial state of words that fit memory. -/
theorem assemble_error_target {cfg : Params} {source : List Char} {e : AssemblyError}
    (h : assemble cfg source = .error e) : ∃ words entry, words.length ≤ Config.memWords ∧
      e.target = partialState cfg words entry ∧ 1 ≤ e.wordAddress := by
  obtain h | ⟨a, ha, h⟩ := assemble_error h
  · obtain ⟨b, r, hb, rfl⟩ := Assembly.items_error h
    exact ⟨b.words, b.entry, hb.fits (empty_fits cfg), congrArg (partialState · b.words b.entry) hb.cfg,
      Nat.le_add_left 1 _⟩
  · have hfits := Assembly.items_extends ha
    obtain ⟨before, u, after, words, -, hres, -, htarget, haddr⟩ := Assembly.patch_error h
    refine ⟨words, a.entry, ?_, ?_, ?_⟩
    · rw [hres.length]
      exact hfits.fits (empty_fits cfg)
    · rw [htarget, hfits.cfg]
      rfl
    · rw [haddr]
      exact Nat.le_add_left 1 _

/-- Settles O60: the launch states by their layout, the passes by one item and one label use at a time. -/
theorem assembledTextsLaunch : Obligations.AssembledTextsLaunch := by
  refine ⟨fun cfg source s h => ?_, fun cfg source e h => ?_, fun a fuel tokens e h => ?_, Assembly.items_nil,
    fun a fuel t rest r h => Assembly.items_cons_of_error h fuel, fun a b fuel t rest rest' h => ?_,
    fun a uses e h => Assembly.patch_error h, fun a b uses h => Assembly.patch_ok h⟩
  · obtain ⟨a, b, ha, hb, rfl⟩ := assemble_ok h
    obtain ⟨hres, -, hentry⟩ := Assembly.patch_ok hb
    have hfits : b.words.length ≤ Config.memWords := by
      rw [hres.length]
      exact (Assembly.items_extends ha).fits (empty_fits cfg)
    rw [hentry]
    exact ⟨rfl, rfl, canonicalMemory_partialState cfg hfits a.entry, assembledState_sp cfg _ _, rfl,
      fun r hsp hip => assembledState_reg_zero cfg _ _ hsp hip, a, b, ha, hb, rfl, assembledState_ip cfg _ _,
      partialState_readWord cfg b.words a.entry⟩
  · obtain ⟨words, entry, hfits, htarget, haddr⟩ := assemble_error_target h
    rw [htarget]
    exact ⟨rfl, rfl, canonicalMemory_partialState cfg hfits entry, partialState_sp cfg words entry, rfl,
      fun r _ hip => partialState_reg cfg words entry hip, haddr, assemble_error h⟩
  · obtain ⟨b, r, hb, rfl⟩ := Assembly.items_error h
    exact ⟨b.words, b.entry, hb.words, congrArg (partialState · b.words b.entry) hb.cfg, rfl⟩
  · have hext := Assembly.item_extends h
    obtain ⟨hwords, htokens⟩ := Assembly.item_bounds h
    exact ⟨hext.words, hwords, hext.cfg, htokens, Assembly.items_cons_of_ok h fuel⟩

end Sys2Proof.Machine

/-!
# Doubles

Every double is finite, an infinity or a NaN (44_float.md R220, R223). What the operations give is read off their
branches; that a rounded result is the nearest double is carried from magnitudes to signed values by one fact on
distances: taking absolute values never increases a distance, and keeps it where the signs agree.
-/

namespace Sys2Proof.Machine

/-! Kinds of doubles. -/

theorem not_isNaN_of_finiteDouble {a : DWord} (h : FiniteDouble a) : Fp.isNaN a = false := by
  rw [← Bool.not_eq_true, Fp.isNaN_iff]
  rw [finiteDouble_iff] at h
  omega

theorem not_isInf_of_finiteDouble {a : DWord} (h : FiniteDouble a) : Fp.isInf a = false := by
  rw [← Bool.not_eq_true, Fp.isInf_iff]
  rw [finiteDouble_iff] at h
  omega

theorem not_isNaN_of_isInf {a : DWord} (h : Fp.isInf a = true) : Fp.isNaN a = false := by
  rw [← Bool.not_eq_true, Fp.isNaN_iff]
  rw [Fp.isInf_iff] at h
  omega

theorem not_isZero_of_isInf {a : DWord} (h : Fp.isInf a = true) : Fp.isZero a = false := by
  rw [← Bool.not_eq_true, Fp.isZero_iff]
  rw [Fp.isInf_iff] at h
  unfold Fp.infBits at h
  omega

theorem isInf_of_not_finiteDouble {a : DWord} (h : ¬ FiniteDouble a) (hn : Fp.isNaN a = false) :
    Fp.isInf a = true := by
  rw [finiteDouble_iff] at h
  rw [← Bool.not_eq_true, Fp.isNaN_iff] at hn
  rw [Fp.isInf_iff]
  omega

/-! Packed doubles. -/

theorem lt_two_pow_of_le_infBits {b : Nat} (h : b ≤ Fp.infBits) : b < 2 ^ 63 := by
  unfold Fp.infBits at h
  omega

theorem not_isNaN_pack (s : Bool) {b : Nat} (h : b ≤ Fp.infBits) : Fp.isNaN (Fp.pack s b) = false := by
  rw [← Bool.not_eq_true, Fp.isNaN_iff, Fp.low63_pack s b (lt_two_pow_of_le_infBits h)]
  omega

theorem isInf_pack_infBits (s : Bool) : Fp.isInf (Fp.pack s Fp.infBits) = true := by
  rw [Fp.isInf_iff, Fp.low63_pack s _ (lt_two_pow_of_le_infBits le_rfl)]

theorem isZero_pack_zero (s : Bool) : Fp.isZero (Fp.pack s 0) = true := by
  rw [Fp.isZero_iff, Fp.low63_pack s 0 (by decide)]

theorem finiteDouble_pack_iff (s : Bool) {b : Nat} (h : b ≤ Fp.infBits) :
    FiniteDouble (Fp.pack s b) ↔ b < Fp.infBits := by
  rw [finiteDouble_iff, Fp.low63_pack s b (lt_two_pow_of_le_infBits h)]

theorem not_isNaN_round (s : Bool) (n d : Nat) : Fp.isNaN (Fp.round s n d) = false :=
  not_isNaN_pack s (Fp.roundBits_le n d)

theorem sign_round (s : Bool) (n d : Nat) : Fp.sign (Fp.round s n d) = s := Fp.sign_pack s _

theorem mag_round (s : Bool) (n d : Nat) : Fp.mag (Fp.round s n d) = Fp.magOfBits (Fp.roundBits n d) :=
  Fp.mag_pack s _ (lt_two_pow_of_le_infBits (Fp.roundBits_le n d))

/-- Two infinities of one sign are the same double. -/
theorem eq_of_isInf {a b : DWord} (ha : Fp.isInf a = true) (hb : Fp.isInf b = true) (hs : Fp.sign a = Fp.sign b) :
    a = b := by
  rw [Fp.isInf_iff] at ha hb
  have hlow : a.toNat % 2 ^ 63 = b.toNat % 2 ^ 63 := by
    rw [BitVec.extractLsb'_toNat] at ha hb
    exact ha.trans hb.symm
  have hhigh : decide (2 ^ 63 ≤ a.toNat) = decide (2 ^ 63 ≤ b.toNat) := by
    unfold Fp.sign at hs
    rwa [BitVec.msb_eq_decide, BitVec.msb_eq_decide] at hs
  have hbound := And.intro a.isLt b.isLt
  apply BitVec.eq_of_toNat_eq
  rw [decide_eq_decide] at hhigh
  omega

/-! The operations, branch by branch: where they give a NaN, and every other result they can give. -/

theorem add_eq_none_iff (a b : DWord) : Fp.add a b = none ↔ Fp.isNaN a = true ∨ Fp.isNaN b = true ∨
    Fp.isInf a = true ∧ Fp.isInf b = true ∧ Fp.sign a ≠ Fp.sign b := by
  fun_cases Fp.add a b <;> grind

theorem sub_eq_none_iff (a b : DWord) : Fp.sub a b = none ↔ Fp.isNaN a = true ∨ Fp.isNaN b = true ∨
    Fp.isInf a = true ∧ Fp.isInf b = true ∧ Fp.sign a = Fp.sign b := by
  rw [Fp.sub, add_eq_none_iff, Fp.isNaN_neg, Fp.isInf_neg, Fp.sign_neg, ne_eq, Bool.eq_not, not_not]

theorem mul_eq_none_iff (a b : DWord) : Fp.mul a b = none ↔ Fp.isNaN a = true ∨ Fp.isNaN b = true ∨
    Fp.isInf a = true ∧ Fp.isZero b = true ∨ Fp.isZero a = true ∧ Fp.isInf b = true := by
  have hinf : ∀ x, Fp.isInf x = true → Fp.isZero x = false := fun _ => not_isZero_of_isInf
  fun_cases Fp.mul a b <;> grind

theorem div_eq_none_iff (a b : DWord) : Fp.div a b = none ↔ Fp.isNaN a = true ∨ Fp.isNaN b = true ∨
    Fp.isInf a = true ∧ Fp.isInf b = true ∨ Fp.isZero a = true ∧ Fp.isZero b = true := by
  have hinf : ∀ x, Fp.isInf x = true → Fp.isZero x = false := fun _ => not_isZero_of_isInf
  fun_cases Fp.div a b <;> grind

/-- The results of a sum: an infinity of the operands, an exact zero, or the rounded sum. -/
inductive AddResult (a b : DWord) : DWord → Prop
  | infLeft : Fp.isInf a = true → (Fp.isInf b = true → Fp.sign a = Fp.sign b) → AddResult a b a
  | infRight : FiniteDouble a → Fp.isInf b = true → AddResult a b b
  | zero : FiniteDouble a → FiniteDouble b → Fp.value a + Fp.value b = 0 →
      AddResult a b (Fp.pack (Fp.sign a && Fp.sign b) 0)
  | rounded : FiniteDouble a → FiniteDouble b → Fp.value a + Fp.value b ≠ 0 →
      AddResult a b (Fp.round (decide (Fp.value a + Fp.value b < 0)) (Fp.value a + Fp.value b).natAbs 1)

/-- The results of a product: an infinity, or the rounded product. -/
inductive MulResult (a b : DWord) : DWord → Prop
  | inf : Fp.isInf a = true ∨ Fp.isInf b = true → MulResult a b (Fp.pack (Fp.sign a != Fp.sign b) Fp.infBits)
  | rounded : FiniteDouble a → FiniteDouble b →
      MulResult a b (Fp.round (Fp.sign a != Fp.sign b) (Fp.mag a * Fp.mag b) Fp.one)

/-- The results of a quotient: an infinity of an infinity or by a zero, a zero by an infinity, or the rounded quotient. -/
inductive DivResult (a b : DWord) : DWord → Prop
  | infLeft : Fp.isInf a = true → DivResult a b (Fp.pack (Fp.sign a != Fp.sign b) Fp.infBits)
  | infRight : FiniteDouble a → Fp.isInf b = true → DivResult a b (Fp.pack (Fp.sign a != Fp.sign b) 0)
  | byZero : FiniteDouble a → Fp.isZero b = true → DivResult a b (Fp.pack (Fp.sign a != Fp.sign b) Fp.infBits)
  | rounded : FiniteDouble a → FiniteDouble b → Fp.isZero b = false →
      DivResult a b (Fp.round (Fp.sign a != Fp.sign b) (Fp.mag a * Fp.one) (Fp.mag b))

theorem finiteDouble_of_not_nan_inf {a b : DWord} (hn : ¬ (Fp.isNaN a || Fp.isNaN b) = true) :
    (¬ Fp.isInf a = true → FiniteDouble a) ∧ (¬ Fp.isInf b = true → FiniteDouble b) := by
  rw [Bool.or_eq_true, not_or, Bool.not_eq_true, Bool.not_eq_true] at hn
  exact ⟨fun hi => by_contra fun hf => hi (isInf_of_not_finiteDouble hf hn.1),
    fun hi => by_contra fun hf => hi (isInf_of_not_finiteDouble hf hn.2)⟩

theorem addResult_of_add {a b r : DWord} (h : Fp.add a b = some r) : AddResult a b r := by
  revert h
  fun_cases Fp.add a b <;> intro h <;> cases h
  case case3 hn ha hb => exact .infLeft ha (by simpa using hb)
  case case4 hn ha hb => exact .infRight ((finiteDouble_of_not_nan_inf hn).1 ha) hb
  case case5 hn ha hb v hv => exact .zero ((finiteDouble_of_not_nan_inf hn).1 ha) ((finiteDouble_of_not_nan_inf hn).2 hb) hv
  case case6 hn ha hb v hv => exact .rounded ((finiteDouble_of_not_nan_inf hn).1 ha) ((finiteDouble_of_not_nan_inf hn).2 hb) hv

theorem mulResult_of_mul {a b r : DWord} (h : Fp.mul a b = some r) : MulResult a b r := by
  revert h
  fun_cases Fp.mul a b <;> intro h <;> cases h
  case case3 hn hi hz => exact .inf (by simpa using hi)
  case case4 hn hi =>
    rw [Bool.or_eq_true, not_or] at hi
    exact .rounded ((finiteDouble_of_not_nan_inf hn).1 hi.1) ((finiteDouble_of_not_nan_inf hn).2 hi.2)

theorem divResult_of_div {a b r : DWord} (h : Fp.div a b = some r) : DivResult a b r := by
  revert h
  fun_cases Fp.div a b <;> intro h <;> cases h
  case case3 hn ha hb => exact .infLeft ha
  case case4 hn ha hb => exact .infRight ((finiteDouble_of_not_nan_inf hn).1 ha) hb
  case case6 hn ha hb hzb hza => exact .byZero ((finiteDouble_of_not_nan_inf hn).1 ha) hzb
  case case7 hn ha hb hzb =>
    exact .rounded ((finiteDouble_of_not_nan_inf hn).1 ha) ((finiteDouble_of_not_nan_inf hn).2 hb) (by simpa using hzb)

theorem not_isNaN_of_add {a b r : DWord} (h : Fp.add a b = some r) : Fp.isNaN r = false := by
  cases addResult_of_add h with
  | infLeft ha => exact not_isNaN_of_isInf ha
  | infRight _ hb => exact not_isNaN_of_isInf hb
  | zero => exact not_isNaN_pack _ (Nat.zero_le _)
  | rounded => exact not_isNaN_round _ _ _

theorem not_isNaN_of_mul {a b r : DWord} (h : Fp.mul a b = some r) : Fp.isNaN r = false := by
  cases mulResult_of_mul h with
  | inf => exact not_isNaN_pack _ le_rfl
  | rounded => exact not_isNaN_round _ _ _

theorem not_isNaN_of_div {a b r : DWord} (h : Fp.div a b = some r) : Fp.isNaN r = false := by
  cases divResult_of_div h with
  | infLeft | byZero => exact not_isNaN_pack _ le_rfl
  | infRight => exact not_isNaN_pack _ (Nat.zero_le _)
  | rounded => exact not_isNaN_round _ _ _

/-- Settles O34: each operation's branches that give no result are the invalid cases, and no other branch gives a NaN. -/
theorem naNsComeFromInvalidOperations : Obligations.NaNsComeFromInvalidOperations := by
  intro op a b
  cases op with
  | addd => exact ⟨add_eq_none_iff a b, fun _ => not_isNaN_of_add⟩
  | subd => exact ⟨sub_eq_none_iff a b, fun _ => not_isNaN_of_add⟩
  | muld => exact ⟨mul_eq_none_iff a b, fun _ => not_isNaN_of_mul⟩
  | divd => exact ⟨div_eq_none_iff a b, fun _ => not_isNaN_of_div⟩

/-! Signs (R222). -/

theorem isInf_ne_true_of_finiteDouble {a : DWord} (h : FiniteDouble a) : ¬ Fp.isInf a = true := by
  rw [not_isInf_of_finiteDouble h]
  exact nofun

theorem sign_of_mul {a b r : DWord} (h : Fp.mul a b = some r) : Fp.sign r = (Fp.sign a != Fp.sign b) := by
  cases mulResult_of_mul h with
  | inf | rounded => exact Fp.sign_pack _ _

theorem sign_of_div {a b r : DWord} (h : Fp.div a b = some r) : Fp.sign r = (Fp.sign a != Fp.sign b) := by
  cases divResult_of_div h with
  | infLeft | infRight | byZero | rounded => exact Fp.sign_pack _ _

theorem isInf_of_mul {a b r : DWord} (h : Fp.mul a b = some r) (hi : Fp.isInf a = true ∨ Fp.isInf b = true) :
    Fp.isInf r = true := by
  cases mulResult_of_mul h with
  | inf => exact isInf_pack_infBits _
  | rounded ha hb => exact absurd hi (not_or.mpr ⟨isInf_ne_true_of_finiteDouble ha, isInf_ne_true_of_finiteDouble hb⟩)

theorem isInf_of_div {a b r : DWord} (h : Fp.div a b = some r) (hi : Fp.isZero b = true ∨ Fp.isInf a = true) :
    Fp.isInf r = true := by
  cases divResult_of_div h with
  | infLeft | byZero => exact isInf_pack_infBits _
  | infRight ha hb =>
    have hz := not_isZero_of_isInf hb
    exact absurd hi (not_or.mpr ⟨by simp [hz], isInf_ne_true_of_finiteDouble ha⟩)
  | rounded ha _ hz => exact absurd hi (not_or.mpr ⟨by simp [hz], isInf_ne_true_of_finiteDouble ha⟩)

theorem isZero_of_div {a b r : DWord} (h : Fp.div a b = some r) (ha : FiniteDouble a) (hb : Fp.isInf b = true) :
    Fp.isZero r = true := by
  cases divResult_of_div h with
  | infLeft hi => exact absurd hi (isInf_ne_true_of_finiteDouble ha)
  | infRight => exact isZero_pack_zero _
  | byZero _ hz => exact absurd hz (by simp [not_isZero_of_isInf hb])
  | rounded _ hf => exact absurd hb (isInf_ne_true_of_finiteDouble hf)

theorem zero_of_add {a b r : DWord} (h : Fp.add a b = some r) (ha : FiniteDouble a) (hb : FiniteDouble b)
    (hv : Fp.value a + Fp.value b = 0) :
    Fp.isZero r = true ∧ (Fp.sign r = true ↔ Fp.sign a = true ∧ Fp.sign b = true) := by
  cases addResult_of_add h with
  | infLeft hi => exact absurd hi (isInf_ne_true_of_finiteDouble ha)
  | infRight _ hi => exact absurd hi (isInf_ne_true_of_finiteDouble hb)
  | zero => exact ⟨isZero_pack_zero _, by rw [Fp.sign_pack, Bool.and_eq_true]⟩
  | rounded _ _ hne => exact absurd hv hne

theorem eq_left_of_add {a b r : DWord} (h : Fp.add a b = some r) (hi : Fp.isInf a = true) : r = a := by
  cases addResult_of_add h with
  | infLeft => rfl
  | infRight ha | zero ha | rounded ha => exact absurd hi (isInf_ne_true_of_finiteDouble ha)

theorem eq_right_of_add {a b r : DWord} (h : Fp.add a b = some r) (hi : Fp.isInf b = true) : r = b := by
  cases addResult_of_add h with
  | infLeft ha hs => exact eq_of_isInf ha hi (hs hi)
  | infRight => rfl
  | zero _ hb | rounded _ hb => exact absurd hi (isInf_ne_true_of_finiteDouble hb)

/-- A difference is the sum with the other sign on the right, so its zero has the sign of `a` where `b` has the other. -/
theorem zero_of_sub {a b r : DWord} (h : Fp.sub a b = some r) (ha : FiniteDouble a) (hb : FiniteDouble b)
    (hv : Fp.value a - Fp.value b = 0) :
    Fp.isZero r = true ∧ (Fp.sign r = true ↔ Fp.sign a = true ∧ Fp.sign b = false) := by
  have hzero := zero_of_add h ha ((finiteDouble_neg b).mpr hb) (by rwa [Fp.value_neg, ← sub_eq_add_neg])
  rwa [Fp.sign_neg, Bool.not_eq_true'] at hzero

theorem right_of_sub {a b r : DWord} (h : Fp.sub a b = some r) (hi : Fp.isInf b = true) :
    Fp.isInf r = true ∧ Fp.sign r = !Fp.sign b := by
  have hneg : Fp.isInf (Fp.neg b) = true := by rwa [Fp.isInf_neg]
  rw [eq_right_of_add h hneg]
  exact ⟨hneg, Fp.sign_neg b⟩

/-- Settles O35: by the branches of each operation; a difference is a sum. -/
theorem zerosAndInfinitiesHaveIeeeSigns : Obligations.ZerosAndInfinitiesHaveIeeeSigns :=
  fun _ _ _ => ⟨sign_of_mul, sign_of_div, isInf_of_div, isZero_of_div, zero_of_add, eq_left_of_add, eq_right_of_add,
    zero_of_sub, eq_left_of_add, right_of_sub, isInf_of_mul⟩

end Sys2Proof.Machine

/-!
# Double instructions: rounding and conversion

A rounded result is nearest among magnitudes by the laws of rounding; signed distances follow because taking absolute
values never increases a distance, and keeps it where the signs agree. ITOD is exact because the integer's own double is
at distance 0; DTOI is division by 1.0 toward zero.
-/

namespace Sys2Proof.Machine

/-! The instructions on valid pairs. -/

theorem State.fpBinary_of_some (s : State) {op : FpOp} {rd dhi rs shi : Reg} (hd : dhi.val = rd.val + 1)
    (hs : shi.val = rs.val + 1) {r : DWord} (h : Fp.eval op (s.reg dhi ++ s.reg rd) (s.reg shi ++ s.reg rs) = some r) :
    s.fpBinary op rd rs = s.setPair rd dhi r := by
  simp only [State.fpBinary, State.withPair_valid s hd, State.withPair_valid s hs, State.pair, h]

theorem State.fpBinary_of_none (s : State) {op : FpOp} {rd dhi rs shi : Reg} (hd : dhi.val = rd.val + 1)
    (hs : shi.val = rs.val + 1) (h : Fp.eval op (s.reg dhi ++ s.reg rd) (s.reg shi ++ s.reg rs) = none) :
    ∃ nan, Fp.isNaN nan = true ∧ s.fpBinary op rd rs = s.nextDraw.setPair rd dhi nan := by
  refine ⟨Fp.asNaN (Config.fpNan s.draws op (s.reg dhi ++ s.reg rd) (s.reg shi ++ s.reg rs)), Fp.isNaN_asNaN _, ?_⟩
  simp only [State.fpBinary, State.withPair_valid s hd, State.withPair_valid s hs, State.pair, h]

theorem fpResultWritten_fpBinary (s : State) (op : FpOp) {rd dhi rs shi : Reg} (hd : dhi.val = rd.val + 1)
    (hs : shi.val = rs.val + 1) : FpResultWritten op s (s.fpBinary op rd rs) rd dhi rs shi := by
  constructor
  · intro r h
    rw [State.fpBinary_of_some s hd hs h]
    exact pairWritten_setPair s hd r
  · intro h
    obtain ⟨nan, hnan, heq⟩ := State.fpBinary_of_none s hd hs h
    rw [heq]
    exact ⟨nan, hnan, drawPairWritten_setPair s hd nan⟩

/-- Settles O31: the four instructions are `State.fpBinary` of their operation. -/
theorem doubleOperationsWriteOnePair : Obligations.DoubleOperationsWriteOnePair :=
  fun s rd _ rs _ hd hs =>
    ⟨⟨_, exec_addd rd rs s, fpResultWritten_fpBinary s _ hd hs⟩,
      ⟨_, exec_subd rd rs s, fpResultWritten_fpBinary s _ hd hs⟩,
      ⟨_, exec_muld rd rs s, fpResultWritten_fpBinary s _ hd hs⟩,
      ⟨_, exec_divd rd rs s, fpResultWritten_fpBinary s _ hd hs⟩⟩

/-! Distances of integers. -/

/-- Taking absolute values never increases a distance. -/
theorem natAbs_natAbs_sub_natAbs_le (x y : Int) : ((x.natAbs : Int) - y.natAbs).natAbs ≤ (x - y).natAbs := by
  omega

/-- The two values are not of opposite signs. -/
def SameSign (x y : Int) : Prop := x = 0 ∨ y = 0 ∨ (x < 0 ↔ y < 0)

theorem SameSign.natAbs_sub {x y : Int} (h : SameSign x y) :
    ((x.natAbs : Int) - y.natAbs).natAbs = (x - y).natAbs := by
  unfold SameSign at h
  omega

/-- Two opposite values are equally far from `y` only where one of them, or `y`, is 0. -/
theorem eq_zero_of_natAbs_sub_eq_natAbs_neg_sub {x y : Int} (h : (x - y).natAbs = (-x - y).natAbs) :
    x = 0 ∨ y = 0 := by
  omega

/-! Rounded results. -/

theorem natAbs_value (a : DWord) : (Fp.value a).natAbs = Fp.mag a := by
  unfold Fp.value
  split
  · rw [Int.natAbs_neg, Int.natAbs_natCast]
  · exact Int.natAbs_natCast _

theorem value_ne_zero_of_not_isZero {a : DWord} (h : Fp.isZero a = false) : Fp.value a ≠ 0 := by
  rw [← Int.natAbs_ne_zero, natAbs_value]
  exact ne_of_beq_false h

theorem value_neg_iff {a : DWord} (h : Fp.value a ≠ 0) : Fp.value a < 0 ↔ Fp.sign a = true := by
  unfold Fp.value at h ⊢
  by_cases hs : Fp.sign a = true
  · rw [if_pos hs] at h ⊢
    exact iff_of_true (by omega) hs
  · rw [if_neg hs] at h ⊢
    exact iff_of_false (by omega) hs

theorem value_eq_or_eq_neg_of_mag_eq {a b : DWord} (h : Fp.mag a = Fp.mag b) :
    Fp.value a = Fp.value b ∨ Fp.value a = -Fp.value b := by
  rwa [← Int.natAbs_eq_natAbs_iff, natAbs_value, natAbs_value]

theorem roundEven_zero (d : Nat) : Fp.roundEven 0 d = 0 := by
  unfold Fp.roundEven
  simp

theorem roundBits_zero (d : Nat) : Fp.roundBits 0 d = 0 := by
  simp [Fp.roundBits, Fp.dropped, roundEven_zero]

theorem round_zero (s : Bool) (d : Nat) : Fp.round s 0 d = Fp.pack s 0 := by
  rw [Fp.round, roundBits_zero]

theorem mag_round_zero (s : Bool) (d : Nat) : Fp.mag (Fp.round s 0 d) = 0 := by
  rw [mag_round, roundBits_zero, Fp.magOfBits_eq_zero]

theorem finiteDouble_round_iff (s : Bool) (n : Nat) {d : Nat} (hd : 0 < d) :
    FiniteDouble (Fp.round s n d) ↔ n < d * overflowBound := by
  have hle := Fp.roundBits_le n d
  have hinf := Fp.roundBits_eq_infBits_iff n hd
  rw [Fp.round, finiteDouble_pack_iff s hle]
  omega

theorem roundBits_lt_of_finiteDouble {s : Bool} {n d : Nat} (h : FiniteDouble (Fp.round s n d)) :
    Fp.roundBits n d < Fp.infBits :=
  (finiteDouble_pack_iff s (Fp.roundBits_le n d)).mp h

theorem getLsbD_zero_pack (s : Bool) (b : Nat) : (Fp.pack s b).getLsbD 0 = decide (b % 2 = 1) := by
  rw [Fp.pack, BitVec.getLsbD_append, BitVec.getLsbD_ofNat, Nat.testBit_zero]
  rfl

/-- `r` is the double nearest to `N / D`, rounded from the absolute values with the quotient's sign. -/
structure IsRounded (r : DWord) (exact : Int × Int) : Prop where
  den_ne_zero : exact.2 ≠ 0
  eq_round : ∃ s, r = Fp.round s exact.1.natAbs exact.2.natAbs
  sign_iff : exact.1 ≠ 0 → (Fp.sign r = true ↔ exact.1 * exact.2 < 0)

/-- The distance of magnitudes, which the laws of rounding speak of. -/
def magDistance (c : DWord) (exact : Int × Int) : Nat :=
  ((exact.2.natAbs * Fp.mag c : Nat) - exact.1.natAbs : Int).natAbs

theorem natAbs_value_mul (c : DWord) (D : Int) : (Fp.value c * D).natAbs = D.natAbs * Fp.mag c := by
  rw [Int.natAbs_mul, natAbs_value, Nat.mul_comm]

theorem magDistance_le_distance (c : DWord) (exact : Int × Int) : magDistance c exact ≤ distance c exact := by
  rw [magDistance, distance, ← natAbs_value_mul]
  exact natAbs_natAbs_sub_natAbs_le _ _

/-- A rounded result times the denominator has the numerator's sign. -/
theorem IsRounded.sameSign {r : DWord} {exact : Int × Int} (h : IsRounded r exact) :
    SameSign (Fp.value r * exact.2) exact.1 := by
  by_cases hN : exact.1 = 0
  · exact .inr (.inl hN)
  by_cases hr : Fp.value r = 0
  · exact .inl (by rw [hr, zero_mul])
  refine .inr (.inr ?_)
  have hsign : Fp.value r < 0 ↔ exact.1 * exact.2 < 0 := (value_neg_iff hr).trans (h.sign_iff hN)
  have hD := h.den_ne_zero
  rw [mul_neg_iff] at hsign ⊢
  omega

theorem IsRounded.distance_eq {r : DWord} {exact : Int × Int} (h : IsRounded r exact) :
    distance r exact = magDistance r exact := by
  rw [magDistance, distance, ← natAbs_value_mul, h.sameSign.natAbs_sub]

theorem IsRounded.finiteDouble_iff {r : DWord} {exact : Int × Int} (h : IsRounded r exact) :
    FiniteDouble r ↔ exact.1.natAbs < overflowBound * exact.2.natAbs := by
  obtain ⟨s, rfl⟩ := h.eq_round
  rw [finiteDouble_round_iff s _ (Int.natAbs_pos.mpr h.den_ne_zero), Nat.mul_comm]

/-- No double is nearer to the exact result, magnitude to magnitude, than a finite rounded one. -/
theorem IsRounded.magDistance_le {r : DWord} {exact : Int × Int} (h : IsRounded r exact) (hf : FiniteDouble r)
    (c : DWord) : magDistance r exact ≤ magDistance c exact := by
  obtain ⟨s, rfl⟩ := h.eq_round
  have hnear := Fp.roundBits_nearest exact.1.natAbs (c.extractLsb' 0 63).toNat
    (Int.natAbs_pos.mpr h.den_ne_zero) (roundBits_lt_of_finiteDouble hf)
  rwa [← mag_round s] at hnear

theorem IsRounded.distance_le {r : DWord} {exact : Int × Int} (h : IsRounded r exact) (hf : FiniteDouble r)
    (c : DWord) : distance r exact ≤ distance c exact :=
  h.distance_eq.trans_le ((h.magDistance_le hf c).trans (magDistance_le_distance c exact))

/-- A rounded result is 0 where the exact result is. -/
theorem IsRounded.value_eq_zero {r : DWord} {exact : Int × Int} (h : IsRounded r exact) (h0 : exact.1 = 0) :
    Fp.value r = 0 := by
  obtain ⟨s, rfl⟩ := h.eq_round
  rw [← Int.natAbs_eq_zero, natAbs_value, h0, Int.natAbs_zero, mag_round_zero]

/-- The double opposite to a rounded result is farther from the exact result, unless both are 0. -/
theorem IsRounded.mag_ne_of_tie {r : DWord} {exact : Int × Int} (h : IsRounded r exact) {c : DWord}
    (htie : distance r exact = distance c exact) (hne : Fp.value c ≠ Fp.value r) : Fp.mag c ≠ Fp.mag r := by
  intro hmag
  obtain heq | hopp := value_eq_or_eq_neg_of_mag_eq hmag
  · exact hne heq
  · have hr : Fp.value r = 0 := by
      rw [distance, distance, hopp, Int.neg_mul] at htie
      obtain hprod | hnum := eq_zero_of_natAbs_sub_eq_natAbs_neg_sub htie
      · exact (mul_eq_zero.mp hprod).resolve_right h.den_ne_zero
      · exact h.value_eq_zero hnum
    exact hne (by rw [hopp, hr, Int.neg_zero])

theorem IsRounded.even_of_tie {r : DWord} {exact : Int × Int} (h : IsRounded r exact) (hf : FiniteDouble r) {c : DWord}
    (htie : distance r exact = distance c exact) (hne : Fp.value c ≠ Fp.value r) : r.getLsbD 0 = false := by
  have hmag := h.mag_ne_of_tie htie hne
  have hmagtie : magDistance r exact = magDistance c exact :=
    le_antisymm (h.magDistance_le hf c) ((magDistance_le_distance c exact).trans_eq (htie.symm.trans h.distance_eq))
  obtain ⟨s, rfl⟩ := h.eq_round
  unfold magDistance at hmagtie
  rw [mag_round] at hmagtie hmag
  have heven := Fp.roundBits_tie exact.1.natAbs (c.extractLsb' 0 63).toNat (Int.natAbs_pos.mpr h.den_ne_zero)
    (roundBits_lt_of_finiteDouble hf) hmagtie hmag
  rw [Fp.round, getLsbD_zero_pack, heven]
  rfl

/-- A rounded result that is not finite is an infinity of the exact result's sign. -/
theorem IsRounded.isInf_of_not_finite {r : DWord} {exact : Int × Int} (h : IsRounded r exact) (hf : ¬ FiniteDouble r) :
    Fp.isInf r = true ∧ (Fp.sign r = true ↔ exact.1 * exact.2 < 0) := by
  have hnum : exact.1 ≠ 0 := by
    intro h0
    rw [h.finiteDouble_iff, h0, Int.natAbs_zero, not_lt, Nat.le_zero, Nat.mul_eq_zero, Int.natAbs_eq_zero] at hf
    obtain hbound | hden := hf
    · unfold overflowBound at hbound
      exact absurd hbound (by positivity)
    · exact h.den_ne_zero hden
  refine ⟨?_, h.sign_iff hnum⟩
  obtain ⟨s, rfl⟩ := h.eq_round
  exact isInf_of_not_finiteDouble hf (not_isNaN_round _ _ _)

/-! The operations on finite operands give rounded results. -/

theorem fpOne_pos : 0 < Fp.one := by
  unfold Fp.one
  positivity

theorem mul_neg_iff_of_pos {x y : Int} (h : 0 < y) : x * y < 0 ↔ x < 0 := by
  rw [mul_neg_iff]
  omega

theorem xor_sign_iff {a b : DWord} (h : Fp.value a * Fp.value b ≠ 0) :
    (Fp.sign a != Fp.sign b) = true ↔ Fp.value a * Fp.value b < 0 := by
  obtain ⟨ha, hb⟩ := mul_ne_zero_iff.mp h
  have hsa := value_neg_iff ha
  have hsb := value_neg_iff hb
  rw [mul_neg_iff, bne_iff_ne, ne_eq, Bool.eq_iff_iff, ← hsa, ← hsb]
  omega

theorem isRounded_of_add {a b r : DWord} (ha : FiniteDouble a) (hb : FiniteDouble b) (h : Fp.add a b = some r) :
    IsRounded r (exactResult .addd a b) := by
  cases addResult_of_add h with
  | infLeft hi => exact absurd hi (isInf_ne_true_of_finiteDouble ha)
  | infRight _ hi => exact absurd hi (isInf_ne_true_of_finiteDouble hb)
  | zero _ _ hv =>
    refine ⟨one_ne_zero, ⟨Fp.sign a && Fp.sign b, ?_⟩, fun hne => absurd hv hne⟩
    rw [exactResult, hv, Int.natAbs_zero, round_zero]
  | rounded =>
    refine ⟨one_ne_zero, ⟨_, rfl⟩, fun _ => ?_⟩
    rw [sign_round, decide_eq_true_iff]
    rw [exactResult, mul_one]

theorem isRounded_of_sub {a b r : DWord} (ha : FiniteDouble a) (hb : FiniteDouble b) (h : Fp.sub a b = some r) :
    IsRounded r (exactResult .subd a b) := by
  have hadd := isRounded_of_add ha ((finiteDouble_neg b).mpr hb) h
  rwa [exactResult, Fp.value_neg, ← sub_eq_add_neg] at hadd

theorem isRounded_of_mul {a b r : DWord} (ha : FiniteDouble a) (hb : FiniteDouble b) (h : Fp.mul a b = some r) :
    IsRounded r (exactResult .muld a b) := by
  have hone : (0 : Int) < Fp.one := Int.natCast_pos.mpr fpOne_pos
  cases mulResult_of_mul h with
  | inf hi => exact absurd hi (not_or.mpr ⟨isInf_ne_true_of_finiteDouble ha, isInf_ne_true_of_finiteDouble hb⟩)
  | rounded =>
    refine ⟨hone.ne', ⟨Fp.sign a != Fp.sign b, ?_⟩, fun hne => ?_⟩
    · rw [exactResult, Int.natAbs_mul, natAbs_value, natAbs_value, Int.natAbs_natCast]
    · rw [sign_round, xor_sign_iff hne, exactResult]
      exact (mul_neg_iff_of_pos hone).symm

theorem isRounded_of_div {a b r : DWord} (ha : FiniteDouble a) (hb : FiniteDouble b) (hz : Fp.isZero b = false)
    (h : Fp.div a b = some r) : IsRounded r (exactResult .divd a b) := by
  have hone : (0 : Int) < Fp.one := Int.natCast_pos.mpr fpOne_pos
  cases divResult_of_div h with
  | infLeft hi => exact absurd hi (isInf_ne_true_of_finiteDouble ha)
  | infRight _ hi => exact absurd hi (isInf_ne_true_of_finiteDouble hb)
  | byZero _ hzero => exact absurd hzero (by simp [hz])
  | rounded =>
    have hb0 : Fp.value b ≠ 0 := value_ne_zero_of_not_isZero hz
    refine ⟨hb0, ⟨Fp.sign a != Fp.sign b, ?_⟩, fun hne => ?_⟩
    · rw [exactResult, Int.natAbs_mul, natAbs_value, natAbs_value, Int.natAbs_natCast]
    · have ha0 : Fp.value a ≠ 0 := left_ne_zero_of_mul hne
      rw [sign_round, xor_sign_iff (mul_ne_zero ha0 hb0), exactResult, mul_right_comm]
      exact (mul_neg_iff_of_pos hone).symm

theorem isRounded_of_eval {op : FpOp} {a b r : DWord} (ha : FiniteDouble a) (hb : FiniteDouble b)
    (hz : op = .divd → Fp.isZero b = false) (h : Fp.eval op a b = some r) : IsRounded r (exactResult op a b) := by
  cases op with
  | addd => exact isRounded_of_add ha hb h
  | subd => exact isRounded_of_sub ha hb h
  | muld => exact isRounded_of_mul ha hb h
  | divd => exact isRounded_of_div ha hb (hz rfl) h

/-- Settles O33: each operation's result is a rounded one, of its own exact result. -/
theorem doubleResultsAreNearestTiesToEven : Obligations.DoubleResultsAreNearestTiesToEven := by
  intro op a b r ha hb hz heval
  have h := isRounded_of_eval ha hb hz heval
  exact ⟨h.finiteDouble_iff, fun hf c _ => ⟨h.distance_le hf c, h.even_of_tie hf⟩, h.isInf_of_not_finite⟩

end Sys2Proof.Machine

/-!
# Conversions between integers and doubles

An integer below 2^53 is a double's own magnitude, so rounding gives it back (G4); DTOI divides the magnitude by 1.0 and
keeps the sign.
-/

namespace Sys2Proof.Machine

/-! Integers as doubles (44_float.md R228). -/

/-- A natural number with at most 53 bits is the magnitude of a double: shifted up until it has all 53. -/
theorem exists_magOfBits_eq {n : Nat} (h : n < 2 ^ 53) : ∃ c, Fp.magOfBits c = n * Fp.one := by
  obtain rfl | hn := Nat.eq_zero_or_pos n
  · exact ⟨0, by rw [Nat.zero_mul, Fp.magOfBits_eq_zero]⟩
  have hk : Nat.log2 n ≤ 52 := Nat.lt_succ_iff.mp ((Nat.log2_lt hn.ne').mpr h)
  have hlow : 2 ^ Nat.log2 n ≤ n := Nat.log2_self_le hn.ne'
  have hhigh : n < 2 ^ (Nat.log2 n + 1) := Nat.lt_log2_self
  generalize Nat.log2 n = k at hk hlow hhigh
  have hm52 : 2 ^ 52 ≤ n * 2 ^ (52 - k) := by
    calc 2 ^ 52 = 2 ^ k * 2 ^ (52 - k) := by rw [← pow_add, Nat.add_sub_cancel' hk]
      _ ≤ n * 2 ^ (52 - k) := Nat.mul_le_mul_right _ hlow
  have hm53 : n * 2 ^ (52 - k) ≤ 2 ^ 53 := by
    calc n * 2 ^ (52 - k) ≤ 2 ^ (k + 1) * 2 ^ (52 - k) := Nat.mul_le_mul_right _ hhigh.le
      _ = 2 ^ 53 := by rw [← pow_add, show k + 1 + (52 - k) = 53 by omega]
  refine ⟨(1022 + k) * 2 ^ 52 + n * 2 ^ (52 - k), ?_⟩
  rw [Fp.magOfBits_scaled (.inr hm52) hm53, Nat.mul_assoc, ← pow_add, show 52 - k + (1022 + k) = 1074 by omega]
  unfold Fp.one
  rfl

/-- A magnitude that some double has is rounded to itself. -/
theorem magOfBits_roundBits_of_eq {n c : Nat} (hc : Fp.magOfBits c = n) (hfin : Fp.roundBits n 1 < Fp.infBits) :
    Fp.magOfBits (Fp.roundBits n 1) = n := by
  have hnear := Fp.roundBits_nearest n c Nat.one_pos hfin
  rw [hc] at hnear
  omega

theorem mul_one_lt_overflowBound {n : Nat} (h : n < 2 ^ 53) : n * Fp.one < 1 * overflowBound := by
  have hpow : (2 : Nat) ^ 1074 ≤ 2 ^ 2044 := pow_right_mono₀ one_le_two (by omega)
  have hpos : 0 < (2 : Nat) ^ 2044 := by positivity
  unfold Fp.one overflowBound
  generalize (2 : Nat) ^ 1074 = p at *
  generalize (2 : Nat) ^ 2044 = q at *
  calc n * p ≤ n * q := Nat.mul_le_mul_left n hpow
    _ < (2 ^ 54 - 1) * q := Nat.mul_lt_mul_of_pos_right (h.trans (by decide)) hpos
    _ = 1 * ((2 ^ 54 - 1) * q) := (Nat.one_mul _).symm

theorem finiteDouble_ofInt {v : Int} (h : v.natAbs < 2 ^ 53) : FiniteDouble (Fp.ofInt v) :=
  (finiteDouble_round_iff _ _ Nat.one_pos).mpr (mul_one_lt_overflowBound h)

theorem mag_ofInt {v : Int} (h : v.natAbs < 2 ^ 53) : Fp.mag (Fp.ofInt v) = v.natAbs * Fp.one := by
  obtain ⟨c, hc⟩ := exists_magOfBits_eq h
  rw [Fp.ofInt, mag_round, magOfBits_roundBits_of_eq hc (roundBits_lt_of_finiteDouble (finiteDouble_ofInt h))]

theorem value_ofInt {v : Int} (h : v.natAbs < 2 ^ 53) : Fp.value (Fp.ofInt v) = v * Fp.one := by
  have hsign : Fp.sign (Fp.ofInt v) = decide (v < 0) := sign_round _ _ _
  rw [Fp.value, hsign, mag_ofInt h, Nat.cast_mul]
  split
  next hneg => rw [← Int.neg_mul, Int.ofNat_natAbs_of_nonpos (of_decide_eq_true hneg).le, Int.neg_neg]
  next hpos => rw [Int.natAbs_of_nonneg (by simpa using hpos)]

theorem ofInt_zero : Fp.ofInt 0 = 0 := by
  rw [Fp.ofInt, Int.natAbs_zero, Nat.zero_mul, round_zero]
  rfl

theorem State.intToDouble_valid (s : State) {rd hi : Reg} (h : hi.val = rd.val + 1) (rs : Reg) :
    s.intToDouble rd rs = s.setPair rd hi (Fp.ofInt (s.reg rs).toInt) :=
  s.withPair_valid h _

/-- A register's integer has at most 32 bits. -/
theorem natAbs_toInt_lt (w : Word) : w.toInt.natAbs < 2 ^ 53 := by
  have hlt := w.toInt_lt
  have hle := w.le_toInt
  omega

/-- Settles O36: the pair is written with the integer's double, which is exact. -/
theorem integerToDoubleIsExact : Obligations.IntegerToDoubleIsExact := by
  intro s rd hi rs h
  have hsmall := natAbs_toInt_lt (s.reg rs)
  refine ⟨_, Fp.ofInt (s.reg rs).toInt, exec_itod rd rs s, ?_, finiteDouble_ofInt hsmall, value_ofInt hsmall, ?_⟩
  · rw [State.intToDouble_valid s h]
    exact pairWritten_setPair s h _
  · intro hzero
    rw [hzero]
    exact ofInt_zero

/-! Doubles as integers (R229). -/

theorem State.doubleToInt_of_nan (s : State) {rs hi : Reg} (hp : hi.val = rs.val + 1) (rd : Reg)
    (h : Fp.toInt32 (s.reg hi ++ s.reg rs) = .nan) : s.doubleToInt rd rs =
      s.nextDraw.setReg rd (Config.dtoiNan s.draws (s.reg hi ++ s.reg rs)) := by
  simp only [State.doubleToInt, State.withPair_valid s hp, State.pair, h]

theorem State.doubleToInt_of_overflow (s : State) {rs hi : Reg} (hp : hi.val = rs.val + 1) (rd : Reg)
    (h : Fp.toInt32 (s.reg hi ++ s.reg rs) = .overflow) : s.doubleToInt rd rs = s.raise .regOverflow := by
  simp only [State.doubleToInt, State.withPair_valid s hp, State.pair, h]

theorem State.doubleToInt_of_value (s : State) {rs hi : Reg} (hp : hi.val = rs.val + 1) (rd : Reg) {v : Int}
    (h : Fp.toInt32 (s.reg hi ++ s.reg rs) = .value v) : s.doubleToInt rd rs = s.setReg rd (BitVec.ofInt 32 v) := by
  simp only [State.doubleToInt, State.withPair_valid s hp, State.pair, h]

theorem toInt32_of_isNaN {a : DWord} (h : Fp.isNaN a = true) : Fp.toInt32 a = .nan := by
  simp [Fp.toInt32, h]

theorem toInt32_of_large {a : DWord}
    (h : (FiniteDouble a ∧ 2147483647 * Fp.one < Fp.mag a) ∨ Fp.isInf a = true) : Fp.toInt32 a = .overflow := by
  obtain ⟨hf, hlarge⟩ | hi := h
  · simp [Fp.toInt32, not_isNaN_of_finiteDouble hf, hlarge]
  · simp [Fp.toInt32, not_isNaN_of_isInf hi, hi]

theorem toInt32_of_small {a : DWord} (hf : FiniteDouble a) (h : Fp.mag a ≤ 2147483647 * Fp.one) :
    Fp.toInt32 a = .value ((Fp.value a).tdiv Fp.one) := by
  simp [Fp.toInt32, not_isNaN_of_finiteDouble hf, not_isInf_of_finiteDouble hf, h]

/-- Truncation toward zero divides the magnitude and keeps the sign. -/
theorem value_tdiv_one (a : DWord) : (Fp.value a).tdiv Fp.one =
    if Fp.sign a = true then -((Fp.mag a / Fp.one : Nat) : Int) else (Fp.mag a / Fp.one : Nat) := by
  unfold Fp.value
  split
  · rw [Int.neg_tdiv, ← Int.ofNat_tdiv]
  · rw [← Int.ofNat_tdiv]

theorem toInt_ofInt_of_fits {q : Int} (h : FitsInt32 q) : (BitVec.ofInt 32 q).toInt = q := by
  obtain ⟨hlow, hhigh⟩ := h
  rw [BitVec.toInt_ofInt]
  apply Int.bmod_eq_of_le <;> omega

/-- The truncated quotient, where it fits: its magnitude is the quotient of the magnitudes, its sign the double's. -/
theorem toInt_ofInt_value_tdiv_one {a : DWord} (h : Fp.mag a / Fp.one ≤ 2147483647) :
    (BitVec.ofInt 32 ((Fp.value a).tdiv Fp.one)).toInt =
      if Fp.sign a = true then -((Fp.mag a / Fp.one : Nat) : Int) else (Fp.mag a / Fp.one : Nat) := by
  rw [value_tdiv_one]
  generalize Fp.mag a / Fp.one = q at h ⊢
  apply toInt_ofInt_of_fits
  split <;> constructor <;> omega

/-- What DTOI writes of a double it can hold: truncated toward zero (D13). -/
theorem truncated_of_small {a : DWord} (h : Fp.mag a ≤ 2147483647 * Fp.one) {v : Word}
    (hv : v = BitVec.ofInt 32 ((Fp.value a).tdiv Fp.one)) :
    v.toInt.natAbs * Fp.one ≤ Fp.mag a ∧ Fp.mag a < (v.toInt.natAbs + 1) * Fp.one ∧
      (v ≠ 0 → (v.toInt < 0 ↔ Fp.sign a = true)) := by
  have hquot : Fp.mag a / Fp.one ≤ 2147483647 := Nat.div_le_of_le_mul (by rwa [Nat.mul_comm])
  have hint := toInt_ofInt_value_tdiv_one hquot
  rw [← hv] at hint
  have hlow := Nat.div_mul_le_self (Fp.mag a) Fp.one
  have hhigh := Nat.lt_mul_of_div_lt (Nat.lt_succ_self (Fp.mag a / Fp.one)) fpOne_pos
  generalize Fp.mag a / Fp.one = q at hint hlow hhigh
  have habs : v.toInt.natAbs = q := by
    rw [hint]
    split
    · rw [Int.natAbs_neg, Int.natAbs_natCast]
    · rw [Int.natAbs_natCast]
  rw [habs]
  refine ⟨hlow, hhigh, fun hne => ?_⟩
  have hne' := toInt_ne_zero hne
  split at hint
  next hneg => exact iff_of_true (by omega) hneg
  next hpos => exact iff_of_false (by omega) hpos

/-- Settles O37: DTOI's three cases are the three kinds of operand; a value that fits is the truncated quotient of the
magnitude by 1.0. -/
theorem doubleToIntegerTruncates : Obligations.DoubleToIntegerTruncates := by
  rintro s rd rs hi _ h rfl
  refine ⟨fun hf hsmall => ⟨_, _, exec_dtoi rd rs s, ?_, truncated_of_small hsmall rfl⟩,
    fun hlarge => ⟨_, exec_dtoi rd rs s, ?_⟩, fun hnan => ⟨_, exec_dtoi rd rs s, ?_⟩⟩
  · rw [State.doubleToInt_of_value s h rd (toInt32_of_small hf hsmall)]
    exact regWritten_setReg s rd _
  · rw [State.doubleToInt_of_overflow s h rd (toInt32_of_large hlarge)]
    exact exceptionTaken_raise s _
  · rw [State.doubleToInt_of_nan s h rd (toInt32_of_isNaN hnan)]
    exact drawWritten_setReg s rd _

end Sys2Proof.Machine
